-- ==== Sys2Proof/Word.lean ====
section
/-! DEFINITION. The words of the COMP40 codec core (00_scope.md R9, R10): a byte of the stream or of a colour channel,
a 32-bit codeword, and the bounds of the two 64-bit operand domains. Bit 0 is a word's least significant bit (R9). -/

namespace Sys2Proof

/-- A byte: the set `u8` of R10, a colour channel (R25), a byte of the stream (R30), an operation code (R80). -/
abbrev Byte := BitVec 8

/-- A codeword is exactly 32 bits (10_state.md R29). -/
abbrev Codeword := BitVec 32

/-- The number of values of the 64-bit word of the bit-field codec, `2 ^ WORD` (R7, R10): `u64` is `[0, u64Size - 1]`. -/
def u64Size : Nat := 18446744073709551616

/-- The largest value of `s64`, plus one: `2 ^ 63` (R10). -/
def s64Bound : Int := 9223372036854775808

/-- `v` lies in `s64 = [-2^63, 2^63 - 1]` (R10). -/
abbrev inS64 (v : Int) : Prop := -s64Bound ≤ v ∧ v < s64Bound

/-- The number of values of a 7-bit operand (`width` or `lsb`, 30_encoding.md R83). -/
def u7Size : Nat := 128

end Sys2Proof
end

