-- ==== Sys2Proof/Config.lean ====
section
/-! DEFINITION. What is configuration and not state (10_state.md R20): the parameters the source fixes (00_scope.md R7),
the decided ones (R8), and the two OPEN ones, CHROMA and DIM_MAX, as constants with no body. -/

namespace Sys2Proof

/-- `WORD` (R7): width in bits of the bit-field codec's word. -/
def Config.word : Nat := 64

/-- `A_W, B_W, C_W, D_W` (R7). -/
def Config.coefWidth : Nat := 6

/-- `PB_W, PR_W` (R7). -/
def Config.chromaWidth : Nat := 4

/-- `A_LSB` (R7). -/
def Config.aLsb : Nat := 26

/-- `B_LSB` (R7). -/
def Config.bLsb : Nat := 20

/-- `C_LSB` (R7). -/
def Config.cLsb : Nat := 14

/-- `D_LSB` (R7). -/
def Config.dLsb : Nat := 8

/-- `PB_LSB` (R7). -/
def Config.pbLsb : Nat := 4

/-- `PR_LSB` (R7). -/
def Config.prLsb : Nat := 0

/-- `A_SCALE` (R7). -/
def Config.aScale : ℚ := 63

/-- `BCD_SCALE` (R7). -/
def Config.bcdScale : ℚ := 100

/-- `BCD_LIM` (R7): b, c, d are clamped to `[-BCD_LIM, BCD_LIM]`. -/
def Config.bcdLim : ℚ := 3 / 10

/-- `OUT_DENOM` (R7): the denominator of every pixel map the core writes. -/
def Config.outDenom : Byte := 255

/-- `CW_BYTES` (R7): bytes per codeword in the stream. -/
def Config.cwBytes : Nat := 4

/-- `MAGIC` (R7, 30_encoding.md R90): the 32 ASCII bytes of `COMP40 Compressed image format 2`. -/
def Config.magic : List Byte :=
  [0x43, 0x4F, 0x4D, 0x50, 0x34, 0x30, 0x20, 0x43, 0x6F, 0x6D, 0x70, 0x72, 0x65, 0x73, 0x73, 0x65,
   0x64, 0x20, 0x69, 0x6D, 0x61, 0x67, 0x65, 0x20, 0x66, 0x6F, 0x72, 0x6D, 0x61, 0x74, 0x20, 0x32]

/-- `FITS_S_W0` (R8, decision D8): the value of `fits_signed(v, 0)`, false for every `v`. -/
def Config.fitsSignedWidth0 : Bool := false

/-- A chroma table (41_quantizer.md R146): two total functions, `index_of : ℚ → {0,…,15}` and `value_of : {0,…,15} → ℚ`. -/
structure Chroma where
  indexOf : ℚ → Fin 16
  valueOf : Fin 16 → ℚ
deriving Inhabited

/-- `CHROMA_MONO` (R147): both functions are non-decreasing. A claim that needs it takes it as a named premise. -/
def Chroma.Mono (ch : Chroma) : Prop :=
  (∀ x x', x ≤ x' → ch.indexOf x ≤ ch.indexOf x') ∧ (∀ i j, i ≤ j → ch.valueOf i ≤ ch.valueOf j)

/-- `CHROMA_RT` (R148 (a)): not required by the source, only ever a named premise. -/
def Chroma.RoundTrip (ch : Chroma) : Prop := ∀ i, ch.indexOf (ch.valueOf i) = i

/-- `CHROMA_ZERO` (R148 (c)): the code of zero decodes to zero or near it; the bounds are the ones R148 gives
(decimals as written there, `-0.00176` and `0.00105`). Not required by the source, only ever a named premise. -/
def Chroma.Zero (ch : Chroma) : Prop :=
  -176 / 100000 < ch.valueOf (ch.indexOf 0) ∧ ch.valueOf (ch.indexOf 0) < 105 / 100000

/-- The OPEN parameter `CHROMA` (R146, decision D4): fixed for the life of the instance, its values in no document.
DESIGN CHOICE (log entry 4), safe: nothing at all is known of it, not even `CHROMA_MONO`. -/
opaque Config.chroma : Chroma

/-- Half of `DIM_MAX`, less one. DESIGN CHOICE (log entry 5), safe: any natural. -/
opaque Config.dimMaxPairs : Nat

/-- The OPEN parameter `DIM_MAX` (00_scope.md R8, decision D18): "an even natural ≥ 2". -/
def Config.dimMax : Nat := 2 * (Config.dimMaxPairs + 1)

end Sys2Proof
end

