-- ==== Sys2Proof/Syntax.lean ====
section
/-! DEFINITION. The commands of the core: the records that operands and buffer elements are made of (30_encoding.md R83),
`Instr`, one constructor per row of spec/opcode_table.json with its decoded operands (R84), the command port as the host
drives it (R80), and the operation names of the opcode table (R81). -/

namespace Sys2Proof

/-- A ComponentVideo pixel `(y, pb, pr)` in ℚ³ (10_state.md R26); `cv` of 30_encoding.md R83. -/
structure CvPixel where
  y : ℚ
  pb : ℚ
  pr : ℚ
deriving DecidableEq, Repr, Inhabited

/-- A block record `(a, b, c, d, avgpb, avgpr)` in ℚ⁶ (10_state.md R27); `blk` of 30_encoding.md R83. -/
structure BlkRec where
  a : ℚ
  b : ℚ
  c : ℚ
  d : ℚ
  avgpb : ℚ
  avgpr : ℚ
deriving DecidableEq, Repr, Inhabited

/-- A quantized block record `(qa, qb, qc, qd, ipb, ipr)` in ℤ⁶ (10_state.md R28, decision D22: six unbounded
integers); `qblk` of 30_encoding.md R83. -/
structure QRec where
  qa : Int
  qb : Int
  qc : Int
  qd : Int
  ipb : Int
  ipr : Int
deriving DecidableEq, Repr, Inhabited

/-- The 26 commands (R81), each with its decoded operands in the order of R83. `word` and the unsigned values are
naturals of `u64`, the signed values integers of `s64`, `width` and `lsb` naturals of 7 bits (R84); `WellFormed` states
those ranges. S-form commands have no operand. -/
inductive Instr where
  /-- FITSU, 0x10 (40_bitfield.md R111). -/
  | fitsu (v width : Nat)
  /-- FITSS, 0x11 (R112). -/
  | fitss (v : Int) (width : Nat)
  /-- GETU, 0x12 (R113). -/
  | getu (word width lsb : Nat)
  /-- GETS, 0x13 (R114). -/
  | gets (word width lsb : Nat)
  /-- SETU, 0x14 (R115). -/
  | setu (word width lsb value : Nat)
  /-- SETS, 0x15 (R116). -/
  | sets (word width lsb : Nat) (value : Int)
  /-- QFWD, 0x20 (41_quantizer.md R140). -/
  | qfwd (record : BlkRec)
  /-- QINV, 0x21 (R141). -/
  | qinv (record : QRec)
  /-- SQFWD, 0x28 (R142). -/
  | sqfwd
  /-- SQINV, 0x29 (R143). -/
  | sqinv
  /-- CFWD, 0x30 (42_color.md R160). -/
  | cfwd (r g b denom : Byte)
  /-- CINV, 0x31 (R161). -/
  | cinv (p : CvPixel)
  /-- SCFWD, 0x38 (R162). -/
  | scfwd
  /-- SCINV, 0x39 (R164). -/
  | scinv
  /-- BFWD, 0x40 (43_block.md R180). -/
  | bfwd (p1 p2 p3 p4 : CvPixel)
  /-- BINV, 0x41 (R181). -/
  | binv (record : BlkRec)
  /-- SBFWD, 0x48 (R184). -/
  | sbfwd
  /-- SBINV, 0x49 (R185). -/
  | sbinv
  /-- CWASM, 0x50 (44_codeword.md R200). -/
  | cwasm (record : QRec)
  /-- CWDIS, 0x51 (R201). -/
  | cwdis (word : Nat)
  /-- SCWASM, 0x58 (R204). -/
  | scwasm
  /-- SCWDIS, 0x59 (R205). -/
  | scwdis
  /-- WWRITE, 0x68 (45_wire.md R220). -/
  | wwrite
  /-- WREAD, 0x69 (R223). -/
  | wread
  /-- COMPRESS, 0x78 (46_pipeline.md R250). -/
  | compress
  /-- DECOMPRESS, 0x79 (R251). -/
  | decompress
deriving DecidableEq, Repr

/-- The operand wires of the command port. 92_eei_decisions.md D6 gives `word`, `v`/`value` 64 wires and `width`, `lsb`
7 wires each; a channel and `denom` are 8 wires (42_color.md R160); a rational or a record is passed as a value of its
type, since its wires "are not specified" (30_encoding.md R83). A command reads the wires of its own operand tuple and no
others. DESIGN CHOICE (log entry 3): one port that carries every operand shape. -/
structure Wires where
  /-- `word` of GETU, GETS, SETU, SETS, CWDIS. -/
  word : BitVec 64
  /-- `v` of FITSU, FITSS; `value` of SETU, SETS. -/
  value : BitVec 64
  width : BitVec 7
  lsb : BitVec 7
  /-- CFWD's four bytes. -/
  r : Byte
  g : Byte
  b : Byte
  denom : Byte
  /-- `P1` of BFWD; the pixel of CINV. -/
  p1 : CvPixel
  p2 : CvPixel
  p3 : CvPixel
  p4 : CvPixel
  /-- The block record of QFWD, BINV. -/
  blk : BlkRec
  /-- The quantized record of QINV, CWASM. -/
  qblk : QRec
deriving DecidableEq, Repr

/-- Every wire zero. -/
def Wires.zero : Wires :=
  ⟨0, 0, 0, 0, 0, 0, 0, 0, ⟨0, 0, 0⟩, ⟨0, 0, 0⟩, ⟨0, 0, 0⟩, ⟨0, 0, 0⟩, ⟨0, 0, 0, 0, 0, 0⟩, ⟨0, 0, 0, 0, 0, 0⟩⟩

/-- "A command is one 8-bit operation code `OP` together with the operand tuple of that operation" (R80). -/
structure Command where
  op : Byte
  args : Wires
deriving DecidableEq, Repr

/-- The 26 operations of R81's table, without operands. -/
inductive Op where
  | fitsu | fitss | getu | gets | setu | sets | qfwd | qinv | sqfwd | sqinv | cfwd | cinv | scfwd | scinv
  | bfwd | binv | sbfwd | sbinv | cwasm | cwdis | scwasm | scwdis | wwrite | wread | compress | decompress
deriving DecidableEq, Repr

/-- The operation of a command. -/
def Instr.opName : Instr → Op
  | .fitsu _ _ => .fitsu
  | .fitss _ _ => .fitss
  | .getu _ _ _ => .getu
  | .gets _ _ _ => .gets
  | .setu _ _ _ _ => .setu
  | .sets _ _ _ _ => .sets
  | .qfwd _ => .qfwd
  | .qinv _ => .qinv
  | .sqfwd => .sqfwd
  | .sqinv => .sqinv
  | .cfwd _ _ _ _ => .cfwd
  | .cinv _ => .cinv
  | .scfwd => .scfwd
  | .scinv => .scinv
  | .bfwd _ _ _ _ => .bfwd
  | .binv _ => .binv
  | .sbfwd => .sbfwd
  | .sbinv => .sbinv
  | .cwasm _ => .cwasm
  | .cwdis _ => .cwdis
  | .scwasm => .scwasm
  | .scwdis => .scwdis
  | .wwrite => .wwrite
  | .wread => .wread
  | .compress => .compress
  | .decompress => .decompress

/-- The `UNIT` field of an operation (R80, R81): the unit's number in 00_scope.md R2. -/
def Op.unit : Op → Nat
  | .fitsu | .fitss | .getu | .gets | .setu | .sets => 1
  | .qfwd | .qinv | .sqfwd | .sqinv => 2
  | .cfwd | .cinv | .scfwd | .scinv => 3
  | .bfwd | .binv | .sbfwd | .sbinv => 4
  | .cwasm | .cwdis | .scwasm | .scwdis => 5
  | .wwrite | .wread => 6
  | .compress | .decompress => 7

/-- The `S` field of an operation: true for an S-form command (R80, R81). -/
def Op.sForm : Op → Bool
  | .sqfwd | .sqinv | .scfwd | .scinv | .sbfwd | .sbinv | .scwasm | .scwdis | .wwrite | .wread
  | .compress | .decompress => true
  | .fitsu | .fitss | .getu | .gets | .setu | .sets | .qfwd | .qinv | .cfwd | .cinv | .bfwd | .binv
  | .cwasm | .cwdis => false

/-- The `FN` field of an operation (R80, R81): for units 2 to 7, 0 is forward and 1 inverse. -/
def Op.fn : Op → Nat
  | .fitsu => 0
  | .fitss => 1
  | .getu => 2
  | .gets => 3
  | .setu => 4
  | .sets => 5
  | .qfwd | .sqfwd | .cfwd | .scfwd | .bfwd | .sbfwd | .cwasm | .scwasm | .wwrite | .compress => 0
  | .qinv | .sqinv | .cinv | .scinv | .binv | .sbinv | .cwdis | .scwdis | .wread | .decompress => 1

end Sys2Proof
end

