-- ==== Sys2Proof/WellFormed.lean ====
section
/-! DEFINITION. When a command's operands are values the port can present (30_encoding.md R83, R84): `u64`, `s64` and 7-bit
operands in range. Every other operand's type holds exactly the values R83 gives it. -/

namespace Sys2Proof

/-- The operands lie in the domains of R83: `word`, `v`, `value` in `u64` or `s64`, `width` and `lsb` 7 bits. -/
abbrev Instr.WellFormed : Instr → Prop
  | .fitsu v width => v < u64Size ∧ width < u7Size
  | .fitss v width => inS64 v ∧ width < u7Size
  | .getu word width lsb => word < u64Size ∧ width < u7Size ∧ lsb < u7Size
  | .gets word width lsb => word < u64Size ∧ width < u7Size ∧ lsb < u7Size
  | .setu word width lsb value => word < u64Size ∧ width < u7Size ∧ lsb < u7Size ∧ value < u64Size
  | .sets word width lsb value => word < u64Size ∧ width < u7Size ∧ lsb < u7Size ∧ inS64 value
  | .qfwd _ => True
  | .qinv _ => True
  | .sqfwd => True
  | .sqinv => True
  | .cfwd _ _ _ _ => True
  | .cinv _ => True
  | .scfwd => True
  | .scinv => True
  | .bfwd _ _ _ _ => True
  | .binv _ => True
  | .sbfwd => True
  | .sbinv => True
  | .cwasm _ => True
  | .cwdis word => word < u64Size
  | .scwasm => True
  | .scwdis => True
  | .wwrite => True
  | .wread => True
  | .compress => True
  | .decompress => True

end Sys2Proof
end

