-- ==== Sys2Proof/Decode.lean ====
section
/-! DEFINITION. From the command port to a command and back (30_encoding.md R80 to R84). Decoding is total: all eight bits of
`OP` are compared, one of the 26 codes gives its command, each of the 230 others is rejected by name. -/

namespace Sys2Proof

/-- Why a command is not one of the 26. -/
inductive Reject where
  /-- `OP` is a reserved operation code (R82). Safe: issuing it raises PreconditionViolation. -/
  | reservedOp (op : Byte)
deriving DecidableEq, Repr

/-- `as_s64` of 00_scope.md R10 on the 64 wires: two's complement. -/
def asS64 (u : BitVec 64) : Int :=
  if u.toNat < 9223372036854775808 then (u.toNat : Int) else (u.toNat : Int) - 18446744073709551616

/-- `as_u64` of 00_scope.md R10, on 64 wires: the two's-complement bit pattern, `s mod 2^64`. -/
def asU64 (s : Int) : BitVec 64 := BitVec.ofNat 64 (s % 18446744073709551616).toNat

/-- The opcode table of R81, row by row. -/
def opTable : List (Byte × Op) :=
  [(0x10, .fitsu), (0x11, .fitss), (0x12, .getu), (0x13, .gets), (0x14, .setu), (0x15, .sets)] ++
  [(0x20, .qfwd), (0x21, .qinv), (0x28, .sqfwd), (0x29, .sqinv)] ++
  [(0x30, .cfwd), (0x31, .cinv), (0x38, .scfwd), (0x39, .scinv)] ++
  [(0x40, .bfwd), (0x41, .binv), (0x48, .sbfwd), (0x49, .sbinv)] ++
  [(0x50, .cwasm), (0x51, .cwdis), (0x58, .scwasm), (0x59, .scwdis)] ++
  [(0x68, .wwrite), (0x69, .wread)] ++
  [(0x78, .compress), (0x79, .decompress)]

/-- The operation an operation code names; "a decoder compares all eight bits" (R81). -/
def decodeOp (op : Byte) : Option Op := (opTable.find? (fun row => row.1 == op)).map (·.2)

/-- The operands of an operation, read from the port's wires: zero-extended naturals, and two's complement for the `v` of
FITSS and the `value` of SETS (R83, R84). -/
def operands (a : Wires) : Op → Instr
  | .fitsu => .fitsu a.value.toNat a.width.toNat
  | .fitss => .fitss (asS64 a.value) a.width.toNat
  | .getu => .getu a.word.toNat a.width.toNat a.lsb.toNat
  | .gets => .gets a.word.toNat a.width.toNat a.lsb.toNat
  | .setu => .setu a.word.toNat a.width.toNat a.lsb.toNat a.value.toNat
  | .sets => .sets a.word.toNat a.width.toNat a.lsb.toNat (asS64 a.value)
  | .qfwd => .qfwd a.blk
  | .qinv => .qinv a.qblk
  | .sqfwd => .sqfwd
  | .sqinv => .sqinv
  | .cfwd => .cfwd a.r a.g a.b a.denom
  | .cinv => .cinv a.p1
  | .scfwd => .scfwd
  | .scinv => .scinv
  | .bfwd => .bfwd a.p1 a.p2 a.p3 a.p4
  | .binv => .binv a.blk
  | .sbfwd => .sbfwd
  | .sbinv => .sbinv
  | .cwasm => .cwasm a.qblk
  | .cwdis => .cwdis a.word.toNat
  | .scwasm => .scwasm
  | .scwdis => .scwdis
  | .wwrite => .wwrite
  | .wread => .wread
  | .compress => .compress
  | .decompress => .decompress

/-- The command on the port, or the reserved code by name (R81, R82). -/
def decode (c : Command) : Except Reject Instr :=
  match decodeOp c.op with
  | some op => .ok (operands c.args op)
  | none => .error (.reservedOp c.op)

/-- The operation code of an operation: `{UNIT, S, FN}` (R80). -/
def opCode (op : Op) : Byte :=
  BitVec.ofNat 8 (op.unit * 16 + (if op.sForm then 8 else 0) + op.fn)

/-- The wires a command's operands drive; every other wire is zero. -/
def argWires : Instr → Wires
  | .fitsu v width => { Wires.zero with value := BitVec.ofNat 64 v, width := BitVec.ofNat 7 width }
  | .fitss v width => { Wires.zero with value := asU64 v, width := BitVec.ofNat 7 width }
  | .getu word width lsb =>
    { Wires.zero with word := BitVec.ofNat 64 word, width := BitVec.ofNat 7 width, lsb := BitVec.ofNat 7 lsb }
  | .gets word width lsb =>
    { Wires.zero with word := BitVec.ofNat 64 word, width := BitVec.ofNat 7 width, lsb := BitVec.ofNat 7 lsb }
  | .setu word width lsb value =>
    { Wires.zero with word := BitVec.ofNat 64 word, width := BitVec.ofNat 7 width, lsb := BitVec.ofNat 7 lsb,
                      value := BitVec.ofNat 64 value }
  | .sets word width lsb value =>
    { Wires.zero with word := BitVec.ofNat 64 word, width := BitVec.ofNat 7 width, lsb := BitVec.ofNat 7 lsb,
                      value := asU64 value }
  | .qfwd record => { Wires.zero with blk := record }
  | .qinv record => { Wires.zero with qblk := record }
  | .sqfwd => Wires.zero
  | .sqinv => Wires.zero
  | .cfwd r g b denom => { Wires.zero with r := r, g := g, b := b, denom := denom }
  | .cinv p => { Wires.zero with p1 := p }
  | .scfwd => Wires.zero
  | .scinv => Wires.zero
  | .bfwd p1 p2 p3 p4 => { Wires.zero with p1 := p1, p2 := p2, p3 := p3, p4 := p4 }
  | .binv record => { Wires.zero with blk := record }
  | .sbfwd => Wires.zero
  | .sbinv => Wires.zero
  | .cwasm record => { Wires.zero with qblk := record }
  | .cwdis word => { Wires.zero with word := BitVec.ofNat 64 word }
  | .scwasm => Wires.zero
  | .scwdis => Wires.zero
  | .wwrite => Wires.zero
  | .wread => Wires.zero
  | .compress => Wires.zero
  | .decompress => Wires.zero

/-- The command the host presents on the port for an instruction (R80, R83): its operation code and its operands, every
other wire zero. -/
def encode (i : Instr) : Command := { op := opCode i.opName, args := argWires i }

/-- The command of an opcode-table row: `OP` is the row's low 8 of `nbits` bits, every operand wire zero. -/
def tableCommand (nbits w : Nat) : Command := { op := BitVec.ofNat 8 (w % 2 ^ nbits), args := Wires.zero }

/-- What the decoder reads from an opcode-table row's bits; none where it rejects them. -/
def decodeTableWord (nbits w : Nat) : Option Instr :=
  match decode (tableCommand nbits w) with
  | .ok i => some i
  | .error _ => none

end Sys2Proof
end

