-- ==== Sys2Proof/Machine/State.lean ====
section
/-! DEFINITION. The state of the core (10_state.md R20 to R34): the status register, the six stage buffers, and the model's own
port to the host (the actions still to be taken, the last reply). Plain data. -/

namespace Sys2Proof.Machine

/-- The three causes a fault can record (60_exceptions.md R280). -/
inductive Cause where
  /-- PreconditionViolation, code 1. -/
  | precond
  /-- OverflowError, code 2. -/
  | overflow
  /-- TruncatedStreamError, code 3. -/
  | trunc
deriving DecidableEq, Repr

/-- An array value (10_state.md R24): a width, a height and the elements in row-major order (20_memory.md R51).
`Arr.Sized` says that it is a total map from `(col,row)`. -/
structure Arr (α : Type) where
  w : Nat
  h : Nat
  elems : List α
deriving DecidableEq, Repr, Inhabited

/-- An `(r, g, b)` triple of `u8` (10_state.md R25). -/
structure Rgb where
  r : Byte
  g : Byte
  b : Byte
deriving DecidableEq, Repr, Inhabited

/-- A PixelMap (10_state.md R25): the triples and one denominator of 8 bits for the whole map. -/
structure PixelMap where
  denom : Byte
  px : Arr Rgb
deriving DecidableEq, Repr, Inhabited

/-- The core's memory: its six stage buffers (10_state.md R24, 20_memory.md R50). `none` is `EMPTY`. -/
structure Memory where
  /-- `PIX`, a pixel map (R25). -/
  pix : Option PixelMap
  /-- `CV`, the ComponentVideo pixels (R26). -/
  cv : Option (Arr CvPixel)
  /-- `BLK`, the block records (R27). -/
  blk : Option (Arr BlkRec)
  /-- `QBLK`, the quantized block records (R28). -/
  qblk : Option (Arr QRec)
  /-- `CWA`, the codewords (R29). -/
  cwa : Option (Arr Codeword)
  /-- `STRM`, the byte stream (R30). -/
  strm : Option (List Byte)
deriving DecidableEq, Repr

/-- All six buffers `EMPTY` (10_state.md R34). -/
def Memory.empty : Memory := ⟨none, none, none, none, none, none⟩

/-- The names of the six buffers (30_encoding.md R97, `BUF`). -/
inductive BufName where
  | pix | cv | blk | qblk | cwa | strm
deriving DecidableEq, Repr

/-- A value of one buffer's type (10_state.md R24 to R30): what `.load` hands over and `.read` returns. -/
inductive BufVal where
  | pix (v : PixelMap)
  | cv (v : Arr CvPixel)
  | blk (v : Arr BlkRec)
  | qblk (v : Arr QRec)
  | cwa (v : Arr Codeword)
  | strm (v : List Byte)
deriving DecidableEq, Repr

/-- The result tuple of an F-form command (30_encoding.md R83): `u64` as a natural, `s64` as an integer. -/
inductive Result where
  /-- `fits` of FITSU and FITSS. -/
  | bool (b : Bool)
  /-- `field` of GETU, `word'` of SETU and SETS, `word` of CWASM. -/
  | u64 (v : Nat)
  /-- `field` of GETS. -/
  | s64 (v : Int)
  /-- The block record of QINV and BFWD. -/
  | blk (v : BlkRec)
  /-- The quantized record of QFWD and CWDIS. -/
  | qblk (v : QRec)
  /-- The ComponentVideo pixel of CFWD. -/
  | cv (v : CvPixel)
  /-- The three channels of CINV. -/
  | rgb (v : Rgb)
  /-- The four pixels of BINV. -/
  | quad (p1 p2 p3 p4 : CvPixel)
deriving DecidableEq, Repr

/-- What the core hands the host with an action (60_exceptions.md R292, column "what the core owes"). The model's own
(log entry 2): the spec's core "keeps no copy" of a result (10_state.md R22); this is the host's end of the port. -/
inductive Reply where
  /-- Nothing is owed: after reset and after a load. -/
  | nothing
  /-- A completed S-form command: it has no result (30_encoding.md R83). -/
  | done
  /-- A completed F-form command, with its result. -/
  | result (r : Result)
  /-- The command ended in a fault: no result (R287). -/
  | faulted
  /-- The command was refused because `FAULT = 1`: no result (R289). -/
  | refused
  /-- What `.read` returns: the buffer's content, `none` for `EMPTY`. -/
  | content (c : Option BufVal)
  /-- What `.status` returns. -/
  | status (v : Byte)
deriving DecidableEq, Repr

/-- What the host can do, only between commands (60_exceptions.md R292). -/
inductive HostAction where
  /-- `.reset` (70_reset_and_hazards.md R320). -/
  | reset
  /-- `.load BUF, v`; the value's constructor names the buffer. -/
  | load (v : BufVal)
  /-- `.read BUF`. -/
  | read (b : BufName)
  /-- `.status`. -/
  | status
  /-- Issue a command. -/
  | issue (c : Command)
deriving DecidableEq, Repr

/-- Why a step stops the machine. The spec's own three faults are no stop: fault entry is a next state (R287). -/
inductive Fault where
  /-- The host loads a value outside the buffer's type: an array with the wrong number of elements, or larger than its
  buffer's bound. Raised by `.load` alone. The spec says the host never does it (decision D29) and gives it no effect.
  Safe: the model stops (log entry 7). -/
  | loadOutsideType
deriving DecidableEq, Repr

/-- Why a step has no meaning. -/
inductive Refusal where
  /-- The instruction has no meaning yet. Raised by an arm of `exec` only; no arm of this model raises it. Safe. -/
  | notModelled (mnemonic : String)
deriving DecidableEq, Repr

/-- The whole state. `status` and `mem` are the spec's (10_state.md R20); `inbox` and `reply` are the model's port to the
host (log entries 1 and 2). -/
structure State where
  /-- `STATUS` (R21): bit 0 `FAULT`, bits 2:1 `CAUSE`, bits 7:3 reserved. -/
  status : Byte
  /-- The six stage buffers (R24). -/
  mem : Memory
  /-- The host's actions not taken yet, the next one first. -/
  inbox : List HostAction
  /-- What the last action handed the host. -/
  reply : Reply
deriving DecidableEq, Repr

/-- The machine right after reset and at power-on (R34, 70_reset_and_hazards.md R320, R321): `STATUS = 0x00`, every buffer
`EMPTY`. DESIGN CHOICE for the model's own port: no action waiting (log entry 1), nothing handed (log entry 2). -/
def State.reset : State :=
  { status := 0x00, mem := Memory.empty, inbox := [], reply := .nothing }

end Sys2Proof.Machine
end

