-- ==== Sys2Proof/Machine/Flags.lean ====
section
/-! DEFINITION. The status register's fields (10_state.md R21): `FAULT` and `CAUSE` are the only flags the core has (R33), and
no command computes any other. -/

namespace Sys2Proof.Machine

/-- The cause codes of `STATUS.CAUSE` (R21, 60_exceptions.md R280); 0 is `NONE`. -/
def Cause.code : Cause → Byte
  | .precond => 1
  | .overflow => 2
  | .trunc => 3

/-- The value of `STATUS` after fault entry with a cause (R21, R287): `FAULT = 1`, `CAUSE = c`, bits 7:3 zero. -/
def faultStatus (c : Cause) : Byte := (c.code <<< 1) ||| 0x01

/-- `STATUS.FAULT`: bit 0 (R21). -/
def State.faulted (s : State) : Bool := s.status.getLsbD 0

/-- `STATUS.CAUSE`: bits 2:1 (R21). -/
def State.causeCode (s : State) : Byte := (s.status >>> 1) &&& 0x03

/-- What the host reads as `STATUS`: "bits 7:3 reserved, reads as 0" (R21). -/
def State.readStatus (s : State) : Byte := s.status &&& 0x07

/-- The level the core raises toward the host, `fault = STATUS.FAULT` (60_exceptions.md R293). -/
def State.faultSignal (s : State) : Bool := s.faulted

/-- The legal values of the register: `0x00`, `0x03`, `0x05`, `0x07` (R21). -/
abbrev legalStatus (v : Byte) : Prop := v = 0x00 ∨ v = 0x03 ∨ v = 0x05 ∨ v = 0x07

end Sys2Proof.Machine
end

