-- ==== Sys2Proof/Machine/Operands.lean ====
section
/-! DEFINITION. The helper functions of 00_scope.md R11 on ℤ and ℚ, and the operand requirements the commands share
(40_bitfield.md R117). All arithmetic is exact: no machine shift anywhere (R118, 70_reset_and_hazards.md R327). -/

namespace Sys2Proof.Machine

/-- `clamp(x, lo, hi)` (R11). -/
def clamp (x lo hi : ℚ) : ℚ := if x < lo then lo else if hi < x then hi else x

/-- `floor(x)`: the greatest integer not above `x` (R11). -/
def floorQ (x : ℚ) : Int := x.floor

/-- `trunc(x)`: rounding toward zero (R11, decision D5). -/
def truncQ (x : ℚ) : Int := if 0 ≤ x then floorQ x else -floorQ (-x)

/-- `rnd(x)`: nearest integer, ties away from zero (R11, 41_quantizer.md R144, decision D3). -/
def rnd (x : ℚ) : Int := if 0 ≤ x then floorQ (x + 1 / 2) else -floorQ (-x + 1 / 2)

/-- `mask(w) = 2^w - 1` (R11). -/
def mask (w : Nat) : Nat := 2 ^ w - 1

/-- `sext_N(v)` (R11), for an `N`-bit unsigned `v`, `N ≥ 1`. -/
def sext (n : Nat) (v : Nat) : Int := if v < 2 ^ (n - 1) then (v : Int) else (v : Int) - 2 ^ n

/-- `zext_N(v) = v` (R11). -/
def zext (_n : Nat) (v : Nat) : Nat := v

/-- The ASCII byte of a decimal digit. -/
def digitByte (d : Nat) : Byte := BitVec.ofNat 8 (0x30 + d)

/-- The digits of `n` in front of those already written, least significant taken first; `fuel` bounds how many. -/
def decLoop : Nat → Nat → List Byte → List Byte
  | 0, _, acc => acc
  | fuel + 1, n, acc =>
    if n < 10 then digitByte n :: acc else decLoop fuel (n / 10) (digitByte (n % 10) :: acc)

/-- `dec(n)`: the ASCII decimal digits of `n`, most significant first, no sign, no leading zero; `dec(0) = "0"` (R11). -/
def dec (n : Nat) : List Byte := decLoop (n + 1) n []

/-- `nd(n)`: the number of digits of `dec(n)` (30_encoding.md R96). -/
def numDigits (n : Nat) : Nat := (dec n).length

/-- `require P`: PreconditionViolation when `P` is false (00_scope.md R12). -/
def require (p : Prop) [Decidable p] : Except Cause Unit := if p then .ok () else .error .precond

/-- The requirement of FITSU and FITSS (R117): `width ≤ 64`. -/
def requireWidth (width : Nat) : Except Cause Unit := require (width ≤ Config.word)

/-- The requirement of GETU, GETS, SETU and SETS (R117, decision D7): `width ≤ 64 and width + lsb ≤ 64`. -/
def requireField (width lsb : Nat) : Except Cause Unit :=
  require (width ≤ Config.word ∧ width + lsb ≤ Config.word)

end Sys2Proof.Machine
end

