-- ==== Sys2Proof/Machine/Ops.lean ====
section
/-! DEFINITION. The named operations over the buffers and the state: array access and traversal (20_memory.md R50, R51, R62),
bytes of a word (R53), the type of each buffer (10_state.md R24 to R30), fault entry (60_exceptions.md R287), refusal (R289),
and the two ways a command ends (70_reset_and_hazards.md R330). -/

namespace Sys2Proof.Machine

/-- The array is a total map from `{(col,row) : 0 ≤ col < w, 0 ≤ row < h}` (10_state.md R24): one element per place. -/
abbrev Arr.Sized {α : Type} (A : Arr α) : Prop := A.elems.length = A.w * A.h

/-- The element at `(col,row)`: index `row · w + col` (20_memory.md R51). Outside a sized array's places the default is
read; no command does that on a sized array (log entry 6). -/
def Arr.get {α : Type} [Inhabited α] (A : Arr α) (col row : Nat) : α := A.elems.getD (row * A.w + col) default

/-- The array whose element at `(col,row)` is `f col row`, laid out row-major (R51). -/
def Arr.tabulate {α : Type} (w h : Nat) (f : Nat → Nat → α) : Arr α :=
  { w := w, h := h, elems := (List.range (w * h)).map fun k => f (k % w) (k / w) }

/-- One element to one element at the same `(col,row)` (20_memory.md R55), for an element computation that cannot fault. -/
def Arr.map {α β : Type} (f : α → β) (A : Arr α) : Arr β := { w := A.w, h := A.h, elems := A.elems.map f }

/-- The traversal of elements whose computation may fault: the first fault met ends it (60_exceptions.md R286). -/
def traverse {α β : Type} (f : α → Except Cause β) : List α → Except Cause (List β)
  | [] => .ok []
  | x :: xs =>
    match f x with
    | .error c => .error c
    | .ok y =>
      match traverse f xs with
      | .error c => .error c
      | .ok ys => .ok (y :: ys)

/-- One element to one element at the same `(col,row)`, for an element computation that may fault. -/
def Arr.mapE {α β : Type} (f : α → Except Cause β) (A : Arr α) : Except Cause (Arr β) :=
  match traverse f A.elems with
  | .error c => .error c
  | .ok ys => .ok { w := A.w, h := A.h, elems := ys }

/-- The `n` bytes of `v`, most significant first (20_memory.md R53). -/
def beBytes (n v : Nat) : List Byte := (List.range n).map fun i => BitVec.ofNat 8 (v / 256 ^ (n - 1 - i))

/-- The unsigned integer whose bytes are `bs`, the first most significant (R53). -/
def beNat (bs : List Byte) : Nat := bs.foldl (fun acc b => acc * 256 + b.toNat) 0

/-- `MemRead(pos, n)` (00_scope.md R12, 20_memory.md R53): the `n` bytes at `pos` as one integer, most significant first. -/
def memRead (s : List Byte) (pos n : Nat) : Nat := beNat ((s.drop pos).take n)

/-- `MemWrite(pos, n, v)` (R12, R53): store `v` as `n` bytes at `pos`, most significant first. -/
def memWrite (s : List Byte) (pos n v : Nat) : List Byte := s.take pos ++ beBytes n v ++ s.drop (pos + n)

/-- A pixel-sized array's type (10_state.md R24): sized, each dimension at most `DIM_MAX`. -/
abbrev pixelSized {α : Type} (dimMax : Nat) (A : Arr α) : Prop := A.Sized ∧ A.w ≤ dimMax ∧ A.h ≤ dimMax

/-- A block-sized array's type (R24): sized, each dimension at most `DIM_MAX / 2`. -/
abbrev blockSized {α : Type} (dimMax : Nat) (A : Arr α) : Prop := A.Sized ∧ A.w ≤ dimMax / 2 ∧ A.h ≤ dimMax / 2

/-- `v` is a value of its buffer's type (R24 to R30). -/
def BufVal.ok (dimMax : Nat) : BufVal → Bool
  | .pix v => decide (pixelSized dimMax v.px)
  | .cv v => decide (pixelSized dimMax v)
  | .blk v => decide (blockSized dimMax v)
  | .qblk v => decide (blockSized dimMax v)
  | .cwa v => decide (blockSized dimMax v)
  | .strm _ => true

/-- What a buffer holds (60_exceptions.md R292, `.read`); `none` is `EMPTY`. -/
def Memory.read (m : Memory) : BufName → Option BufVal
  | .pix => m.pix.map .pix
  | .cv => m.cv.map .cv
  | .blk => m.blk.map .blk
  | .qblk => m.qblk.map .qblk
  | .cwa => m.cwa.map .cwa
  | .strm => m.strm.map .strm

/-- `BUF <- v`, replacing what it held (R292, `.load`). -/
def Memory.load (m : Memory) : BufVal → Memory
  | .pix v => { m with pix := some v }
  | .cv v => { m with cv := some v }
  | .blk v => { m with blk := some v }
  | .qblk v => { m with qblk := some v }
  | .cwa v => { m with cwa := some v }
  | .strm v => { m with strm := some v }

/-- The buffer a value belongs to. -/
def BufVal.name : BufVal → BufName
  | .pix _ => .pix
  | .cv _ => .cv
  | .blk _ => .blk
  | .qblk _ => .qblk
  | .cwa _ => .cwa
  | .strm _ => .strm

/-- Every buffer is `EMPTY` or holds a value of its type, for a given `DIM_MAX`: the canonical form of memory. -/
def Memory.wfFor (dimMax : Nat) (m : Memory) : Bool :=
  [BufName.pix, .cv, .blk, .qblk, .cwa, .strm].all fun b => (m.read b).all fun v => v.ok dimMax

/-- Every buffer is `EMPTY` or holds a value of its type (10_state.md R24). -/
def Memory.wf (m : Memory) : Bool := m.wfFor Config.dimMax

/-- The input buffer of an S-form command (10_state.md R31, 60_exceptions.md R286 (2), decision D17): PreconditionViolation
when it is `EMPTY`, then when a dimension is zero. -/
def inputArr {α : Type} (buf : Option (Arr α)) : Except Cause (Arr α) :=
  match buf with
  | none => .error .precond
  | some A => if 1 ≤ A.w ∧ 1 ≤ A.h then .ok A else .error .precond

/-- Taking a fault (60_exceptions.md R287): `STATUS` records it, all six buffers become `EMPTY`, no result is returned;
nothing is saved and control goes nowhere. A next state of the machine. -/
def State.takeFault (c : Cause) (s : State) : State :=
  { s with status := faultStatus c, mem := Memory.empty, reply := .faulted }

/-- A command issued while `FAULT = 1` (R289): no state changes, no result, nothing raised. -/
def State.refuse (s : State) : State := { s with reply := .refused }

/-- Successful completion of an F-form command: its result goes to the host, nothing else changes (10_state.md R22). -/
def State.complete (r : Result) (s : State) : State := { s with reply := .result r }

/-- Successful completion of an S-form command: the buffers as it leaves them, no result (30_encoding.md R83). -/
def State.finish (m : Memory) (s : State) : State := { s with mem := m, reply := .done }

/-- An F-form command (00_scope.md R16): refused while `FAULT = 1`, else its result or its fault. One atomic step
(70_reset_and_hazards.md R330). -/
def runF (r : Except Cause Result) (s : State) : Host.Outcome State Fault Refusal :=
  if s.faulted then .next s.refuse
  else
    match r with
    | .ok v => .next (s.complete v)
    | .error c => .next (s.takeFault c)

/-- An S-form command (R16), `stage` being what it does to the buffers: refused while `FAULT = 1`, else the buffers after
it, or its fault with every buffer emptied, so that nothing of a half-done traversal remains (R288). -/
def runS (stage : Memory → Except Cause Memory) (s : State) : Host.Outcome State Fault Refusal :=
  if s.faulted then .next s.refuse
  else
    match stage s.mem with
    | .ok m => .next (s.finish m)
    | .error c => .next (s.takeFault c)

/-- A reserved operation code (30_encoding.md R82): PreconditionViolation, refused while `FAULT = 1` (R289). -/
def issueReserved (s : State) : Host.Outcome State Fault Refusal :=
  if s.faulted then .next s.refuse else .next (s.takeFault .precond)

/-- The reset action (70_reset_and_hazards.md R320, R321): the reset state; the host's own list of further actions is
not the core's to clear (log entry 1). -/
def State.resetCore (s : State) : State := { State.reset with inbox := s.inbox }

/-- `.load` (R292): ignored while `FAULT = 1` (R289), else the buffer takes the value. The model stops at a value outside
the buffer's type, which the host never hands over (decision D29, log entry 7). -/
def hostLoad (v : BufVal) (s : State) : Host.Outcome State Fault Refusal :=
  if s.faulted then .next { s with reply := .nothing }
  else if v.ok Config.dimMax = true then .next { s with mem := s.mem.load v, reply := .nothing }
  else .fault .loadOutsideType

/-- `.read` (R292): the buffer's exact content; nothing changes (20_memory.md R56). -/
def hostRead (b : BufName) (s : State) : State := { s with reply := .content (s.mem.read b) }

/-- `.status` (R292): the exact value of `STATUS`; nothing changes. -/
def hostStatus (s : State) : State := { s with reply := .status s.readStatus }

/-- The next host action is taken off the list, before it acts. -/
def State.pop (s : State) : State := { s with inbox := s.inbox.drop 1 }

/-- Put a command where the step takes its next one: at the head of the host's list. -/
def State.push (c : Command) (s : State) : State := { s with inbox := .issue c :: s.inbox }

end Sys2Proof.Machine
end

