-- ==== Sys2Proof/Machine/Block.lean ====
section
/-! DEFINITION. Unit 4, the block transform (43_block.md): BFWD, BINV on one quad, SBFWD, SBINV on a buffer. The four pixels
of a quad stand in the order top-left, top-right, bottom-left, bottom-right (R187). -/

namespace Sys2Proof.Machine

/-- BFWD (R180): total, no clamp (90_conflicts.md C2). -/
def blockForward (p1 p2 p3 p4 : CvPixel) : BlkRec :=
  { a := (p1.y + p2.y + p3.y + p4.y) / 4
    b := (p3.y + p4.y - p1.y - p2.y) / 4
    c := (p2.y + p4.y - p1.y - p3.y) / 4
    d := (p1.y + p4.y - p2.y - p3.y) / 4
    avgpb := (p1.pb + p2.pb + p3.pb + p4.pb) / 4
    avgpr := (p1.pr + p2.pr + p3.pr + p4.pr) / 4 }

/-- `P1` of BINV (R181). -/
def blockInverse1 (x : BlkRec) : CvPixel := { y := x.a - x.b - x.c + x.d, pb := x.avgpb, pr := x.avgpr }

/-- `P2` of BINV (R181). -/
def blockInverse2 (x : BlkRec) : CvPixel := { y := x.a - x.b + x.c - x.d, pb := x.avgpb, pr := x.avgpr }

/-- `P3` of BINV (R181). -/
def blockInverse3 (x : BlkRec) : CvPixel := { y := x.a + x.b - x.c - x.d, pb := x.avgpb, pr := x.avgpr }

/-- `P4` of BINV (R181). -/
def blockInverse4 (x : BlkRec) : CvPixel := { y := x.a + x.b + x.c + x.d, pb := x.avgpb, pr := x.avgpr }

/-- The record of block `(i,j)`: BFWD of the quad whose top-left pixel is `(2i, 2j)` (R184, R187). -/
def quadForward (V : Arr CvPixel) (i j : Nat) : BlkRec :=
  blockForward (V.get (2 * i) (2 * j)) (V.get (2 * i + 1) (2 * j))
    (V.get (2 * i) (2 * j + 1)) (V.get (2 * i + 1) (2 * j + 1))

/-- The pixel at `(col,row)` of the array SBINV writes: its block is `(col/2, row/2)`, its place in the quad the parities
of `col` and `row` (R185, R187). -/
def quadInverse (B : Arr BlkRec) (col row : Nat) : CvPixel :=
  if row % 2 = 0 then
    if col % 2 = 0 then blockInverse1 (B.get (col / 2) (row / 2)) else blockInverse2 (B.get (col / 2) (row / 2))
  else
    if col % 2 = 0 then blockInverse3 (B.get (col / 2) (row / 2)) else blockInverse4 (B.get (col / 2) (row / 2))

/-- SBFWD (R184): `CV` to `BLK`; an odd dimension raises PreconditionViolation (R186). -/
def blockForwardStage (m : Memory) : Except Cause Memory := do
  let V ← inputArr m.cv
  require (V.w % 2 = 0 ∧ V.h % 2 = 0)
  return { m with blk := some (Arr.tabulate (V.w / 2) (V.h / 2) (quadForward V)), cv := none }

/-- SBINV (R185): `BLK` to `CV`. -/
def blockInverseStage (m : Memory) : Except Cause Memory := do
  let B ← inputArr m.blk
  return { m with cv := some (Arr.tabulate (2 * B.w) (2 * B.h) (quadInverse B)), blk := none }

/-- The meaning of BFWD. -/
def execBfwd (p1 p2 p3 p4 : CvPixel) (s : State) : Host.Outcome State Fault Refusal :=
  runF (.ok (.blk (blockForward p1 p2 p3 p4))) s

/-- The meaning of BINV. -/
def execBinv (x : BlkRec) (s : State) : Host.Outcome State Fault Refusal :=
  runF (.ok (.quad (blockInverse1 x) (blockInverse2 x) (blockInverse3 x) (blockInverse4 x))) s

/-- The meaning of SBFWD. -/
def execSbfwd (s : State) : Host.Outcome State Fault Refusal := runS blockForwardStage s

/-- The meaning of SBINV. -/
def execSbinv (s : State) : Host.Outcome State Fault Refusal := runS blockInverseStage s

end Sys2Proof.Machine
end

