-- ==== Sys2Proof/Machine/BitField.lean ====
section
/-! DEFINITION. Unit 1, the bit-field codec (40_bitfield.md): the predicates and functions on ℤ (R110) and the meanings of
FITSU, FITSS, GETU, GETS, SETU, SETS. Widths 0 and 64 need no machine shift (R118). -/

namespace Sys2Proof.Machine

/-- `fits_unsigned(v, width)` (R111), on ℤ. -/
def fitsUnsigned (v : Int) (width : Nat) : Bool := decide (0 ≤ v ∧ v < 2 ^ width)

/-- `fits_signed(v, width)` (R112), on ℤ; at width 0 the named parameter `FITS_S_W0`. -/
def fitsSigned (v : Int) (width : Nat) : Bool :=
  if width = 0 then Config.fitsSignedWidth0
  else decide (-2 ^ (width - 1) ≤ v ∧ v ≤ 2 ^ (width - 1) - 1)

/-- `get_unsigned(word, width, lsb)` (R113). -/
def getUnsigned (word width lsb : Nat) : Nat :=
  if width = 0 then 0 else word / 2 ^ lsb % 2 ^ width

/-- `get_signed(word, width, lsb)` (R114). -/
def getSigned (word width lsb : Nat) : Int :=
  if width = 0 then 0 else sext width (getUnsigned word width lsb)

/-- `insert(word, width, lsb, f)` (R115), `f` in `[0, 2^width - 1]`. -/
def insertField (word width lsb f : Nat) : Nat :=
  if width = 0 then word
  else word - getUnsigned word width lsb * 2 ^ lsb + f * 2 ^ lsb

/-- `set_unsigned(word, width, lsb, value)` (R115), for an integer of any size (R110). -/
def setUnsigned (word width lsb : Nat) (value : Int) : Except Cause Nat :=
  if fitsUnsigned value width then .ok (insertField word width lsb value.toNat) else .error .overflow

/-- `set_signed(word, width, lsb, value)` (R116): the low `width` bits of `value`, `value mod 2^width`. -/
def setSigned (word width lsb : Nat) (value : Int) : Except Cause Nat :=
  if fitsSigned value width then .ok (insertField word width lsb (value % 2 ^ width).toNat) else .error .overflow

/-- FITSU (R111, R117). -/
def fitsu (v width : Nat) : Except Cause Result := do
  requireWidth width
  return .bool (fitsUnsigned v width)

/-- FITSS (R112, R117). -/
def fitss (v : Int) (width : Nat) : Except Cause Result := do
  requireWidth width
  return .bool (fitsSigned v width)

/-- GETU (R113, R117). -/
def getu (word width lsb : Nat) : Except Cause Result := do
  requireField width lsb
  return .u64 (getUnsigned word width lsb)

/-- GETS (R114, R117). -/
def gets (word width lsb : Nat) : Except Cause Result := do
  requireField width lsb
  return .s64 (getSigned word width lsb)

/-- SETU (R115, R117): the requirement first, then the fit test. -/
def setu (word width lsb value : Nat) : Except Cause Result := do
  requireField width lsb
  let w ← setUnsigned word width lsb value
  return .u64 w

/-- SETS (R116, R117): the requirement first, then the fit test. -/
def sets (word width lsb : Nat) (value : Int) : Except Cause Result := do
  requireField width lsb
  let w ← setSigned word width lsb value
  return .u64 w

/-- The meaning of FITSU. -/
def execFitsu (v width : Nat) (s : State) : Host.Outcome State Fault Refusal := runF (fitsu v width) s

/-- The meaning of FITSS. -/
def execFitss (v : Int) (width : Nat) (s : State) : Host.Outcome State Fault Refusal := runF (fitss v width) s

/-- The meaning of GETU. -/
def execGetu (word width lsb : Nat) (s : State) : Host.Outcome State Fault Refusal := runF (getu word width lsb) s

/-- The meaning of GETS. -/
def execGets (word width lsb : Nat) (s : State) : Host.Outcome State Fault Refusal := runF (gets word width lsb) s

/-- The meaning of SETU. -/
def execSetu (word width lsb value : Nat) (s : State) : Host.Outcome State Fault Refusal :=
  runF (setu word width lsb value) s

/-- The meaning of SETS. -/
def execSets (word width lsb : Nat) (value : Int) (s : State) : Host.Outcome State Fault Refusal :=
  runF (sets word width lsb value) s

end Sys2Proof.Machine
end

