-- ==== Sys2Proof/Machine/Codeword.lean ====
section
/-! DEFINITION. Unit 5, the codeword assembler (44_codeword.md): CWASM, CWDIS on one record, SCWASM, SCWDIS on a buffer, over
the bit-field functions of unit 1 at the widths and positions of 30_encoding.md R85. -/

namespace Sys2Proof.Machine

/-- CWASM (R200): six insertions onto a zero word, in this field order; the first field that does not fit raises
OverflowError. -/
def assemble (x : QRec) : Except Cause Nat := do
  let w1 ← setUnsigned 0 Config.coefWidth Config.aLsb x.qa
  let w2 ← setSigned w1 Config.coefWidth Config.bLsb x.qb
  let w3 ← setSigned w2 Config.coefWidth Config.cLsb x.qc
  let w4 ← setSigned w3 Config.coefWidth Config.dLsb x.qd
  let w5 ← setUnsigned w4 Config.chromaWidth Config.pbLsb x.ipb
  setUnsigned w5 Config.chromaWidth Config.prLsb x.ipr

/-- CWDIS (R201): total; bits 63:32 of the word are not read. -/
def disassemble (word : Nat) : QRec :=
  { qa := (getUnsigned word Config.coefWidth Config.aLsb : Int)
    qb := getSigned word Config.coefWidth Config.bLsb
    qc := getSigned word Config.coefWidth Config.cLsb
    qd := getSigned word Config.coefWidth Config.dLsb
    ipb := (getUnsigned word Config.chromaWidth Config.pbLsb : Int)
    ipr := (getUnsigned word Config.chromaWidth Config.prLsb : Int) }

/-- One element of SCWASM: bits 31:0 of CWASM's word (R204, 10_state.md R29). -/
def assembleWord (x : QRec) : Except Cause Codeword := (assemble x).map (BitVec.ofNat 32)

/-- SCWASM (R204): `QBLK` to `CWA`. -/
def assembleStage (m : Memory) : Except Cause Memory := do
  let Q ← inputArr m.qblk
  let C ← Q.mapE assembleWord
  return { m with cwa := some C, qblk := none }

/-- SCWDIS (R205): `CWA` to `QBLK`. -/
def disassembleStage (m : Memory) : Except Cause Memory := do
  let C ← inputArr m.cwa
  return { m with qblk := some (C.map fun x => disassemble (zext 32 x.toNat)), cwa := none }

/-- The meaning of CWASM. -/
def execCwasm (x : QRec) (s : State) : Host.Outcome State Fault Refusal := runF ((assemble x).map .u64) s

/-- The meaning of CWDIS. -/
def execCwdis (word : Nat) (s : State) : Host.Outcome State Fault Refusal := runF (.ok (.qblk (disassemble word))) s

/-- The meaning of SCWASM. -/
def execScwasm (s : State) : Host.Outcome State Fault Refusal := runS assembleStage s

/-- The meaning of SCWDIS. -/
def execScwdis (s : State) : Host.Outcome State Fault Refusal := runS disassembleStage s

end Sys2Proof.Machine
end

