-- ==== Sys2Proof/Machine/Color.lean ====
section
/-! DEFINITION. Unit 3, the colour transform (42_color.md): CFWD, CINV on one pixel, SCFWD, SCINV on a buffer. Every decimal
literal is the exact rational it spells (00_scope.md R10). -/

namespace Sys2Proof.Machine

/-- CFWD's formulas on channels already divided by the denominator (R160). -/
def colorForwardQ (R G B : ℚ) : CvPixel :=
  { y := 299 / 1000 * R + 587 / 1000 * G + 114 / 1000 * B
    pb := -168736 / 1000000 * R - 331264 / 1000000 * G + 5 / 10 * B
    pr := 5 / 10 * R - 418688 / 1000000 * G - 81312 / 1000000 * B }

/-- CFWD (R160, R166): `denom = 0` or a channel above `denom` raises PreconditionViolation. -/
def colorForward (r g b denom : Byte) : Except Cause CvPixel := do
  require (1 ≤ denom.toNat ∧ r.toNat ≤ denom.toNat ∧ g.toNat ≤ denom.toNat ∧ b.toNat ≤ denom.toNat)
  return colorForwardQ ((r.toNat : ℚ) / denom.toNat) ((g.toNat : ℚ) / denom.toNat) ((b.toNat : ℚ) / denom.toNat)

/-- One output channel: "clamped to `[0,1]`, then scaled by a fixed output denominator of 255 and truncated" (R161). -/
def channelOut (x : ℚ) : Byte := BitVec.ofNat 8 (truncQ (Config.outDenom.toNat * clamp x 0 1)).toNat

/-- CINV (R161): total. -/
def colorInverse (p : CvPixel) : Rgb :=
  { r := channelOut (p.y + 1402 / 1000 * p.pr)
    g := channelOut (p.y - 344136 / 1000000 * p.pb - 714136 / 1000000 * p.pr)
    b := channelOut (p.y + 1772 / 1000 * p.pb) }

/-- The input of SCFWD and COMPRESS: `PIX`, not `EMPTY`, no zero dimension (R162, 60_exceptions.md R286 (2)). -/
def inputPix (buf : Option PixelMap) : Except Cause PixelMap :=
  match buf with
  | none => .error .precond
  | some P => if 1 ≤ P.px.w ∧ 1 ≤ P.px.h then .ok P else .error .precond

/-- SCFWD (R162): `PIX` to `CV`. It does not test evenness. -/
def colorForwardStage (m : Memory) : Except Cause Memory := do
  let P ← inputPix m.pix
  require (1 ≤ P.denom.toNat)
  let V ← P.px.mapE fun x => colorForward x.r x.g x.b P.denom
  return { m with cv := some V, pix := none }

/-- SCINV (R164): `CV` to `PIX`, the dimensions copied, the denominator always 255. -/
def colorInverseStage (m : Memory) : Except Cause Memory := do
  let V ← inputArr m.cv
  return { m with pix := some { denom := Config.outDenom, px := V.map colorInverse }, cv := none }

/-- The meaning of CFWD. -/
def execCfwd (r g b denom : Byte) (s : State) : Host.Outcome State Fault Refusal :=
  runF ((colorForward r g b denom).map .cv) s

/-- The meaning of CINV. -/
def execCinv (p : CvPixel) (s : State) : Host.Outcome State Fault Refusal :=
  runF (.ok (.rgb (colorInverse p))) s

/-- The meaning of SCFWD. -/
def execScfwd (s : State) : Host.Outcome State Fault Refusal := runS colorForwardStage s

/-- The meaning of SCINV. -/
def execScinv (s : State) : Host.Outcome State Fault Refusal := runS colorInverseStage s

end Sys2Proof.Machine
end

