-- ==== Sys2Proof/Machine/Quantizer.lean ====
section
/-! DEFINITION. Unit 2, the quantizer (41_quantizer.md): QFWD, QINV on one record, SQFWD, SQINV on a buffer. The chroma table
is an argument of the functions; the meanings supply the open parameter `Config.chroma` (R146). -/

namespace Sys2Proof.Machine

/-- The forward code of a difference coefficient: "clamp-then-scale", then round (R140, R145). -/
def diffCode (x : ℚ) : Int := rnd (Config.bcdScale * clamp x (-Config.bcdLim) Config.bcdLim)

/-- The inverse of a difference code: "unscale-then-reclamp" (R141, R145). -/
def diffValue (q : Int) : ℚ := clamp ((q : ℚ) / Config.bcdScale) (-Config.bcdLim) Config.bcdLim

/-- QFWD (R140): total; it does not check that `qa` fits six bits. -/
def quantForward (ch : Chroma) (x : BlkRec) : QRec :=
  { qa := rnd (Config.aScale * x.a)
    qb := diffCode x.b
    qc := diffCode x.c
    qd := diffCode x.d
    ipb := ((ch.indexOf x.avgpb).val : Int)
    ipr := ((ch.indexOf x.avgpr).val : Int) }

/-- `0 ≤ i ≤ 15`, where `value_of` has a value (R141). -/
abbrev isIndex (i : Int) : Prop := 0 ≤ i ∧ i ≤ 15

/-- `value_of(i)` for an index (R146). -/
def chromaValue (ch : Chroma) (i : Int) : ℚ := ch.valueOf (Fin.ofNat 16 i.toNat)

/-- QINV's formulas (R141) on a record whose indices are in range. -/
def quantInverseValue (ch : Chroma) (x : QRec) : BlkRec :=
  { a := (x.qa : ℚ) / Config.aScale
    b := diffValue x.qb
    c := diffValue x.qc
    d := diffValue x.qd
    avgpb := chromaValue ch x.ipb
    avgpr := chromaValue ch x.ipr }

/-- QINV (R141): PreconditionViolation when an index is outside `[0,15]`. -/
def quantInverse (ch : Chroma) (x : QRec) : Except Cause BlkRec :=
  if isIndex x.ipb ∧ isIndex x.ipr then .ok (quantInverseValue ch x) else .error .precond

/-- SQFWD (R142): `BLK` to `QBLK`. -/
def quantizeForward (ch : Chroma) (m : Memory) : Except Cause Memory := do
  let B ← inputArr m.blk
  return { m with qblk := some (B.map (quantForward ch)), blk := none }

/-- SQINV (R143): `QBLK` to `BLK`. -/
def quantizeInverse (ch : Chroma) (m : Memory) : Except Cause Memory := do
  let Q ← inputArr m.qblk
  let B ← Q.mapE (quantInverse ch)
  return { m with blk := some B, qblk := none }

/-- `CHROMA_TEST16` (R149): the spec's own instance of `CHROMA`, for examples and tests only; not the published table. -/
def chromaTest16 : Chroma :=
  { indexOf := fun x => Fin.ofNat 16 (if rnd (16 * x) + 8 < 0 then 0 else if 15 < rnd (16 * x) + 8 then 15
      else (rnd (16 * x) + 8).toNat)
    valueOf := fun i => ((i.val : ℚ) - 8) / 16 }

/-- The meaning of QFWD. -/
def execQfwd (x : BlkRec) (s : State) : Host.Outcome State Fault Refusal :=
  runF (.ok (.qblk (quantForward Config.chroma x))) s

/-- The meaning of QINV. -/
def execQinv (x : QRec) (s : State) : Host.Outcome State Fault Refusal :=
  runF ((quantInverse Config.chroma x).map .blk) s

/-- The meaning of SQFWD. -/
def execSqfwd (s : State) : Host.Outcome State Fault Refusal := runS (quantizeForward Config.chroma) s

/-- The meaning of SQINV. -/
def execSqinv (s : State) : Host.Outcome State Fault Refusal := runS (quantizeInverse Config.chroma) s

end Sys2Proof.Machine
end

