-- ==== Sys2Proof/Machine/Wire.lean ====
section
/-! DEFINITION. Unit 6, the wire-format codec (45_wire.md): WWRITE and WREAD over the stream grammar of 30_encoding.md R90 to
R96. A position in the stream is the list of bytes that remain. -/

namespace Sys2Proof.Machine

/-- The newline byte of the header (30_encoding.md R91). -/
def lf : Byte := 0x0A

/-- The space byte of the header (R91). -/
def sp : Byte := 0x20

/-- The header bytes written (R221): magic, newline, pixel width, space, pixel height, newline. -/
def header (pw ph : Nat) : List Byte := Config.magic ++ [lf] ++ dec pw ++ [sp] ++ dec ph ++ [lf]

/-- `hlen` (30_encoding.md R96): the length of the header. -/
def headerLength (pw ph : Nat) : Nat := 35 + numDigits pw + numDigits ph

/-- The body bytes written (R222): the codewords in row-major order, each as 4 bytes, most significant first. -/
def body (C : Arr Codeword) : List Byte := C.elems.flatMap fun x => beBytes Config.cwBytes x.toNat

/-- The stream of a codeword array (R220): its header carries the pixel dimensions, twice the array's. -/
def streamOf (C : Arr Codeword) : List Byte := header (2 * C.w) (2 * C.h) ++ body C

/-- WWRITE (R220): `CWA` to `STRM`. -/
def wireWrite (m : Memory) : Except Cause Memory := do
  let C ← inputArr m.cwa
  return { m with strm := some (streamOf C), cwa := none }

/-- `expect(e)` for each byte of a fixed run (R223): the stream ending is a truncation, a wrong byte a precondition
violation; answers what follows the run. -/
def expect : List Byte → List Byte → Except Cause (List Byte)
  | [], s => .ok s
  | _ :: _, [] => .error .trunc
  | e :: es, b :: s => if b = e then expect es s else .error .precond

/-- The loop of `number(term)` (R223), `v` being the value so far. -/
def numberLoop (dimMax : Nat) (term : Byte) : Nat → List Byte → Except Cause (Nat × List Byte)
  | _, [] => .error .trunc
  | v, b :: s =>
    if b = term then .ok (v, s)
    else if b.toNat < 0x30 ∨ 0x39 < b.toNat then .error .precond
    else if dimMax < 10 * v + (b.toNat - 0x30) then .error .precond
    else numberLoop dimMax term (10 * v + (b.toNat - 0x30)) s

/-- `number(term)` (R223, 30_encoding.md R94): a decimal number with no leading zero and at most `DIM_MAX`, and the
terminating byte; answers the number and what follows. -/
def number (dimMax : Nat) (term : Byte) : List Byte → Except Cause (Nat × List Byte)
  | [] => .error .trunc
  | b :: s =>
    if b.toNat < 0x31 ∨ 0x39 < b.toNat then .error .precond
    else if dimMax < b.toNat - 0x30 then .error .precond
    else numberLoop dimMax term (b.toNat - 0x30) s

/-- Parts 1 and 2 of WREAD (R223 to R225): the header front to back, then evenness; answers the codeword array's
dimensions and the body's bytes. -/
def readHeader (dimMax : Nat) (s : List Byte) : Except Cause (Nat × Nat × List Byte) := do
  let s1 ← expect (Config.magic ++ [lf]) s
  let (pw, s2) ← number dimMax sp s1
  let (ph, s3) ← number dimMax lf s2
  require (pw % 2 = 0 ∧ ph % 2 = 0)
  return (pw / 2, ph / 2, s3)

/-- The codeword at `(col,row)` of a `cw`-wide body (R223, 30_encoding.md R95). -/
def codewordAt (bs : List Byte) (cw col row : Nat) : Codeword :=
  BitVec.ofNat 32 (memRead bs (4 * (row * cw + col)) 4)

/-- The whole of WREAD's parse (R223): header, dimensions, then the body's length before any codeword; bytes after the
body are never read (R226). -/
def parseStream (dimMax : Nat) (s : List Byte) : Except Cause (Arr Codeword) := do
  let (cw, ch, bs) ← readHeader dimMax s
  if bs.length < 4 * cw * ch then .error .trunc
  else return Arr.tabulate cw ch (codewordAt bs cw)

/-- WREAD (R223): `STRM` to `CWA`. A stream of zero bytes is a truncated stream, an `EMPTY` buffer a precondition violation
(R224). -/
def wireRead (dimMax : Nat) (m : Memory) : Except Cause Memory :=
  match m.strm with
  | none => .error .precond
  | some s => (parseStream dimMax s).map fun C => { m with cwa := some C, strm := none }

/-- The meaning of WWRITE. -/
def execWwrite (s : State) : Host.Outcome State Fault Refusal := runS wireWrite s

/-- The meaning of WREAD. -/
def execWread (s : State) : Host.Outcome State Fault Refusal := runS (wireRead Config.dimMax) s

end Sys2Proof.Machine
end

