-- ==== Sys2Proof/Machine/Pipeline.lean ====
section
/-! DEFINITION. Unit 7, the sequencer (46_pipeline.md): COMPRESS and DECOMPRESS, each the fixed sequence of five stages. The
first stage that faults ends the command (R255). -/

namespace Sys2Proof.Machine

/-- COMPRESS (R250): the entry checks, then units 3, 4, 2, 5, 6. -/
def compress (ch : Chroma) (m : Memory) : Except Cause Memory := do
  let P ← inputPix m.pix
  require (P.px.w % 2 = 0 ∧ P.px.h % 2 = 0)
  let m1 ← colorForwardStage m
  let m2 ← blockForwardStage m1
  let m3 ← quantizeForward ch m2
  let m4 ← assembleStage m3
  wireWrite m4

/-- DECOMPRESS (R251): units 6, 5, 2, 4, 3 in the inverse direction. -/
def decompress (ch : Chroma) (dimMax : Nat) (m : Memory) : Except Cause Memory := do
  let m1 ← wireRead dimMax m
  let m2 ← disassembleStage m1
  let m3 ← quantizeInverse ch m2
  let m4 ← blockInverseStage m3
  colorInverseStage m4

/-- The meaning of COMPRESS. -/
def execCompress (s : State) : Host.Outcome State Fault Refusal := runS (compress Config.chroma) s

/-- The meaning of DECOMPRESS. -/
def execDecompress (s : State) : Host.Outcome State Fault Refusal := runS (decompress Config.chroma Config.dimMax) s

end Sys2Proof.Machine
end

