-- ==== Sys2Proof/Machine/Dispatch.lean ====
section
/-! DEFINITION. One arm per command of spec/opcode_table.json, each one direct call of its meaning. -/

namespace Sys2Proof.Machine

/-- The meaning of a command (30_encoding.md R81 names the rule of each). -/
def exec (i : Instr) (s : State) : Host.Outcome State Fault Refusal :=
  match i with
  | .fitsu v width => Sys2Proof.Machine.execFitsu v width s
  | .fitss v width => Sys2Proof.Machine.execFitss v width s
  | .getu word width lsb => Sys2Proof.Machine.execGetu word width lsb s
  | .gets word width lsb => Sys2Proof.Machine.execGets word width lsb s
  | .setu word width lsb value => Sys2Proof.Machine.execSetu word width lsb value s
  | .sets word width lsb value => Sys2Proof.Machine.execSets word width lsb value s
  | .qfwd record => Sys2Proof.Machine.execQfwd record s
  | .qinv record => Sys2Proof.Machine.execQinv record s
  | .sqfwd => Sys2Proof.Machine.execSqfwd s
  | .sqinv => Sys2Proof.Machine.execSqinv s
  | .cfwd r g b denom => Sys2Proof.Machine.execCfwd r g b denom s
  | .cinv p => Sys2Proof.Machine.execCinv p s
  | .scfwd => Sys2Proof.Machine.execScfwd s
  | .scinv => Sys2Proof.Machine.execScinv s
  | .bfwd p1 p2 p3 p4 => Sys2Proof.Machine.execBfwd p1 p2 p3 p4 s
  | .binv record => Sys2Proof.Machine.execBinv record s
  | .sbfwd => Sys2Proof.Machine.execSbfwd s
  | .sbinv => Sys2Proof.Machine.execSbinv s
  | .cwasm record => Sys2Proof.Machine.execCwasm record s
  | .cwdis word => Sys2Proof.Machine.execCwdis word s
  | .scwasm => Sys2Proof.Machine.execScwasm s
  | .scwdis => Sys2Proof.Machine.execScwdis s
  | .wwrite => Sys2Proof.Machine.execWwrite s
  | .wread => Sys2Proof.Machine.execWread s
  | .compress => Sys2Proof.Machine.execCompress s
  | .decompress => Sys2Proof.Machine.execDecompress s

end Sys2Proof.Machine
end

