-- ==== Sys2Proof/Machine/HostPort.lean ====
section
/-! DEFINITION. The host's actions on the core (60_exceptions.md R292) and the machine's step: the next action of the host's
list, taken whole (70_reset_and_hazards.md R330). There is no program counter: "the next command is whatever the host issues
next" (10_state.md R23). -/

namespace Sys2Proof.Machine

/-- Issuing a command (R292): the command's rule, or, for a reserved operation code, PreconditionViolation (30_encoding.md
R82). While `FAULT = 1` either is refused (R289). -/
def issue (c : Command) (s : State) : Host.Outcome State Fault Refusal :=
  match decode c with
  | .ok i => exec i s
  | .error _ => issueReserved s

/-- One host action, on a state from whose list it has been taken. -/
def perform (a : HostAction) (s : State) : Host.Outcome State Fault Refusal :=
  match a with
  | .reset => .next s.resetCore
  | .load v => hostLoad v s
  | .read b => .next (hostRead b s)
  | .status => .next (hostStatus s)
  | .issue c => issue c s

/-- One step: the next host action. With none waiting the core idles: it does nothing until the host acts (R292); there is
no time in the model (R329). DESIGN CHOICE (log entry 1). -/
def hostStep (s : State) : Host.Outcome State Fault Refusal :=
  match s.inbox with
  | [] => .next s
  | a :: _ => perform a s.pop

end Sys2Proof.Machine
end

