-- ==== Sys2Proof/Machine/Step.lean ====
section
/-! DEFINITION. The machine's step, and how the host places one opcode-table row's command where the step takes its next one. -/

namespace Sys2Proof.Machine

/-- One step of the machine: the next host action (60_exceptions.md R292, 70_reset_and_hazards.md R330). -/
def step (s : State) : Host.Outcome State Fault Refusal := hostStep s

/-- The state with the row's command, operands zero, at the head of the host's list: the very next step runs it. -/
def State.withFetchWord (s : State) (nbits w : Nat) : State := s.push (tableCommand nbits w)

end Sys2Proof.Machine
end

