-- ==== Sys2Proof/Machine/Asm.lean ====
section
/-! DEFINITION. The host side of the assembler syntax (30_encoding.md R97): statements in abstract form, the host's names for
results, and how a statement becomes a host action. The names "live in the host, not in the core" (10_state.md R22), so they
stand beside `State`, in `Session`. Parentheses only group operands, so an operand list is its scalars in order. -/

namespace Sys2Proof.Machine

/-- An operand without grouping: a number (exact, R97), the whole result tuple of a name, or its component `i`. -/
inductive Atom where
  | num (q : ℚ)
  | name (n : String)
  | comp (n : String) (i : Nat)
deriving DecidableEq, Repr

/-- A statement (R97). A command may bind its result to a name. -/
inductive Stmt where
  | command (bind : Option String) (op : Op) (args : List Atom)
  | load (v : BufVal)
  | read (b : BufName)
  | status
  | reset
deriving DecidableEq, Repr

/-- Why a text is no program of R97: the assembler refuses it and nothing is issued. -/
inductive AsmError where
  /-- An operand names a result that is not bound, or a component the tuple does not have. -/
  | unboundName
  /-- The operands are not of the operation's types or not as many (R83). -/
  | badOperands
  /-- "An S-form command takes no operand and binds no result." -/
  | bindsNothing
deriving DecidableEq, Repr

/-- The host: its core and its names, the newest binding first. -/
structure Session where
  core : State
  names : List (String × Result)
deriving DecidableEq, Repr

/-- A ComponentVideo pixel as its three scalars. -/
def CvPixel.scalars (p : CvPixel) : List ℚ := [p.y, p.pb, p.pr]

/-- The components of a result tuple, each as its scalars; a Boolean is no operand of any command (R83). -/
def Result.components : Result → Option (List (List ℚ))
  | .bool _ => none
  | .u64 v => some [[(v : ℚ)]]
  | .s64 v => some [[(v : ℚ)]]
  | .blk v => some [[v.a], [v.b], [v.c], [v.d], [v.avgpb], [v.avgpr]]
  | .qblk v => some [[(v.qa : ℚ)], [(v.qb : ℚ)], [(v.qc : ℚ)], [(v.qd : ℚ)], [(v.ipb : ℚ)], [(v.ipr : ℚ)]]
  | .cv v => some [[v.y], [v.pb], [v.pr]]
  | .rgb v => some [[(v.r.toNat : ℚ)], [(v.g.toNat : ℚ)], [(v.b.toNat : ℚ)]]
  | .quad p1 p2 p3 p4 => some [CvPixel.scalars p1, CvPixel.scalars p2, CvPixel.scalars p3, CvPixel.scalars p4]

/-- The newest result bound to a name. -/
def lookupName (names : List (String × Result)) (n : String) : Option Result :=
  (names.find? fun e => e.1 == n).map (·.2)

/-- The scalars an operand passes. -/
def Atom.scalars (names : List (String × Result)) : Atom → Option (List ℚ)
  | .num q => some [q]
  | .name n => (lookupName names n).bind fun r => (Result.components r).map List.flatten
  | .comp n i => (lookupName names n).bind fun r => (Result.components r).bind fun cs => cs[i]?

/-- The scalars of a whole operand list. -/
def atomsScalars (names : List (String × Result)) : List Atom → Option (List ℚ)
  | [] => some []
  | a :: rest => (Atom.scalars names a).bind fun xs => (atomsScalars names rest).map (xs ++ ·)

/-- An exact number that is an integer. -/
def asInt (q : ℚ) : Option Int := if q.den = 1 then some q.num else none

/-- An exact number that is a natural below `bound`. -/
def asNatBelow (bound : Nat) (q : ℚ) : Option Nat :=
  if q.den = 1 ∧ 0 ≤ q.num ∧ q.num < bound then some q.num.toNat else none

/-- An exact number that is an `s64` (00_scope.md R10). -/
def asS64Value (q : ℚ) : Option Int := if q.den = 1 ∧ inS64 q.num then some q.num else none

/-- An exact number that is a `u8`. -/
def asByte (q : ℚ) : Option Byte := (asNatBelow 256 q).map (BitVec.ofNat 8)

/-- A quantized record from six integers. -/
def asQRec (a b c d e f : ℚ) : Option QRec := do
  let qa ← asInt a
  let qb ← asInt b
  let qc ← asInt c
  let qd ← asInt d
  let ipb ← asInt e
  let ipr ← asInt f
  return ⟨qa, qb, qc, qd, ipb, ipr⟩

/-- The command of an operation and its operand scalars, in the order of R83's table; none where they are not of the
operand types. -/
def assembleCommand (op : Op) (xs : List ℚ) : Option Instr :=
  match op, xs with
  | .fitsu, [v, w] => do return .fitsu (← asNatBelow u64Size v) (← asNatBelow u7Size w)
  | .fitss, [v, w] => do return .fitss (← asS64Value v) (← asNatBelow u7Size w)
  | .getu, [x, w, l] => do return .getu (← asNatBelow u64Size x) (← asNatBelow u7Size w) (← asNatBelow u7Size l)
  | .gets, [x, w, l] => do return .gets (← asNatBelow u64Size x) (← asNatBelow u7Size w) (← asNatBelow u7Size l)
  | .setu, [x, w, l, v] => do
    return .setu (← asNatBelow u64Size x) (← asNatBelow u7Size w) (← asNatBelow u7Size l) (← asNatBelow u64Size v)
  | .sets, [x, w, l, v] => do
    return .sets (← asNatBelow u64Size x) (← asNatBelow u7Size w) (← asNatBelow u7Size l) (← asS64Value v)
  | .qfwd, [a, b, c, d, e, f] => some (.qfwd ⟨a, b, c, d, e, f⟩)
  | .qinv, [a, b, c, d, e, f] => (asQRec a b c d e f).map .qinv
  | .cfwd, [r, g, b, n] => do return .cfwd (← asByte r) (← asByte g) (← asByte b) (← asByte n)
  | .cinv, [y, pb, pr] => some (.cinv ⟨y, pb, pr⟩)
  | .bfwd, [y1, b1, r1, y2, b2, r2, y3, b3, r3, y4, b4, r4] =>
    some (.bfwd ⟨y1, b1, r1⟩ ⟨y2, b2, r2⟩ ⟨y3, b3, r3⟩ ⟨y4, b4, r4⟩)
  | .binv, [a, b, c, d, e, f] => some (.binv ⟨a, b, c, d, e, f⟩)
  | .cwasm, [a, b, c, d, e, f] => (asQRec a b c d e f).map .cwasm
  | .cwdis, [x] => (asNatBelow u64Size x).map .cwdis
  | .sqfwd, [] => some .sqfwd
  | .sqinv, [] => some .sqinv
  | .scfwd, [] => some .scfwd
  | .scinv, [] => some .scinv
  | .sbfwd, [] => some .sbfwd
  | .sbinv, [] => some .sbinv
  | .scwasm, [] => some .scwasm
  | .scwdis, [] => some .scwdis
  | .wwrite, [] => some .wwrite
  | .wread, [] => some .wread
  | .compress, [] => some .compress
  | .decompress, [] => some .decompress
  | _, _ => none

/-- The host action of a statement (R97, R292), its names resolved. -/
def Stmt.action (names : List (String × Result)) : Stmt → Except AsmError HostAction
  | .command bind op args =>
    if op.sForm ∧ bind.isSome then .error .bindsNothing
    else
      match atomsScalars names args with
      | none => .error .unboundName
      | some xs =>
        match assembleCommand op xs with
        | none => .error .badOperands
        | some i => .ok (.issue (encode i))
  | .load v => .ok (.load v)
  | .read b => .ok (.read b)
  | .status => .ok .status
  | .reset => .ok .reset

/-- The names after a statement: a command that completed with a result binds it. -/
def Stmt.bound (names : List (String × Result)) (reply : Reply) : Stmt → List (String × Result)
  | .command (some n) _ _ =>
    match reply with
    | .result r => (n, r) :: names
    | _ => names
  | _ => names

/-- One statement of a program (R330): its action is the core's next step. -/
def Session.runStmt (st : Stmt) (σ : Session) : Except AsmError (Host.Outcome Session Fault Refusal) :=
  match st.action σ.names with
  | .error e => .error e
  | .ok a =>
    match hostStep { σ.core with inbox := [a] } with
    | .next s => .ok (.next { core := s, names := st.bound σ.names s.reply })
    | .fault f => .ok (.fault f)
    | .refused r => .ok (.refused r)

end Sys2Proof.Machine
end

