-- ==== Sys2Proof/Safety.lean ====
section
/-! DEFINITION. What counts as a safe and a successful run (70_reset_and_hazards.md R322, R330), in the terms claims use, and
the invariant of the machine. -/

namespace Sys2Proof.Safety

open Sys2Proof.Machine

/-- The core accepts commands: no fault has been taken since reset (60_exceptions.md R289). -/
abbrev Running (s : State) : Prop := s.faulted = false

/-- "A run is successful only if `STATUS.FAULT = 0` at its end" (R330): the host's list is used up and no fault stands. -/
abbrev Successful (s : State) : Prop := s.inbox = [] ∧ Running s

/-- The invariant of the machine: `STATUS` holds a legal value (10_state.md R21), after a fault every buffer is `EMPTY`
(60_exceptions.md R287, R289), and every buffer holds a value of its type (10_state.md R24). -/
structure CoreInv (s : State) : Prop where
  /-- R21. -/
  status_legal : legalStatus s.status
  /-- R287, R289. -/
  fault_empty : s.faulted = true → s.mem = Memory.empty
  /-- R24 to R30. -/
  mem_wf : s.mem.wf = true

/-- What the host must have loaded before COMPRESS (R322 (3)): even, non-zero dimensions, `denom` in `[1,255]`, no channel
above it. -/
abbrev CompressReady (P : PixelMap) : Prop :=
  1 ≤ P.px.w ∧ 1 ≤ P.px.h ∧ P.px.w % 2 = 0 ∧ P.px.h % 2 = 0 ∧ 1 ≤ P.denom.toNat ∧
    ∀ x ∈ P.px.elems, x.r.toNat ≤ P.denom.toNat ∧ x.g.toNat ≤ P.denom.toNat ∧ x.b.toNat ≤ P.denom.toNat

/-- Every field of a quantized record fits its codeword field (44_codeword.md R200, R202). -/
abbrev InRange (x : QRec) : Prop :=
  (0 ≤ x.qa ∧ x.qa ≤ 63) ∧ (-32 ≤ x.qb ∧ x.qb ≤ 31) ∧ (-32 ≤ x.qc ∧ x.qc ≤ 31) ∧ (-32 ≤ x.qd ∧ x.qd ≤ 31) ∧
    (0 ≤ x.ipb ∧ x.ipb ≤ 15) ∧ (0 ≤ x.ipr ∧ x.ipr ≤ 15)

/-- The input buffer of an S-form command (30_encoding.md R83); F-form commands have none. -/
def inputOf : Op → Option BufName
  | .scfwd | .compress => some .pix
  | .scinv | .sbfwd => some .cv
  | .sbinv | .sqfwd => some .blk
  | .sqinv | .scwasm => some .qblk
  | .scwdis | .wwrite => some .cwa
  | .wread | .decompress => some .strm
  | .fitsu | .fitss | .getu | .gets | .setu | .sets | .qfwd | .qinv | .cfwd | .cinv | .bfwd | .binv
  | .cwasm | .cwdis => none

/-- The output buffer of an S-form command (30_encoding.md R83). -/
def outputOf : Op → Option BufName
  | .scinv | .decompress => some .pix
  | .scfwd | .sbinv => some .cv
  | .sbfwd | .sqinv => some .blk
  | .sqfwd | .scwdis => some .qblk
  | .scwasm | .wread => some .cwa
  | .wwrite | .compress => some .strm
  | .fitsu | .fitss | .getu | .gets | .setu | .sets | .qfwd | .qinv | .cfwd | .cinv | .bfwd | .binv
  | .cwasm | .cwdis => none

/-- The operation is COMPRESS or DECOMPRESS, which use every buffer (30_encoding.md R83, last two rows). -/
def usesAll : Op → Bool
  | .compress | .decompress => true
  | .fitsu | .fitss | .getu | .gets | .setu | .sets | .qfwd | .qinv | .cfwd | .cinv | .bfwd | .binv | .cwasm | .cwdis
  | .sqfwd | .sqinv | .scfwd | .scinv | .sbfwd | .sbinv | .scwasm | .scwdis | .wwrite | .wread => false

/-- The value is an array with a zero width or height (60_exceptions.md R281 (f), decision D17). -/
abbrev ZeroSized : BufVal → Prop
  | .pix v => v.px.w = 0 ∨ v.px.h = 0
  | .cv v => v.w = 0 ∨ v.h = 0
  | .blk v => v.w = 0 ∨ v.h = 0
  | .qblk v => v.w = 0 ∨ v.h = 0
  | .cwa v => v.w = 0 ∨ v.h = 0
  | .strm _ => False

/-- A header that WREAD accepts before its evenness check: the bytes of 30_encoding.md R90 for two numbers in
`[1, DIM_MAX]` (R94). -/
def AcceptedHeader (l : List Byte) : Prop :=
  ∃ pw ph, 1 ≤ pw ∧ pw ≤ Config.dimMax ∧ 1 ≤ ph ∧ ph ≤ Config.dimMax ∧ l = header pw ph

/-- The ComponentVideo pixel CFWD gives for the pixel of a map at `(col,row)` (42_color.md R160, R162). -/
def forwardPixel (P : PixelMap) (col row : Nat) : CvPixel :=
  colorForwardQ (((P.px.get col row).r.toNat : ℚ) / P.denom.toNat) (((P.px.get col row).g.toNat : ℚ) / P.denom.toNat)
    (((P.px.get col row).b.toNat : ℚ) / P.denom.toNat)

/-- What becomes of a command's outcome when the next command is issued in the state it leaves (10_state.md R23: "the next
command is whatever the host issues next"). -/
def andThen (o : Host.Outcome State Fault Refusal) (i : Instr) : Host.Outcome State Fault Refusal :=
  match o with
  | .next s => exec i s
  | .fault f => .fault f
  | .refused r => .refused r

/-- The buffers and `STATUS` after an outcome: what 46_pipeline.md R252 compares. -/
def coreOf (o : Host.Outcome State Fault Refusal) : Option (Byte × Memory) :=
  match o with
  | .next s => some (s.status, s.mem)
  | .fault _ => none
  | .refused _ => none

end Sys2Proof.Safety
end

