-- ==== Sys2Proof/Certificates/Slice0/Obligations.lean ====
section
/-! DEFINITION. What the model owes: statements from the spec's numbered rules, for the provers. Each docstring names the rule it
formalises; OBLIGATIONS.json lists them. -/

open Sys2Proof Sys2Proof.Machine Sys2Proof.Safety

/-! ### Reset, the host's actions, fetching a command -/

/-- 10_state.md R34: "After reset … `STATUS = 0x00` (`FAULT = 0`, `CAUSE = NONE`)", and the six buffers are `EMPTY`. -/
def Obligations.ResetClearsStatusAndBuffers : Prop :=
  State.reset.status = 0x00 ∧ State.reset.faulted = false ∧ State.reset.causeCode = 0 ∧
    State.reset.mem.pix = none ∧ State.reset.mem.cv = none ∧ State.reset.mem.blk = none ∧
    State.reset.mem.qblk = none ∧ State.reset.mem.cwa = none ∧ State.reset.mem.strm = none

/-- 70_reset_and_hazards.md R320, R321: `.reset` in any state gives the reset values, and it is the only way out of a state
with `FAULT = 1`. That the host's own list of further actions stays and that nothing is handed over is the model's choice
(log entries 1 and 2). -/
def Obligations.ResetIsTheOnlyWayOutOfAFault : Prop :=
  (∀ s rest, s.inbox = .reset :: rest →
    step s = .next { status := 0x00, mem := ⟨none, none, none, none, none, none⟩, inbox := rest, reply := .nothing }) ∧
  (∀ s t, s.faulted = true → step s = .next t → t.faulted = false → ∃ rest, s.inbox = .reset :: rest)

/-- 60_exceptions.md R292: `.load` fills its buffer and no other, and has no effect while `FAULT = 1`; `.read` and `.status`
change nothing and return the exact content and the exact value. That `.load` of a value outside its buffer's type stops the
model is the model's choice (log entry 7), and so is where a reply is held (log entry 2). -/
def Obligations.HostLoadsReadsAndStatus : Prop :=
  (∀ s v rest, s.inbox = .load v :: rest → Running s → v.ok Config.dimMax = true →
    ∃ t, step s = .next t ∧ t.status = s.status ∧ t.inbox = rest ∧
      ∀ b, t.mem.read b = if b = v.name then some v else s.mem.read b) ∧
  (∀ s v rest, s.inbox = .load v :: rest → s.faulted = true →
    step s = .next { s with inbox := rest, reply := .nothing }) ∧
  (∀ s v rest, s.inbox = .load v :: rest → Running s → v.ok Config.dimMax = false →
    step s = .fault .loadOutsideType) ∧
  (∀ s b rest, s.inbox = .read b :: rest →
    step s = .next { s with inbox := rest, reply := .content (s.mem.read b) }) ∧
  (∀ s rest, s.inbox = .status :: rest →
    step s = .next { s with inbox := rest, reply := .status s.readStatus }) ∧
  (∀ s : State, legalStatus s.status → s.readStatus = s.status)

/-- The invariant holds after reset (10_state.md R21, R24, R34). -/
def Obligations.ResetMeetsInvariant : Prop := CoreInv State.reset

/-- Every step keeps the invariant: `STATUS` stays one of the four legal values (10_state.md R21), after a fault every
buffer is `EMPTY` (60_exceptions.md R287, R289), and every buffer holds a value of its type, its dimensions within the bound
(10_state.md R24). -/
def Obligations.StepKeepsInvariant : Prop := ∀ s t, CoreInv s → step s = .next t → CoreInv t

/-- The step takes the host's next action: when the command on the port decodes to an instruction, the step is that
instruction's meaning, on the state from whose list the command has been taken; with no action waiting nothing happens (the
model's choice, log entry 1). -/
def Obligations.StepRunsTheDecodedCommand : Prop :=
  (∀ s c i rest, s.inbox = .issue c :: rest → decode c = .ok i → step s = exec i { s with inbox := rest }) ∧
  (∀ s nbits w i, decodeTableWord nbits w = some i → step (s.withFetchWord nbits w) = exec i s) ∧
  (∀ s, s.inbox = [] → step s = .next s)

/-- For every command whose operands the port can present, decoding what the host presents for it gives it back, every
operand at every value (30_encoding.md R80, R81, R83, R84). -/
def Obligations.DecodeInvertsEncode : Prop := ∀ i : Instr, i.WellFormed → decode (encode i) = .ok i

/-- Whatever is on the port, a decoded command's operands lie in the domains of 30_encoding.md R83, and its operation code
is the one on the port. -/
def Obligations.DecodedOperandsAreInRange : Prop :=
  ∀ c i, decode c = .ok i → i.WellFormed ∧ (encode i).op = c.op

/-- Commands written out from the spec's tables (30_encoding.md R81, R83, 95_test_vectors.md) decode to the instructions they
stand for: one per unit. -/
def Obligations.WrittenOutCommandsDecode : Prop :=
  decode { op := 0x13, args := { Wires.zero with word := 0x3F4, width := 6, lsb := 2 } } = .ok (.gets 0x3F4 6 2) ∧
  decode { op := 0x15, args := { Wires.zero with width := 6, lsb := 8, value := 0xFFFFFFFFFFFFFFE2 } } =
    .ok (.sets 0 6 8 (-30)) ∧
  decode { op := 0x21, args := { Wires.zero with qblk := ⟨63, -32, 31, -30, 0, 15⟩ } } =
    .ok (.qinv ⟨63, -32, 31, -30, 0, 15⟩) ∧
  decode { op := 0x30, args := { Wires.zero with r := 10, g := 20, b := 30, denom := 100 } } = .ok (.cfwd 10 20 30 100) ∧
  decode { op := 0x49, args := Wires.zero } = .ok .sbinv ∧
  decode { op := 0x51, args := { Wires.zero with word := 0xFFFFFFFF12345678 } } = .ok (.cwdis 0xFFFFFFFF12345678) ∧
  decode { op := 0x68, args := Wires.zero } = .ok .wwrite ∧
  decode { op := 0x79, args := Wires.zero } = .ok .decompress

/-- 30_encoding.md R82: "Every value of `OP` not in the table of rule R81 … is reserved. Issuing a reserved code raises
PreconditionViolation". The 26 codes are written out; the 230 others are counted. -/
def Obligations.ReservedCodesRaisePrecondition : Prop :=
  (∀ (op : Byte) args, (∃ i, decode ⟨op, args⟩ = .ok i) ↔
    op.toNat ∈ [0x10, 0x11, 0x12, 0x13, 0x14, 0x15, 0x20, 0x21, 0x28, 0x29, 0x30, 0x31, 0x38, 0x39, 0x40, 0x41, 0x48, 0x49,
      0x50, 0x51, 0x58, 0x59, 0x68, 0x69, 0x78, 0x79]) ∧
  ((List.range 256).countP fun n => (decodeOp (BitVec.ofNat 8 n)).isNone) = 230 ∧
  (∀ s c rest, s.inbox = .issue c :: rest → (∀ i, decode c ≠ .ok i) → Running s →
    step s = .next { status := 0x03, mem := Memory.empty, inbox := rest, reply := .faulted })

/-! ### Faults, refusal, frames, purity -/

/-- 70_reset_and_hazards.md R329, R330: every command terminates, in one atomic step, in a next state. -/
def Obligations.EveryCommandEnds : Prop :=
  (∀ i s, ∃ t, exec i s = .next t) ∧ (∀ s c rest, s.inbox = .issue c :: rest → ∃ t, step s = .next t)

/-- 60_exceptions.md R289: while `FAULT = 1` every command, whatever its `OP` and operands, changes no state, returns no
result and raises nothing; host loads are ignored. The reply that says so is the model's (log entry 2). -/
def Obligations.FaultedCoreRefusesEveryCommand : Prop :=
  (∀ i s, s.faulted = true → exec i s = .next { s with reply := .refused }) ∧
  (∀ s c rest, s.faulted = true → s.inbox = .issue c :: rest →
    step s = .next { s with inbox := rest, reply := .refused }) ∧
  (∀ s v rest, s.faulted = true → s.inbox = .load v :: rest → ∃ t, step s = .next t ∧ t.mem = s.mem ∧ t.status = s.status)

/-- 60_exceptions.md R287: a command that raises a fault sets `FAULT`, records one of the three causes, empties all six
buffers and returns no result; nothing else is recorded. -/
def Obligations.FaultEntryEmptiesEveryBuffer : Prop :=
  ∀ i s t, Running s → exec i s = .next t → t.faulted = true →
    (t.status = 0x03 ∨ t.status = 0x05 ∨ t.status = 0x07) ∧ t.mem.pix = none ∧ t.mem.cv = none ∧ t.mem.blk = none ∧
      t.mem.qblk = none ∧ t.mem.cwa = none ∧ t.mem.strm = none ∧ t.inbox = s.inbox ∧ t.reply = .faulted

/-- 10_state.md R21: `STATUS` is "written only by fault entry … and by reset": in any step it is unchanged, or the step is a
reset and it becomes `0x00`, or no fault stood and a fault's value is recorded. -/
def Obligations.StatusWrittenOnlyByFaultEntryAndReset : Prop :=
  ∀ s t, step s = .next t →
    t.status = s.status ∨ (t.status = 0x00 ∧ ∃ rest, s.inbox = .reset :: rest) ∨
      (Running s ∧ (t.status = 0x03 ∨ t.status = 0x05 ∨ t.status = 0x07) ∧ ∃ c rest, s.inbox = .issue c :: rest)

/-- 60_exceptions.md R282, 46_pipeline.md R253: every way to raise OverflowError and no other; COMPRESS cannot raise it. -/
def Obligations.EveryWayToOverflow : Prop :=
  ∀ i s, Running s →
    (exec i s = .next (s.takeFault .overflow) ↔
      match i with
      | .setu _ width lsb value => width ≤ 64 ∧ width + lsb ≤ 64 ∧ 2 ^ width ≤ value
      | .sets _ width lsb value => width ≤ 64 ∧ width + lsb ≤ 64 ∧
          (width = 0 ∨ value < -2 ^ (width - 1) ∨ 2 ^ (width - 1) - 1 < value)
      | .cwasm x => ¬ InRange x
      | .scwasm => ∃ Q, s.mem.qblk = some Q ∧ 1 ≤ Q.w ∧ 1 ≤ Q.h ∧ ∃ x ∈ Q.elems, ¬ InRange x
      | _ => False)

/-- 60_exceptions.md R283: only WREAD and DECOMPRESS can raise TruncatedStreamError, and DECOMPRESS exactly when WREAD would. -/
def Obligations.OnlyStreamReadersTruncate : Prop :=
  (∀ i s t, Running s → exec i s = .next t → t.status = 0x07 → i = .wread ∨ i = .decompress) ∧
  (∀ s, Running s →
    (exec .decompress s = .next (s.takeFault .trunc) ↔ exec .wread s = .next (s.takeFault .trunc)))

/-- 30_encoding.md R83, 40_bitfield.md R121: an F-form command that raises no fault reads and writes no buffer and leaves
`STATUS` as it was; only its result is handed over. -/
def Obligations.FFormCommandsTouchNoState : Prop :=
  ∀ i s t, i.opName.sForm = false → Running s → exec i s = .next t → t.faulted = false →
    t.status = s.status ∧ t.inbox = s.inbox ∧ (∃ r, t.reply = .result r) ∧ ∀ b, t.mem.read b = s.mem.read b

/-- 10_state.md R31, 30_encoding.md R83: an S-form command that raises no fault leaves its input buffer `EMPTY` and its output
buffer filled; every other buffer is unchanged, but for COMPRESS and DECOMPRESS, which leave every other buffer `EMPTY`. -/
def Obligations.SFormCommandsReleaseInputAndFillOutput : Prop :=
  ∀ i s t, i.opName.sForm = true → Running s → exec i s = .next t → t.faulted = false →
    t.status = s.status ∧ t.inbox = s.inbox ∧ t.reply = .done ∧
      (∀ b, inputOf i.opName = some b → t.mem.read b = none) ∧
      (∀ b, outputOf i.opName = some b → ∃ v, t.mem.read b = some v) ∧
      (∀ b, inputOf i.opName ≠ some b → outputOf i.opName ≠ some b →
        t.mem.read b = if usesAll i.opName then none else s.mem.read b)

/-- 60_exceptions.md R281 (f): an S-form command whose input buffer is `EMPTY`, or holds an array with a zero width or
height, raises PreconditionViolation. -/
def Obligations.EmptyOrZeroSizedInputFaults : Prop :=
  ∀ i s b, i.opName.sForm = true → Running s → inputOf i.opName = some b →
    (s.mem.read b = none ∨ ∃ v, s.mem.read b = some v ∧ ZeroSized v) → exec i s = .next (s.takeFault .precond)

/-- 10_state.md R32: a command's result depends only on its operands, the input buffer it names and `STATUS.FAULT`; so do the
fault it takes and the cause `STATUS` records, a fault's only datum (60_exceptions.md R287), and its output buffer. -/
def Obligations.ResultsDependOnlyOnOperandsAndInput : Prop :=
  ∀ i s s' t t', s.faulted = s'.faulted → (∀ b, inputOf i.opName = some b → s.mem.read b = s'.mem.read b) →
    exec i s = .next t → exec i s' = .next t' →
    t.reply = t'.reply ∧ t.faulted = t'.faulted ∧ (Running s → t.faulted = true → t.status = t'.status) ∧
      (Running s → ∀ b, outputOf i.opName = some b → t.mem.read b = t'.mem.read b)

/-- 70_reset_and_hazards.md R326: after an S-form command its input buffer is `EMPTY`, so a second command that needs the same
buffer raises PreconditionViolation. -/
def Obligations.UseAfterReleaseFaults : Prop :=
  ∀ i j s t, i.opName.sForm = true → j.opName.sForm = true → inputOf j.opName = inputOf i.opName → Running s →
    exec i s = .next t → t.faulted = false →
      (∀ b, inputOf i.opName = some b → t.mem.read b = none) ∧ exec j t = .next (t.takeFault .precond)

/-! ### Unit 1, the bit-field codec -/

/-- 40_bitfield.md R111: FITSU answers whether `0 ≤ v < 2^width`; `width > 64` raises PreconditionViolation; never an
OverflowError. -/
def Obligations.FitsUnsignedTest : Prop :=
  ∀ v width s, Running s → (encode (.fitsu v width)).op = 0x10 ∧
    (width ≤ 64 → ∃ b, exec (.fitsu v width) s = .next (s.complete (.bool b)) ∧ (b = true ↔ v < 2 ^ width)) ∧
    (64 < width → exec (.fitsu v width) s = .next (s.takeFault .precond))

/-- 40_bitfield.md R112: FITSS answers whether `v` lies in `[-2^(width-1), 2^(width-1)-1]`, false for every `v` at width 0. -/
def Obligations.FitsSignedTest : Prop :=
  ∀ v width s, Running s → (encode (.fitss v width)).op = 0x11 ∧
    (width ≤ 64 → ∃ b, exec (.fitss v width) s = .next (s.complete (.bool b)) ∧
      (b = true ↔ 1 ≤ width ∧ -2 ^ (width - 1) ≤ v ∧ v ≤ 2 ^ (width - 1) - 1)) ∧
    (64 < width → exec (.fitss v width) s = .next (s.takeFault .precond))

/-- 40_bitfield.md R113: GETU returns the field zero-extended: 0 at width 0, else `floor(word / 2^lsb) mod 2^width`, that is
bit `i` of it is bit `lsb + i` of the word below the width and 0 above. -/
def Obligations.GetUnsignedExtractsTheField : Prop :=
  ∀ word width lsb s, Running s → (encode (.getu word width lsb)).op = 0x12 ∧
    (width ≤ 64 → width + lsb ≤ 64 → ∃ f, exec (.getu word width lsb) s = .next (s.complete (.u64 f)) ∧
      f = (if width = 0 then 0 else word / 2 ^ lsb % 2 ^ width) ∧ f < 2 ^ width ∧
      ∀ i, f.testBit i = (decide (i < width) && word.testBit (lsb + i))) ∧
    (64 < width ∨ 64 < width + lsb → exec (.getu word width lsb) s = .next (s.takeFault .precond))

/-- 40_bitfield.md R114: GETS returns the field sign-extended: 0 at width 0, else an integer of
`[-2^(width-1), 2^(width-1)-1]` that is the field less `2^width` when the field's top bit is set; on the 64 result wires the
top bit is copied into all higher bits. -/
def Obligations.GetSignedExtendsTheField : Prop :=
  ∀ word width lsb s, Running s → (encode (.gets word width lsb)).op = 0x13 ∧
    (width ≤ 64 → width + lsb ≤ 64 → ∃ f : Int, exec (.gets word width lsb) s = .next (s.complete (.s64 f)) ∧
      (width = 0 → f = 0) ∧
      (1 ≤ width → -2 ^ (width - 1) ≤ f ∧ f ≤ 2 ^ (width - 1) - 1 ∧
        f = (if 2 ^ (width - 1) ≤ word / 2 ^ lsb % 2 ^ width then ((word / 2 ^ lsb % 2 ^ width : Nat) : Int) - 2 ^ width
          else ((word / 2 ^ lsb % 2 ^ width : Nat) : Int)) ∧
        ∀ i, i < 64 → (asU64 f).getLsbD i = word.testBit (lsb + min i (width - 1)))) ∧
    (64 < width ∨ 64 < width + lsb → exec (.gets word width lsb) s = .next (s.takeFault .precond))

/-- 40_bitfield.md R115: SETU "clears the target bits of `word` and ORs in `value << lsb`, leaving all other bits untouched";
it raises PreconditionViolation first, then OverflowError when `value ≥ 2^width`. -/
def Obligations.SetUnsignedInsertsTheField : Prop :=
  ∀ word width lsb value s, Running s → (encode (.setu word width lsb value)).op = 0x14 ∧
    (width ≤ 64 → width + lsb ≤ 64 → value < 2 ^ width →
      ∃ r, exec (.setu word width lsb value) s = .next (s.complete (.u64 r)) ∧ (word < 2 ^ 64 → r < 2 ^ 64) ∧
        ∀ i, r.testBit i = if lsb ≤ i ∧ i < lsb + width then value.testBit (i - lsb) else word.testBit i) ∧
    (64 < width ∨ 64 < width + lsb → exec (.setu word width lsb value) s = .next (s.takeFault .precond)) ∧
    (width ≤ 64 → width + lsb ≤ 64 → 2 ^ width ≤ value →
      exec (.setu word width lsb value) s = .next (s.takeFault .overflow))

/-- 40_bitfield.md R116: SETS "stores the low `width` bits of the two's-complement representation of `value` at `lsb`,
preserving other bits"; PreconditionViolation first, then OverflowError, always at width 0. -/
def Obligations.SetSignedInsertsTheField : Prop :=
  ∀ word width lsb value s, Running s → (encode (.sets word width lsb value)).op = 0x15 ∧
    (1 ≤ width → width ≤ 64 → width + lsb ≤ 64 → -2 ^ (width - 1) ≤ value → value ≤ 2 ^ (width - 1) - 1 →
      ∃ r, exec (.sets word width lsb value) s = .next (s.complete (.u64 r)) ∧ (word < 2 ^ 64 → r < 2 ^ 64) ∧
        ∀ i, r.testBit i =
          if lsb ≤ i ∧ i < lsb + width then (value % 2 ^ width).toNat.testBit (i - lsb) else word.testBit i) ∧
    (64 < width ∨ 64 < width + lsb → exec (.sets word width lsb value) s = .next (s.takeFault .precond)) ∧
    (width ≤ 64 → width + lsb ≤ 64 → (width = 0 ∨ value < -2 ^ (width - 1) ∨ 2 ^ (width - 1) - 1 < value) →
      exec (.sets word width lsb value) s = .next (s.takeFault .overflow))

/-- 40_bitfield.md R119: what an inserter stored an extractor of the same field reads back, for any starting word, signed and
unsigned; and every field that shares no bit with it reads as before, with either inserter and either extractor. -/
def Obligations.InsertThenExtract : Prop :=
  (∀ word width lsb value s, Running s → width + lsb ≤ 64 → value < 2 ^ width →
    ∃ r, exec (.setu word width lsb value) s = .next (s.complete (.u64 r)) ∧
      exec (.getu r width lsb) s = .next (s.complete (.u64 value)) ∧
      ∀ w2 l2, l2 + w2 ≤ lsb ∨ lsb + width ≤ l2 →
        exec (.getu r w2 l2) s = exec (.getu word w2 l2) s ∧ exec (.gets r w2 l2) s = exec (.gets word w2 l2) s) ∧
  (∀ word width lsb value s, Running s → 1 ≤ width → width + lsb ≤ 64 → -2 ^ (width - 1) ≤ value →
    value ≤ 2 ^ (width - 1) - 1 →
    ∃ r, exec (.sets word width lsb value) s = .next (s.complete (.u64 r)) ∧
      exec (.gets r width lsb) s = .next (s.complete (.s64 value)) ∧
      ∀ w2 l2, l2 + w2 ≤ lsb ∨ lsb + width ≤ l2 →
        exec (.getu r w2 l2) s = exec (.getu word w2 l2) s ∧ exec (.gets r w2 l2) s = exec (.gets word w2 l2) s)

/-- 40_bitfield.md R120: the first values that overflow, `2^width` for the unsigned inserter at every width of `[0,63]`,
`2^(width-1)` and `-2^(width-1) - 1` for the signed one at every width of `[1,63]`; the largest values below them succeed. -/
def Obligations.FirstOverflowingValues : Prop :=
  (∀ word width lsb s, Running s → width ≤ 63 → width + lsb ≤ 64 →
    exec (.setu word width lsb (2 ^ width)) s = .next (s.takeFault .overflow) ∧
    ∃ r, exec (.setu word width lsb (2 ^ width - 1)) s = .next (s.complete (.u64 r))) ∧
  (∀ word width lsb s, Running s → 1 ≤ width → width ≤ 63 → width + lsb ≤ 64 →
    exec (.sets word width lsb (2 ^ (width - 1))) s = .next (s.takeFault .overflow) ∧
    exec (.sets word width lsb (-2 ^ (width - 1) - 1)) s = .next (s.takeFault .overflow) ∧
    (∃ r, exec (.sets word width lsb (2 ^ (width - 1) - 1)) s = .next (s.complete (.u64 r))) ∧
    ∃ r, exec (.sets word width lsb (-2 ^ (width - 1))) s = .next (s.complete (.u64 r)))

/-! ### Unit 2, the quantizer -/

/-- 00_scope.md R11, 41_quantizer.md R144: `rnd` gives an integer within one half, and at a tie the one away from zero;
`clamp` gives the nearest value of its interval. -/
def Obligations.RoundingIsNearestTiesAwayFromZero : Prop :=
  (∀ x : ℚ, |(rnd x : ℚ) - x| ≤ 1 / 2 ∧ (|(rnd x : ℚ) - x| = 1 / 2 → |x| ≤ |(rnd x : ℚ)|)) ∧
  (∀ x lo hi : ℚ, lo ≤ hi → clamp x lo hi = max lo (min x hi)) ∧
  rnd (5 / 2) = 3 ∧ rnd (-5 / 2) = -3 ∧ rnd (1 / 2) = 1 ∧ rnd (-1 / 2) = -1 ∧ rnd (3 / 2) = 2

/-- 41_quantizer.md R140: QFWD, total, its six formulas. -/
def Obligations.QuantizeOneRecord : Prop :=
  ∀ x s, Running s → (encode (.qfwd x)).op = 0x20 ∧
    exec (.qfwd x) s = .next (s.complete (.qblk
      { qa := rnd (63 * x.a), qb := rnd (100 * clamp x.b (-3 / 10) (3 / 10)),
        qc := rnd (100 * clamp x.c (-3 / 10) (3 / 10)), qd := rnd (100 * clamp x.d (-3 / 10) (3 / 10)),
        ipb := ((Config.chroma.indexOf x.avgpb).val : Int), ipr := ((Config.chroma.indexOf x.avgpr).val : Int) }))

/-- 41_quantizer.md R150: the ranges of QFWD's result, whatever the record; `qa` is in `[0,63]` exactly for
`-1/126 < a < 127/126`. -/
def Obligations.QuantizedCodesAreInRange : Prop :=
  ∀ x s, Running s → ∃ q : QRec, exec (.qfwd x) s = .next (s.complete (.qblk q)) ∧
    (-30 ≤ q.qb ∧ q.qb ≤ 30) ∧ (-30 ≤ q.qc ∧ q.qc ≤ 30) ∧ (-30 ≤ q.qd ∧ q.qd ≤ 30) ∧
    (0 ≤ q.ipb ∧ q.ipb ≤ 15) ∧ (0 ≤ q.ipr ∧ q.ipr ≤ 15) ∧
    ((0 ≤ q.qa ∧ q.qa ≤ 63) ↔ (-1 / 126 < x.a ∧ x.a < 127 / 126))

/-- 41_quantizer.md R141: QINV's formulas for indices in `[0,15]`, the re-clamp of the codes beyond ±30 included; an index
outside raises PreconditionViolation. -/
def Obligations.DequantizeOneRecord : Prop :=
  ∀ x s, Running s → (encode (.qinv x)).op = 0x21 ∧
    (0 ≤ x.ipb → x.ipb ≤ 15 → 0 ≤ x.ipr → x.ipr ≤ 15 → ∃ (b : BlkRec) (ib ir : Fin 16),
      exec (.qinv x) s = .next (s.complete (.blk b)) ∧ (ib.val : Int) = x.ipb ∧ (ir.val : Int) = x.ipr ∧
      b = { a := x.qa / 63, b := clamp (x.qb / 100) (-3 / 10) (3 / 10), c := clamp (x.qc / 100) (-3 / 10) (3 / 10),
            d := clamp (x.qd / 100) (-3 / 10) (3 / 10), avgpb := Config.chroma.valueOf ib,
            avgpr := Config.chroma.valueOf ir }) ∧
    (x.ipb < 0 ∨ 15 < x.ipb ∨ x.ipr < 0 ∨ 15 < x.ipr → exec (.qinv x) s = .next (s.takeFault .precond))

/-- 41_quantizer.md R142: SQFWD quantizes every element at its place, from `BLK` to `QBLK`, and releases `BLK`. -/
def Obligations.QuantizeTheBlockArray : Prop :=
  (encode .sqfwd).op = 0x28 ∧
  (∀ s B, Running s → s.mem.blk = some B → B.Sized → 1 ≤ B.w → 1 ≤ B.h → ∃ Q : Arr QRec,
    exec .sqfwd s = .next { s with mem := { s.mem with qblk := some Q, blk := none }, reply := .done } ∧
    Q.Sized ∧ Q.w = B.w ∧ Q.h = B.h ∧ ∀ col row, col < B.w → row < B.h →
      exec (.qfwd (B.get col row)) s = .next (s.complete (.qblk (Q.get col row)))) ∧
  (∀ s, Running s → (s.mem.blk = none ∨ ∃ B, s.mem.blk = some B ∧ (B.w = 0 ∨ B.h = 0)) →
    exec .sqfwd s = .next (s.takeFault .precond))

/-- 41_quantizer.md R143: SQINV dequantizes every element at its place, from `QBLK` to `BLK`; an element with an index
outside `[0,15]` raises PreconditionViolation and nothing is written. -/
def Obligations.DequantizeTheBlockArray : Prop :=
  (encode .sqinv).op = 0x29 ∧
  (∀ s Q, Running s → s.mem.qblk = some Q → Q.Sized → 1 ≤ Q.w → 1 ≤ Q.h →
    (∀ x ∈ Q.elems, (0 ≤ x.ipb ∧ x.ipb ≤ 15) ∧ (0 ≤ x.ipr ∧ x.ipr ≤ 15)) → ∃ B : Arr BlkRec,
    exec .sqinv s = .next { s with mem := { s.mem with blk := some B, qblk := none }, reply := .done } ∧
    B.Sized ∧ B.w = Q.w ∧ B.h = Q.h ∧ ∀ col row, col < Q.w → row < Q.h →
      exec (.qinv (Q.get col row)) s = .next (s.complete (.blk (B.get col row)))) ∧
  (∀ s Q x, Running s → s.mem.qblk = some Q → x ∈ Q.elems → (x.ipb < 0 ∨ 15 < x.ipb ∨ x.ipr < 0 ∨ 15 < x.ipr) →
    exec .sqinv s = .next (s.takeFault .precond)) ∧
  (∀ s, Running s → (s.mem.qblk = none ∨ ∃ Q, s.mem.qblk = some Q ∧ (Q.w = 0 ∨ Q.h = 0)) →
    exec .sqinv s = .next (s.takeFault .precond))

/-- Requantizing what QINV gave restores the codes (41_quantizer.md R140, R141, R144): every `qa`, and every difference code
that the forward path can produce. -/
def Obligations.RequantizingRestoresTheCodes : Prop :=
  ∀ x s, Running s → (0 ≤ x.ipb ∧ x.ipb ≤ 15) → (0 ≤ x.ipr ∧ x.ipr ≤ 15) → (-30 ≤ x.qb ∧ x.qb ≤ 30) →
    (-30 ≤ x.qc ∧ x.qc ≤ 30) → (-30 ≤ x.qd ∧ x.qd ≤ 30) → ∃ (b : BlkRec) (q : QRec),
    exec (.qinv x) s = .next (s.complete (.blk b)) ∧ exec (.qfwd b) s = .next (s.complete (.qblk q)) ∧
      q.qa = x.qa ∧ q.qb = x.qb ∧ q.qc = x.qc ∧ q.qd = x.qd

/-! ### Unit 3, the colour transform -/

/-- 42_color.md R160, R166: CFWD's three formulas on the channels divided by the denominator; `denom = 0` or a channel above
`denom` raises PreconditionViolation. -/
def Obligations.ColorForwardOnePixel : Prop :=
  ∀ (r g b denom : Byte) s, Running s → (encode (.cfwd r g b denom)).op = 0x30 ∧
    (1 ≤ denom.toNat → r.toNat ≤ denom.toNat → g.toNat ≤ denom.toNat → b.toNat ≤ denom.toNat →
      ∀ R G B : ℚ, R = r.toNat / denom.toNat → G = g.toNat / denom.toNat → B = b.toNat / denom.toNat →
      exec (.cfwd r g b denom) s = .next (s.complete (.cv
        { y := 0.299 * R + 0.587 * G + 0.114 * B, pb := -0.168736 * R - 0.331264 * G + 0.5 * B,
          pr := 0.5 * R - 0.418688 * G - 0.081312 * B }))) ∧
    (denom.toNat = 0 ∨ denom.toNat < r.toNat ∨ denom.toNat < g.toNat ∨ denom.toNat < b.toNat →
      exec (.cfwd r g b denom) s = .next (s.takeFault .precond))

/-- 42_color.md R165: for every legal input `0 ≤ y ≤ 1`, `-1/2 ≤ pb ≤ 1/2`, `-1/2 ≤ pr ≤ 1/2`, and a grey pixel has no
chroma. -/
def Obligations.ColorForwardRanges : Prop :=
  ∀ (r g b denom : Byte) s p, Running s → exec (.cfwd r g b denom) s = .next (s.complete (.cv p)) →
    (0 ≤ p.y ∧ p.y ≤ 1) ∧ (-1 / 2 ≤ p.pb ∧ p.pb ≤ 1 / 2) ∧ (-1 / 2 ≤ p.pr ∧ p.pr ≤ 1 / 2) ∧
      (r = g → g = b → p = { y := r.toNat / denom.toNat, pb := 0, pr := 0 })

/-- 42_color.md R161: CINV, total: each channel clamped to `[0,1]`, scaled by 255, then truncated. -/
def Obligations.ColorInverseOnePixel : Prop :=
  ∀ p s, Running s → (encode (.cinv p)).op = 0x31 ∧ ∃ c : Rgb, exec (.cinv p) s = .next (s.complete (.rgb c)) ∧
    (c.r.toNat : Int) = ⌊255 * max 0 (min (p.y + 1.402 * p.pr) 1)⌋ ∧
    (c.g.toNat : Int) = ⌊255 * max 0 (min (p.y - 0.344136 * p.pb - 0.714136 * p.pr) 1)⌋ ∧
    (c.b.toNat : Int) = ⌊255 * max 0 (min (p.y + 1.772 * p.pb) 1)⌋

/-- 42_color.md R162: SCFWD transforms every pixel at its place, from `PIX` to `CV`; it does not test evenness; an `EMPTY`
or zero-sized map, `denom = 0` or a channel above `denom` raises PreconditionViolation. -/
def Obligations.ColorForwardThePixelMap : Prop :=
  (encode .scfwd).op = 0x38 ∧
  (∀ s P, Running s → s.mem.pix = some P → P.px.Sized → 1 ≤ P.px.w → 1 ≤ P.px.h → 1 ≤ P.denom.toNat →
    (∀ x ∈ P.px.elems, x.r.toNat ≤ P.denom.toNat ∧ x.g.toNat ≤ P.denom.toNat ∧ x.b.toNat ≤ P.denom.toNat) →
    ∃ V : Arr CvPixel,
    exec .scfwd s = .next { s with mem := { s.mem with cv := some V, pix := none }, reply := .done } ∧
    V.Sized ∧ V.w = P.px.w ∧ V.h = P.px.h ∧ ∀ col row, col < P.px.w → row < P.px.h →
      exec (.cfwd (P.px.get col row).r (P.px.get col row).g (P.px.get col row).b P.denom) s =
        .next (s.complete (.cv (V.get col row)))) ∧
  (∀ s P, Running s → s.mem.pix = some P → P.px.Sized →
    (P.px.w = 0 ∨ P.px.h = 0 ∨ P.denom.toNat = 0 ∨ ∃ x ∈ P.px.elems,
      P.denom.toNat < x.r.toNat ∨ P.denom.toNat < x.g.toNat ∨ P.denom.toNat < x.b.toNat) →
    exec .scfwd s = .next (s.takeFault .precond)) ∧
  (∀ s, Running s → s.mem.pix = none → exec .scfwd s = .next (s.takeFault .precond))

/-- 42_color.md R164: SCINV transforms every pixel back at its place, from `CV` to `PIX`, the dimensions copied and the
denominator always 255. -/
def Obligations.ColorInverseTheArray : Prop :=
  (encode .scinv).op = 0x39 ∧
  (∀ s V, Running s → s.mem.cv = some V → V.Sized → 1 ≤ V.w → 1 ≤ V.h → ∃ P : PixelMap,
    exec .scinv s = .next { s with mem := { s.mem with pix := some P, cv := none }, reply := .done } ∧
    P.px.Sized ∧ P.px.w = V.w ∧ P.px.h = V.h ∧ P.denom.toNat = 255 ∧ ∀ col row, col < V.w → row < V.h →
      exec (.cinv (V.get col row)) s = .next (s.complete (.rgb (P.px.get col row)))) ∧
  (∀ s, Running s → (s.mem.cv = none ∨ ∃ V, s.mem.cv = some V ∧ (V.w = 0 ∨ V.h = 0)) →
    exec .scinv s = .next (s.takeFault .precond))

/-! ### Unit 4, the block transform -/

/-- 43_block.md R180, R181: BFWD and BINV, total, their formulas; neither clamps. -/
def Obligations.BlockTransformOneQuad : Prop :=
  (∀ p1 p2 p3 p4 s, Running s → (encode (.bfwd p1 p2 p3 p4)).op = 0x40 ∧
    exec (.bfwd p1 p2 p3 p4) s = .next (s.complete (.blk
      { a := (p1.y + p2.y + p3.y + p4.y) / 4, b := (p3.y + p4.y - p1.y - p2.y) / 4,
        c := (p2.y + p4.y - p1.y - p3.y) / 4, d := (p1.y + p4.y - p2.y - p3.y) / 4,
        avgpb := (p1.pb + p2.pb + p3.pb + p4.pb) / 4, avgpr := (p1.pr + p2.pr + p3.pr + p4.pr) / 4 }))) ∧
  (∀ x s, Running s → (encode (.binv x)).op = 0x41 ∧
    exec (.binv x) s = .next (s.complete (.quad ⟨x.a - x.b - x.c + x.d, x.avgpb, x.avgpr⟩
      ⟨x.a - x.b + x.c - x.d, x.avgpb, x.avgpr⟩ ⟨x.a + x.b - x.c - x.d, x.avgpb, x.avgpr⟩
      ⟨x.a + x.b + x.c + x.d, x.avgpb, x.avgpr⟩)))

/-- 43_block.md R182: the pair is an exact inverse on luma, in both directions; on chroma BINV after BFWD gives the mean of
the four. -/
def Obligations.BlockTransformIsExactOnLuma : Prop :=
  (∀ p1 p2 p3 p4 s, Running s → ∃ (x : BlkRec) (q1 q2 q3 q4 : CvPixel),
    exec (.bfwd p1 p2 p3 p4) s = .next (s.complete (.blk x)) ∧
    exec (.binv x) s = .next (s.complete (.quad q1 q2 q3 q4)) ∧
    q1.y = p1.y ∧ q2.y = p2.y ∧ q3.y = p3.y ∧ q4.y = p4.y ∧
    (∀ q ∈ [q1, q2, q3, q4], q.pb = (p1.pb + p2.pb + p3.pb + p4.pb) / 4 ∧
      q.pr = (p1.pr + p2.pr + p3.pr + p4.pr) / 4)) ∧
  (∀ x s, Running s → ∃ q1 q2 q3 q4 : CvPixel,
    exec (.binv x) s = .next (s.complete (.quad q1 q2 q3 q4)) ∧
    exec (.bfwd q1 q2 q3 q4) s = .next (s.complete (.blk x)))

/-- 43_block.md R184, R186, R187: SBFWD gives block `(i,j)` the record of the quad at `(2i,2j)`, from `CV` to `BLK`; an odd
dimension raises PreconditionViolation. -/
def Obligations.BlockForwardTheArray : Prop :=
  (encode .sbfwd).op = 0x48 ∧
  (∀ s V, Running s → s.mem.cv = some V → V.Sized → 1 ≤ V.w → 1 ≤ V.h → V.w % 2 = 0 → V.h % 2 = 0 → ∃ B : Arr BlkRec,
    exec .sbfwd s = .next { s with mem := { s.mem with blk := some B, cv := none }, reply := .done } ∧
    B.Sized ∧ 2 * B.w = V.w ∧ 2 * B.h = V.h ∧ ∀ i j, i < B.w → j < B.h →
      exec (.bfwd (V.get (2 * i) (2 * j)) (V.get (2 * i + 1) (2 * j)) (V.get (2 * i) (2 * j + 1))
        (V.get (2 * i + 1) (2 * j + 1))) s = .next (s.complete (.blk (B.get i j)))) ∧
  (∀ s, Running s → (s.mem.cv = none ∨ ∃ V, s.mem.cv = some V ∧ (V.w = 0 ∨ V.h = 0 ∨ V.w % 2 = 1 ∨ V.h % 2 = 1)) →
    exec .sbfwd s = .next (s.takeFault .precond))

/-- 43_block.md R185: SBINV puts the four pixels of block `(i,j)` at the quad `(2i,2j)`, from `BLK` to `CV`. -/
def Obligations.BlockInverseTheArray : Prop :=
  (encode .sbinv).op = 0x49 ∧
  (∀ s B, Running s → s.mem.blk = some B → B.Sized → 1 ≤ B.w → 1 ≤ B.h → ∃ V : Arr CvPixel,
    exec .sbinv s = .next { s with mem := { s.mem with cv := some V, blk := none }, reply := .done } ∧
    V.Sized ∧ V.w = 2 * B.w ∧ V.h = 2 * B.h ∧ ∀ i j, i < B.w → j < B.h →
      exec (.binv (B.get i j)) s = .next (s.complete (.quad (V.get (2 * i) (2 * j)) (V.get (2 * i + 1) (2 * j))
        (V.get (2 * i) (2 * j + 1)) (V.get (2 * i + 1) (2 * j + 1))))) ∧
  (∀ s, Running s → (s.mem.blk = none ∨ ∃ B, s.mem.blk = some B ∧ (B.w = 0 ∨ B.h = 0)) →
    exec .sbinv s = .next (s.takeFault .precond))

/-- 43_block.md R182 over a whole array: SBFWD then SBINV leaves `CV` with the same dimensions and the same luma at every
place. -/
def Obligations.BlockArrayRoundTripKeepsLuma : Prop :=
  ∀ s V, Running s → s.mem.cv = some V → V.Sized → 1 ≤ V.w → 1 ≤ V.h → V.w % 2 = 0 → V.h % 2 = 0 →
    ∃ (t : State) (U : Arr CvPixel), exec .sbfwd s = .next t ∧
      exec .sbinv t = .next { s with mem := { s.mem with cv := some U, blk := none }, reply := .done } ∧
      U.w = V.w ∧ U.h = V.h ∧ ∀ col row, col < V.w → row < V.h → (U.get col row).y = (V.get col row).y

/-! ### Unit 5, the codeword assembler -/

/-- 44_codeword.md R200: CWASM's word when every field fits, bits 63:32 zero; OverflowError when any does not. -/
def Obligations.AssembleOneCodeword : Prop :=
  ∀ x s, Running s → (encode (.cwasm x)).op = 0x50 ∧
    (InRange x → ∃ w : Nat, exec (.cwasm x) s = .next (s.complete (.u64 w)) ∧ w < 2 ^ 32 ∧
      (w : Int) = x.qa * 2 ^ 26 + x.qb % 64 * 2 ^ 20 + x.qc % 64 * 2 ^ 14 + x.qd % 64 * 2 ^ 8 + x.ipb * 2 ^ 4 + x.ipr) ∧
    (¬ InRange x → exec (.cwasm x) s = .next (s.takeFault .overflow))

/-- 44_codeword.md R201, R203, 30_encoding.md R86: CWDIS, total: `a` and the indices zero-extended, `b`, `c`, `d`
sign-extended from their bits, bits 63:32 not read; every field in its range. -/
def Obligations.DisassembleOneCodeword : Prop :=
  ∀ word s, Running s → (encode (.cwdis word)).op = 0x51 ∧
    ∃ x : QRec, exec (.cwdis word) s = .next (s.complete (.qblk x)) ∧ InRange x ∧
      x.qa = ((word / 2 ^ 26 % 2 ^ 6 : Nat) : Int) ∧ x.ipb = ((word / 2 ^ 4 % 2 ^ 4 : Nat) : Int) ∧
      x.ipr = ((word % 2 ^ 4 : Nat) : Int) ∧
      x.qb % 64 = ((word / 2 ^ 20 % 2 ^ 6 : Nat) : Int) ∧ x.qc % 64 = ((word / 2 ^ 14 % 2 ^ 6 : Nat) : Int) ∧
      x.qd % 64 = ((word / 2 ^ 8 % 2 ^ 6 : Nat) : Int) ∧
      exec (.cwdis (word % 2 ^ 32)) s = exec (.cwdis word) s

/-- 44_codeword.md R202: CWASM and CWDIS invert each other between in-range records and 32-bit words. -/
def Obligations.CodewordRoundTrip : Prop :=
  (∀ x s, Running s → InRange x → ∃ w, exec (.cwasm x) s = .next (s.complete (.u64 w)) ∧
    exec (.cwdis w) s = .next (s.complete (.qblk x))) ∧
  (∀ word s, Running s → word < 2 ^ 32 → ∃ x, exec (.cwdis word) s = .next (s.complete (.qblk x)) ∧
    exec (.cwasm x) s = .next (s.complete (.u64 word)))

/-- 44_codeword.md R204: SCWASM puts each record's codeword at its place, from `QBLK` to `CWA`; a record with a field out of
range raises OverflowError, after the checks of the buffer. -/
def Obligations.AssembleTheArray : Prop :=
  (encode .scwasm).op = 0x58 ∧
  (∀ s Q, Running s → s.mem.qblk = some Q → Q.Sized → 1 ≤ Q.w → 1 ≤ Q.h → (∀ x ∈ Q.elems, InRange x) →
    ∃ C : Arr Codeword,
    exec .scwasm s = .next { s with mem := { s.mem with cwa := some C, qblk := none }, reply := .done } ∧
    C.Sized ∧ C.w = Q.w ∧ C.h = Q.h ∧ ∀ col row, col < Q.w → row < Q.h →
      exec (.cwasm (Q.get col row)) s = .next (s.complete (.u64 (C.get col row).toNat))) ∧
  (∀ s Q x, Running s → s.mem.qblk = some Q → 1 ≤ Q.w → 1 ≤ Q.h → x ∈ Q.elems → ¬ InRange x →
    exec .scwasm s = .next (s.takeFault .overflow)) ∧
  (∀ s, Running s → (s.mem.qblk = none ∨ ∃ Q, s.mem.qblk = some Q ∧ (Q.w = 0 ∨ Q.h = 0)) →
    exec .scwasm s = .next (s.takeFault .precond))

/-- 44_codeword.md R205: SCWDIS puts each codeword's record at its place, from `CWA` to `QBLK`; no element can fault. -/
def Obligations.DisassembleTheArray : Prop :=
  (encode .scwdis).op = 0x59 ∧
  (∀ s C, Running s → s.mem.cwa = some C → C.Sized → 1 ≤ C.w → 1 ≤ C.h → ∃ Q : Arr QRec,
    exec .scwdis s = .next { s with mem := { s.mem with qblk := some Q, cwa := none }, reply := .done } ∧
    Q.Sized ∧ Q.w = C.w ∧ Q.h = C.h ∧ (∀ x ∈ Q.elems, InRange x) ∧ ∀ col row, col < C.w → row < C.h →
      exec (.cwdis (C.get col row).toNat) s = .next (s.complete (.qblk (Q.get col row)))) ∧
  (∀ s, Running s → (s.mem.cwa = none ∨ ∃ C, s.mem.cwa = some C ∧ (C.w = 0 ∨ C.h = 0)) →
    exec .scwdis s = .next (s.takeFault .precond))

/-! ### Unit 6, the wire-format codec -/

/-- 20_memory.md R53: `MemRead` after `MemWrite` at the same place gives the value written, and no byte outside the place
changes; four bytes are read most significant first. -/
def Obligations.MemReadAfterMemWrite : Prop :=
  (∀ (s : List Byte) pos n v, pos + n ≤ s.length → v < 256 ^ n →
    memRead (memWrite s pos n v) pos n = v ∧ (memWrite s pos n v).length = s.length ∧
      ∀ k, k < pos ∨ pos + n ≤ k → (memWrite s pos n v)[k]? = s[k]?) ∧
  (∀ (s : List Byte) pos, pos + 4 ≤ s.length →
    memRead s pos 4 = (s.getD pos 0).toNat * 2 ^ 24 + (s.getD (pos + 1) 0).toNat * 2 ^ 16 +
      (s.getD (pos + 2) 0).toNat * 2 ^ 8 + (s.getD (pos + 3) 0).toNat)

/-- 45_wire.md R220 to R222, 30_encoding.md R93, R96: WWRITE's stream is the header for twice the array's dimensions, then each
codeword at offset `hlen + 4·(row·w + col)`, most significant byte first, and nothing after; its length is `hlen + 4·w·h`. The
magic is the ASCII of the spec's own line (R90), and `dec n` is the decimal spelling of `n` (00_scope.md R11): ASCII digits, the
most significant first, no leading zero, their base-10 value `n`. -/
def Obligations.WriteTheStream : Prop :=
  (encode .wwrite).op = 0x68 ∧
  dec 0 = [0x30] ∧
  (∀ n, (∀ b ∈ dec n, 0x30 ≤ b.toNat ∧ b.toNat ≤ 0x39) ∧ (1 ≤ n → ∃ b bs, dec n = b :: bs ∧ b ≠ 0x30) ∧
    (dec n).foldl (fun v b => 10 * v + (b.toNat - 0x30)) 0 = n) ∧
  (∀ s C, Running s → s.mem.cwa = some C → C.Sized → 1 ≤ C.w → 1 ≤ C.h → ∃ bs : List Byte,
    exec .wwrite s = .next { s with mem := { s.mem with strm := some bs, cwa := none }, reply := .done } ∧
    ("COMP40 Compressed image format 2".toList.map (fun c => BitVec.ofNat 8 c.toNat) ++ [0x0A] ++ dec (2 * C.w) ++ [0x20] ++
      dec (2 * C.h) ++ [0x0A]) <+: bs ∧
    bs.length = 35 + (dec (2 * C.w)).length + (dec (2 * C.h)).length + 4 * C.w * C.h ∧
    ∀ col row, col < C.w → row < C.h →
      memRead bs (35 + (dec (2 * C.w)).length + (dec (2 * C.h)).length + 4 * (row * C.w + col)) 4 =
        (C.get col row).toNat) ∧
  (∀ s, Running s → (s.mem.cwa = none ∨ ∃ C, s.mem.cwa = some C ∧ (C.w = 0 ∨ C.h = 0)) →
    exec .wwrite s = .next (s.takeFault .precond))

/-- 45_wire.md R225, R226, 30_encoding.md R95: after a header with dimensions `pw`, `ph` in `[1, DIM_MAX]`: an odd one raises
PreconditionViolation whatever follows; even ones with fewer than `pw·ph` body bytes raise TruncatedStreamError; with at
least as many, `CWA` gets the codewords of the body, and bytes after it are not read. An `EMPTY` buffer raises
PreconditionViolation (R223). -/
def Obligations.ReadTheStreamAfterAHeader : Prop :=
  (encode .wread).op = 0x69 ∧
  (∀ s pw ph rest, Running s → 1 ≤ pw → pw ≤ Config.dimMax → 1 ≤ ph → ph ≤ Config.dimMax →
    s.mem.strm = some (header pw ph ++ rest) →
    (pw % 2 = 1 ∨ ph % 2 = 1 → exec .wread s = .next (s.takeFault .precond)) ∧
    (pw % 2 = 0 → ph % 2 = 0 → rest.length < pw * ph → exec .wread s = .next (s.takeFault .trunc)) ∧
    (pw % 2 = 0 → ph % 2 = 0 → pw * ph ≤ rest.length → ∃ C : Arr Codeword,
      exec .wread s = .next { s with mem := { s.mem with cwa := some C, strm := none }, reply := .done } ∧
      C.Sized ∧ 2 * C.w = pw ∧ 2 * C.h = ph ∧ ∀ col row, col < C.w → row < C.h →
        (C.get col row).toNat = memRead (header pw ph ++ rest) (headerLength pw ph + 4 * (row * C.w + col)) 4)) ∧
  (∀ s, Running s → s.mem.strm = none → exec .wread s = .next (s.takeFault .precond))

/-- 45_wire.md R224: "at the first offset where something is wrong, if the stream has ended there the fault is
TruncatedStreamError, and if a byte is present but is not what the grammar … allows there … the fault is
PreconditionViolation"; a stream of zero bytes is truncated. What the grammar allows is said by the headers it has. -/
def Obligations.HeaderFaultsAtTheFirstWrongOffset : Prop :=
  (∀ s bs more, Running s → s.mem.strm = some bs → more ≠ [] → AcceptedHeader (bs ++ more) →
    exec .wread s = .next (s.takeFault .trunc)) ∧
  (∀ s good wrong rest, Running s → s.mem.strm = some (good ++ wrong :: rest) →
    (∃ more, more ≠ [] ∧ AcceptedHeader (good ++ more)) → (¬ ∃ more, AcceptedHeader (good ++ wrong :: more)) →
    exec .wread s = .next (s.takeFault .precond))

/-- 45_wire.md R228: WWRITE then WREAD leaves `CWA` as it was; WREAD then WWRITE reproduces the stream byte for byte exactly
when it had no trailing bytes. -/
def Obligations.WireRoundTrip : Prop :=
  (∀ s C, Running s → s.mem.cwa = some C → blockSized Config.dimMax C → 1 ≤ C.w → 1 ≤ C.h →
    ∃ t, exec .wwrite s = .next t ∧
      exec .wread t = .next { s with mem := { s.mem with strm := none }, reply := .done }) ∧
  (∀ s t bs C, Running s → s.mem.strm = some bs → exec .wread s = .next t → t.mem.cwa = some C → Running t →
    (exec .wwrite t = .next { s with mem := { s.mem with strm := some bs, cwa := none }, reply := .done } ↔
      bs.length = headerLength (2 * C.w) (2 * C.h) + 4 * C.w * C.h))

/-! ### Unit 7, the sequencer -/

/-- 46_pipeline.md R250: COMPRESS on a map that meets its preconditions leaves every buffer `EMPTY` but `STRM`, which holds
the header with the map's own dimensions and, row-major, the codeword of each quad: colour, block transform, quantizer,
assembler in this order. A map that does not meet them raises PreconditionViolation. -/
def Obligations.CompressThePixelMap : Prop :=
  (encode .compress).op = 0x78 ∧
  (∀ s P, Running s → s.mem.pix = some P → P.px.Sized → CompressReady P → ∃ C : Arr Codeword,
    exec .compress s = .next { s with
      mem := ⟨none, none, none, none, none, some (header P.px.w P.px.h ++ body C)⟩, reply := .done } ∧
    C.Sized ∧ 2 * C.w = P.px.w ∧ 2 * C.h = P.px.h ∧ ∀ i j, i < C.w → j < C.h →
      assemble (quantForward Config.chroma (blockForward (forwardPixel P (2 * i) (2 * j))
        (forwardPixel P (2 * i + 1) (2 * j)) (forwardPixel P (2 * i) (2 * j + 1))
        (forwardPixel P (2 * i + 1) (2 * j + 1)))) = .ok (C.get i j).toNat) ∧
  (∀ s, Running s → (s.mem.pix = none ∨ ∃ P, s.mem.pix = some P ∧ P.px.Sized ∧ ¬ CompressReady P) →
    exec .compress s = .next (s.takeFault .precond))

/-- 46_pipeline.md R251: DECOMPRESS of a stream with an accepted even header and enough body bytes leaves every buffer `EMPTY`
but `PIX`, a map of the header's dimensions with denominator 255, each pixel the colour inverse of its place in the quad of
its codeword's record. It faults exactly as WREAD does. -/
def Obligations.DecompressTheStream : Prop :=
  (encode .decompress).op = 0x79 ∧
  (∀ s pw ph rest, Running s → 1 ≤ pw → pw ≤ Config.dimMax → 1 ≤ ph → ph ≤ Config.dimMax → pw % 2 = 0 → ph % 2 = 0 →
    s.mem.strm = some (header pw ph ++ rest) → pw * ph ≤ rest.length → ∃ P : PixelMap,
    exec .decompress s = .next { s with mem := ⟨some P, none, none, none, none, none⟩, reply := .done } ∧
    P.denom.toNat = 255 ∧ P.px.Sized ∧ P.px.w = pw ∧ P.px.h = ph ∧ ∀ col row, col < pw → row < ph →
      ∃ b, b = quantInverseValue Config.chroma
          (disassemble (memRead rest (4 * (row / 2 * (pw / 2) + col / 2)) 4)) ∧
        P.px.get col row = colorInverse
          (if row % 2 = 0 then (if col % 2 = 0 then blockInverse1 b else blockInverse2 b)
            else (if col % 2 = 0 then blockInverse3 b else blockInverse4 b))) ∧
  (∀ s c, Running s →
    (exec .decompress s = .next (s.takeFault c) ↔ exec .wread s = .next (s.takeFault c)))

/-- 46_pipeline.md R252: COMPRESS and DECOMPRESS leave the same buffers and `STATUS` as the host issuing the five stage
commands one after another, from any state, faults included. -/
def Obligations.SequencerEqualsStageCommands : Prop :=
  (∀ s, coreOf (exec .compress s) =
    coreOf (andThen (andThen (andThen (andThen (exec .scfwd s) .sbfwd) .sqfwd) .scwasm) .wwrite)) ∧
  (∀ s, coreOf (exec .decompress s) =
    coreOf (andThen (andThen (andThen (andThen (exec .wread s) .scwdis) .sqinv) .sbinv) .scinv))

/-- 46_pipeline.md R254, its first half: compress-then-decompress of any even-dimensioned legal image within `DIM_MAX` yields
an image of identical width and height and denominator 255. No tolerance is stated: the source has none. -/
def Obligations.CompressThenDecompressKeepsDimensions : Prop :=
  ∀ s P, Running s → s.mem.pix = some P → pixelSized Config.dimMax P.px → CompressReady P →
    ∃ t P', exec .compress s = .next t ∧
      exec .decompress t = .next { s with mem := ⟨some P', none, none, none, none, none⟩, reply := .done } ∧
      P'.px.Sized ∧ P'.px.w = P.px.w ∧ P'.px.h = P.px.h ∧ P'.denom.toNat = 255
end

