-- ==== Sys2Proof/Laws/State.lean ====
section
/-! SUPPORT. What each named update of the state and of the memory does to each field: one lemma per field per update, so that no
proof unfolds a record update; and the values of the status register. -/

namespace Sys2Proof.Machine

/-! ### The status register (10_state.md R21) -/

@[simp] theorem faultStatus_precond : faultStatus .precond = 0x03 := rfl

@[simp] theorem faultStatus_overflow : faultStatus .overflow = 0x05 := rfl

@[simp] theorem faultStatus_trunc : faultStatus .trunc = 0x07 := rfl

theorem faultStatus_legal (c : Cause) : legalStatus (faultStatus c) := by cases c <;> decide

theorem faultStatus_injective {c d : Cause} (h : faultStatus c = faultStatus d) : c = d := by
  cases c <;> cases d <;> first | rfl | exact absurd h (by decide)

theorem faultStatus_bit (c : Cause) : (faultStatus c).getLsbD 0 = true := by cases c <;> decide

/-! ### Fault entry, refusal, completion -/

@[simp] theorem takeFault_status (c : Cause) (s : State) : (s.takeFault c).status = faultStatus c := rfl

@[simp] theorem takeFault_mem (c : Cause) (s : State) : (s.takeFault c).mem = Memory.empty := rfl

@[simp] theorem takeFault_inbox (c : Cause) (s : State) : (s.takeFault c).inbox = s.inbox := rfl

@[simp] theorem takeFault_reply (c : Cause) (s : State) : (s.takeFault c).reply = .faulted := rfl

@[simp] theorem takeFault_faulted (c : Cause) (s : State) : (s.takeFault c).faulted = true := faultStatus_bit c

@[simp] theorem refuse_status (s : State) : s.refuse.status = s.status := rfl

@[simp] theorem refuse_mem (s : State) : s.refuse.mem = s.mem := rfl

@[simp] theorem refuse_inbox (s : State) : s.refuse.inbox = s.inbox := rfl

@[simp] theorem refuse_reply (s : State) : s.refuse.reply = .refused := rfl

@[simp] theorem refuse_faulted (s : State) : s.refuse.faulted = s.faulted := rfl

@[simp] theorem complete_status (r : Result) (s : State) : (s.complete r).status = s.status := rfl

@[simp] theorem complete_mem (r : Result) (s : State) : (s.complete r).mem = s.mem := rfl

@[simp] theorem complete_inbox (r : Result) (s : State) : (s.complete r).inbox = s.inbox := rfl

@[simp] theorem complete_reply (r : Result) (s : State) : (s.complete r).reply = .result r := rfl

@[simp] theorem complete_faulted (r : Result) (s : State) : (s.complete r).faulted = s.faulted := rfl

@[simp] theorem finish_status (m : Memory) (s : State) : (s.finish m).status = s.status := rfl

@[simp] theorem finish_mem (m : Memory) (s : State) : (s.finish m).mem = m := rfl

@[simp] theorem finish_inbox (m : Memory) (s : State) : (s.finish m).inbox = s.inbox := rfl

@[simp] theorem finish_reply (m : Memory) (s : State) : (s.finish m).reply = .done := rfl

@[simp] theorem finish_faulted (m : Memory) (s : State) : (s.finish m).faulted = s.faulted := rfl

/-! ### The host's actions -/

@[simp] theorem resetCore_status (s : State) : s.resetCore.status = 0x00 := rfl

@[simp] theorem resetCore_mem (s : State) : s.resetCore.mem = Memory.empty := rfl

@[simp] theorem resetCore_inbox (s : State) : s.resetCore.inbox = s.inbox := rfl

@[simp] theorem resetCore_reply (s : State) : s.resetCore.reply = .nothing := rfl

@[simp] theorem resetCore_faulted (s : State) : s.resetCore.faulted = false := by
  show (0x00#8).getLsbD 0 = false
  decide

@[simp] theorem hostRead_status (b : BufName) (s : State) : (hostRead b s).status = s.status := rfl

@[simp] theorem hostRead_mem (b : BufName) (s : State) : (hostRead b s).mem = s.mem := rfl

@[simp] theorem hostRead_inbox (b : BufName) (s : State) : (hostRead b s).inbox = s.inbox := rfl

@[simp] theorem hostRead_reply (b : BufName) (s : State) : (hostRead b s).reply = .content (s.mem.read b) := rfl

@[simp] theorem hostStatus_status (s : State) : (hostStatus s).status = s.status := rfl

@[simp] theorem hostStatus_mem (s : State) : (hostStatus s).mem = s.mem := rfl

@[simp] theorem hostStatus_inbox (s : State) : (hostStatus s).inbox = s.inbox := rfl

@[simp] theorem hostStatus_reply (s : State) : (hostStatus s).reply = .status s.readStatus := rfl

@[simp] theorem pop_status (s : State) : s.pop.status = s.status := rfl

@[simp] theorem pop_mem (s : State) : s.pop.mem = s.mem := rfl

@[simp] theorem pop_inbox (s : State) : s.pop.inbox = s.inbox.drop 1 := rfl

@[simp] theorem pop_reply (s : State) : s.pop.reply = s.reply := rfl

@[simp] theorem pop_faulted (s : State) : s.pop.faulted = s.faulted := rfl

@[simp] theorem push_status (c : Command) (s : State) : (s.push c).status = s.status := rfl

@[simp] theorem push_mem (c : Command) (s : State) : (s.push c).mem = s.mem := rfl

@[simp] theorem push_inbox (c : Command) (s : State) : (s.push c).inbox = .issue c :: s.inbox := rfl

@[simp] theorem push_reply (c : Command) (s : State) : (s.push c).reply = s.reply := rfl

/-! ### The buffers -/

@[simp] theorem empty_read (b : BufName) : Memory.empty.read b = none := by cases b <;> rfl

/-- A load fills the buffer its value belongs to and leaves the others (60_exceptions.md R292). -/
theorem load_read (m : Memory) (v : BufVal) (b : BufName) :
    (m.load v).read b = if b = v.name then some v else m.read b := by
  cases v <;> cases b <;> rfl

end Sys2Proof.Machine
end

