-- ==== Sys2Proof/Laws/Ops.lean ====
section
/-! SUPPORT. What each shared operation can do, said once: the two ways a command ends, the checks, the traversal, the array
operations, and that every memory operation keeps the canonical form of memory. -/

namespace Sys2Proof.Machine

/-! ### The two ways a command ends -/

theorem runF_refused {s : State} (h : s.faulted = true) (r : Except Cause Result) : runF r s = .next s.refuse := by
  simp [runF, h]

theorem runF_ok {s : State} (h : s.faulted = false) (v : Result) : runF (.ok v) s = .next (s.complete v) := by
  simp [runF, h]

theorem runF_error {s : State} (h : s.faulted = false) (c : Cause) : runF (.error c) s = .next (s.takeFault c) := by
  simp [runF, h]

/-- Everything an F-form command can do: it is refused, completes with its result, or takes its fault. -/
theorem runF_cases (r : Except Cause Result) (s : State) :
    (s.faulted = true ∧ runF r s = .next s.refuse) ∨
    (s.faulted = false ∧ ∃ v, r = .ok v ∧ runF r s = .next (s.complete v)) ∨
    (s.faulted = false ∧ ∃ c, r = .error c ∧ runF r s = .next (s.takeFault c)) := by
  cases h : s.faulted with
  | true => exact .inl ⟨rfl, runF_refused h r⟩
  | false =>
    cases r with
    | ok v => exact .inr (.inl ⟨rfl, v, rfl, runF_ok h v⟩)
    | error c => exact .inr (.inr ⟨rfl, c, rfl, runF_error h c⟩)

theorem runS_refused {s : State} (h : s.faulted = true) (f : Memory → Except Cause Memory) :
    runS f s = .next s.refuse := by
  simp [runS, h]

theorem runS_ok {s : State} {f : Memory → Except Cause Memory} {m : Memory} (h : s.faulted = false)
    (hf : f s.mem = .ok m) : runS f s = .next (s.finish m) := by
  simp [runS, h, hf]

theorem runS_error {s : State} {f : Memory → Except Cause Memory} {c : Cause} (h : s.faulted = false)
    (hf : f s.mem = .error c) : runS f s = .next (s.takeFault c) := by
  simp [runS, h, hf]

/-- Everything an S-form command can do: it is refused, completes with its stage's buffers, or takes its stage's fault. -/
theorem runS_cases (f : Memory → Except Cause Memory) (s : State) :
    (s.faulted = true ∧ runS f s = .next s.refuse) ∨
    (s.faulted = false ∧ ∃ m, f s.mem = .ok m ∧ runS f s = .next (s.finish m)) ∨
    (s.faulted = false ∧ ∃ c, f s.mem = .error c ∧ runS f s = .next (s.takeFault c)) := by
  cases h : s.faulted with
  | true => exact .inl ⟨rfl, runS_refused h f⟩
  | false =>
    cases hf : f s.mem with
    | ok m => exact .inr (.inl ⟨rfl, m, rfl, runS_ok h hf⟩)
    | error c => exact .inr (.inr ⟨rfl, c, rfl, runS_error h hf⟩)

/-! ### Checks -/

theorem bind_ok {α β : Type} {x : Except Cause α} {f : α → Except Cause β} {b : β} :
    (x >>= f) = .ok b ↔ ∃ a, x = .ok a ∧ f a = .ok b := by
  cases x <;> simp [bind, Except.bind]

theorem bind_error {α β : Type} {x : Except Cause α} {f : α → Except Cause β} {c : Cause} :
    (x >>= f) = .error c ↔ x = .error c ∨ ∃ a, x = .ok a ∧ f a = .error c := by
  cases x <;> simp [bind, Except.bind]

@[simp] theorem bind_of_ok {α β : Type} (a : α) (f : α → Except Cause β) : ((.ok a : Except Cause α) >>= f) = f a := rfl

@[simp] theorem bind_of_error {α β : Type} (c : Cause) (f : α → Except Cause β) :
    ((.error c : Except Cause α) >>= f) = .error c := rfl

@[simp] theorem pure_eq_ok {α : Type} (a : α) : (pure a : Except Cause α) = .ok a := rfl

@[simp] theorem map_ok {α β : Type} (f : α → β) (a : α) : (Except.ok a : Except Cause α).map f = .ok (f a) := rfl

@[simp] theorem map_error {α β : Type} (f : α → β) (c : Cause) : (Except.error c : Except Cause α).map f = .error c := rfl

theorem require_ok {p : Prop} [Decidable p] {u : Unit} : require p = .ok u ↔ p := by
  by_cases h : p <;> simp [require, h]

theorem require_error {p : Prop} [Decidable p] {c : Cause} : require p = .error c ↔ ¬ p ∧ c = .precond := by
  by_cases h : p <;> simp [require, h, eq_comm]

theorem require_true {p : Prop} [Decidable p] (h : p) : require p = .ok () := by simp [require, h]

theorem require_false {p : Prop} [Decidable p] (h : ¬ p) : require p = .error .precond := by simp [require, h]

/-- The input buffer's checks pass exactly on an array with no zero dimension (10_state.md R31, decision D17). -/
theorem inputArr_ok {α : Type} {buf : Option (Arr α)} {A : Arr α} :
    inputArr buf = .ok A ↔ buf = some A ∧ 1 ≤ A.w ∧ 1 ≤ A.h := by
  cases buf with
  | none => simp [inputArr]
  | some B =>
    unfold inputArr
    constructor
    · intro e
      dsimp only at e
      split at e <;> cases e
      exact ⟨rfl, ‹_›⟩
    · rintro ⟨e, h⟩
      cases e
      simp [h]

/-- The input buffer's checks can fail in one way only. -/
theorem inputArr_error {α : Type} {buf : Option (Arr α)} {c : Cause} (h : inputArr buf = .error c) : c = .precond := by
  unfold inputArr at h
  split at h
  · cases h; rfl
  · split at h <;> cases h; rfl

theorem inputPix_ok {buf : Option PixelMap} {P : PixelMap} :
    inputPix buf = .ok P ↔ buf = some P ∧ 1 ≤ P.px.w ∧ 1 ≤ P.px.h := by
  cases buf with
  | none => simp [inputPix]
  | some B =>
    unfold inputPix
    constructor
    · intro e
      dsimp only at e
      split at e <;> cases e
      exact ⟨rfl, ‹_›⟩
    · rintro ⟨e, h⟩
      cases e
      simp [h]

theorem inputPix_error {buf : Option PixelMap} {c : Cause} (h : inputPix buf = .error c) : c = .precond := by
  unfold inputPix at h
  split at h
  · cases h; rfl
  · split at h <;> cases h; rfl

/-! ### Traversal and arrays -/

/-- A traversal succeeds exactly when every element does, and then element by element (20_memory.md R62). -/
theorem traverse_ok {α β : Type} {f : α → Except Cause β} {xs : List α} {ys : List β} :
    traverse f xs = .ok ys ↔ List.Forall₂ (fun x y => f x = .ok y) xs ys := by
  induction xs generalizing ys with
  | nil => simp [traverse, eq_comm]
  | cons x xs ih =>
    simp only [traverse, List.forall₂_cons_left_iff]
    cases hx : f x with
    | error c => simp
    | ok y =>
      cases ht : traverse f xs with
      | error c =>
        simp only [false_iff, reduceCtorEq]
        rintro ⟨b, u, hb, hu, rfl⟩
        rw [← ih, ht] at hu
        cases hu
      | ok zs =>
        constructor
        · intro h
          cases h
          exact ⟨y, zs, rfl, ih.mp ht, rfl⟩
        · rintro ⟨b, u, hb, hu, rfl⟩
          cases hb
          rw [← ih, ht] at hu
          cases hu
          rfl

/-- A traversal that fails does so with the fault of one of its elements. -/
theorem traverse_error {α β : Type} {f : α → Except Cause β} {xs : List α} {c : Cause}
    (h : traverse f xs = .error c) : ∃ x ∈ xs, f x = .error c := by
  induction xs with
  | nil => cases h
  | cons x xs ih =>
    simp only [traverse] at h
    cases hx : f x with
    | error d => rw [hx] at h; cases h; exact ⟨x, by simp, hx⟩
    | ok y =>
      rw [hx] at h
      cases ht : traverse f xs with
      | error d =>
        rw [ht] at h
        cases h
        obtain ⟨z, hz, e⟩ := ih ht
        exact ⟨z, by simp [hz], e⟩
      | ok zs => rw [ht] at h; cases h

/-- A traversal over an element computation that succeeds everywhere is a map. -/
theorem traverse_of_forall {α β : Type} {f : α → Except Cause β} {g : α → β} {xs : List α}
    (h : ∀ x ∈ xs, f x = .ok (g x)) : traverse f xs = .ok (xs.map g) := by
  induction xs with
  | nil => rfl
  | cons x xs ih =>
    simp only [traverse, h x (by simp), ih fun y hy => h y (by simp [hy]), List.map_cons]

theorem mapE_ok {α β : Type} {f : α → Except Cause β} {A : Arr α} {B : Arr β} :
    A.mapE f = .ok B ↔ B.w = A.w ∧ B.h = A.h ∧ List.Forall₂ (fun x y => f x = .ok y) A.elems B.elems := by
  unfold Arr.mapE
  rw [← traverse_ok]
  cases ht : traverse f A.elems with
  | error c => simp
  | ok ys =>
    cases B
    simp only [Except.ok.injEq, Arr.mk.injEq, eq_comm]

theorem mapE_error {α β : Type} {f : α → Except Cause β} {A : Arr α} {c : Cause} (h : A.mapE f = .error c) :
    ∃ x ∈ A.elems, f x = .error c := by
  unfold Arr.mapE at h
  cases ht : traverse f A.elems with
  | error d => rw [ht] at h; cases h; exact traverse_error ht
  | ok ys => rw [ht] at h; cases h

theorem mapE_of_forall {α β : Type} {f : α → Except Cause β} {g : α → β} {A : Arr α}
    (h : ∀ x ∈ A.elems, f x = .ok (g x)) : A.mapE f = .ok (A.map g) := by
  simp [Arr.mapE, Arr.map, traverse_of_forall h]

@[simp] theorem map_w {α β : Type} (f : α → β) (A : Arr α) : (A.map f).w = A.w := rfl

@[simp] theorem map_h {α β : Type} (f : α → β) (A : Arr α) : (A.map f).h = A.h := rfl

@[simp] theorem tabulate_w {α : Type} (w h : Nat) (f : Nat → Nat → α) : (Arr.tabulate w h f).w = w := rfl

@[simp] theorem tabulate_h {α : Type} (w h : Nat) (f : Nat → Nat → α) : (Arr.tabulate w h f).h = h := rfl

theorem map_sized {α β : Type} {f : α → β} {A : Arr α} (h : A.Sized) : (A.map f).Sized := by
  simpa [Arr.Sized, Arr.map] using h

theorem mapE_sized {α β : Type} {f : α → Except Cause β} {A : Arr α} {B : Arr β} (h : A.Sized)
    (hB : A.mapE f = .ok B) : B.Sized := by
  obtain ⟨hw, hh, he⟩ := mapE_ok.mp hB
  simpa [Arr.Sized, hw, hh] using he.length_eq ▸ h

theorem tabulate_sized {α : Type} (w h : Nat) (f : Nat → Nat → α) : (Arr.tabulate w h f).Sized := by
  simp [Arr.Sized, Arr.tabulate]

/-- A place of a sized array has an index within its elements (20_memory.md R51). -/
theorem index_lt {w h col row : Nat} (hc : col < w) (hr : row < h) : row * w + col < w * h := by
  calc row * w + col < row * w + w := by omega
    _ = (row + 1) * w := by ring
    _ ≤ h * w := Nat.mul_le_mul_right w hr
    _ = w * h := by ring

/-- The element of a tabulated array at a place is the tabulated function's value there. -/
theorem tabulate_get {α : Type} [Inhabited α] {w h col row : Nat} (f : Nat → Nat → α) (hc : col < w) (hr : row < h) :
    (Arr.tabulate w h f).get col row = f col row := by
  have hw : 0 < w := by omega
  have hdiv : (row * w + col) / w = row := by
    rw [Nat.mul_comm, Nat.mul_add_div hw, Nat.div_eq_of_lt hc, Nat.add_zero]
  have hmod : (row * w + col) % w = col := by
    rw [Nat.mul_comm, Nat.mul_add_mod, Nat.mod_eq_of_lt hc]
  simp [Arr.get, Arr.tabulate, List.getD_eq_getElem?_getD, index_lt hc hr, hdiv, hmod]

/-- Mapping a sized array maps the element at every place. -/
theorem map_get {α β : Type} [Inhabited α] [Inhabited β] {f : α → β} {A : Arr α} {col row : Nat} (h : A.Sized)
    (hc : col < A.w) (hr : row < A.h) : (A.map f).get col row = f (A.get col row) := by
  have hi : row * A.w + col < A.elems.length := h ▸ index_lt hc hr
  simp [Arr.get, Arr.map, List.getD_eq_getElem?_getD, hi]

/-- A place of a sized array holds one of its elements. -/
theorem get_mem {α : Type} [Inhabited α] {A : Arr α} {col row : Nat} (h : A.Sized) (hc : col < A.w) (hr : row < A.h) :
    A.get col row ∈ A.elems := by
  have hi : row * A.w + col < A.elems.length := h ▸ index_lt hc hr
  simp [Arr.get, List.getD_eq_getElem?_getD, hi]

/-- A traversal of a sized array computes the element at every place. -/
theorem mapE_get {α β : Type} [Inhabited α] [Inhabited β] {f : α → Except Cause β} {A : Arr α} {B : Arr β}
    {col row : Nat} (h : A.Sized) (hB : A.mapE f = .ok B) (hc : col < A.w) (hr : row < A.h) :
    f (A.get col row) = .ok (B.get col row) := by
  obtain ⟨hw, hh, he⟩ := mapE_ok.mp hB
  have hi : row * A.w + col < A.elems.length := h ▸ index_lt hc hr
  have hj : row * A.w + col < B.elems.length := he.length_eq ▸ hi
  have := List.Forall₂.get he hi hj
  simpa [Arr.get, hw, List.getD_eq_getElem?_getD, hi, hj] using this

/-! ### The canonical form of memory (10_state.md R24) -/

theorem wfFor_iff {d : Nat} {m : Memory} :
    m.wfFor d = true ↔ ∀ b v, m.read b = some v → v.ok d = true := by
  simp only [Memory.wfFor, List.all_eq_true, Option.all_eq_true]
  constructor
  · intro h b v hv
    exact h b (by cases b <;> simp) v (by simpa using hv)
  · intro h b _ v hv
    exact h b v (by simpa using hv)

theorem empty_wfFor (d : Nat) : Memory.empty.wfFor d = true := rfl

/-- A load of a value of the buffer's type keeps the form. -/
theorem load_wfFor {d : Nat} {m : Memory} {v : BufVal} (h : m.wfFor d = true) (hv : v.ok d = true) :
    (m.load v).wfFor d = true := by
  rw [wfFor_iff] at h ⊢
  intro b u hu
  rw [load_read] at hu
  split at hu
  · cases hu; exact hv
  · exact h b u hu

/-- The form, buffer by buffer. -/
theorem wfFor_parts {d : Nat} {m : Memory} :
    m.wfFor d = true ↔ (∀ P, m.pix = some P → pixelSized d P.px) ∧ (∀ A, m.cv = some A → pixelSized d A) ∧
      (∀ A, m.blk = some A → blockSized d A) ∧ (∀ A, m.qblk = some A → blockSized d A) ∧
      (∀ A, m.cwa = some A → blockSized d A) := by
  rw [wfFor_iff]
  constructor
  · intro h
    refine ⟨fun P e => ?_, fun A e => ?_, fun A e => ?_, fun A e => ?_, fun A e => ?_⟩
    · simpa [BufVal.ok] using h .pix (.pix P) (by simp [Memory.read, e])
    · simpa [BufVal.ok] using h .cv (.cv A) (by simp [Memory.read, e])
    · simpa [BufVal.ok] using h .blk (.blk A) (by simp [Memory.read, e])
    · simpa [BufVal.ok] using h .qblk (.qblk A) (by simp [Memory.read, e])
    · simpa [BufVal.ok] using h .cwa (.cwa A) (by simp [Memory.read, e])
  · rintro ⟨h1, h2, h3, h4, h5⟩ b v hv
    cases b <;> simp only [Memory.read, Option.map_eq_some_iff] at hv <;> obtain ⟨A, e, rfl⟩ := hv
    · simpa [BufVal.ok] using h1 A e
    · simpa [BufVal.ok] using h2 A e
    · simpa [BufVal.ok] using h3 A e
    · simpa [BufVal.ok] using h4 A e
    · simpa [BufVal.ok] using h5 A e
    · rfl

end Sys2Proof.Machine
end

