-- ==== Sys2Proof/Laws/Arith.lean ====
section
/-! SUPPORT. The helpers of 00_scope.md R11 on ℚ,
    and the element functions of the quantizer and the colour transform over them. -/

namespace Sys2Proof.Machine

/-- `floor` is the library's. -/
theorem floorQ_eq (x : ℚ) : floorQ x = ⌊x⌋ := rfl

/-- `clamp` is the nearest value of the interval. -/
theorem clamp_eq {x lo hi : ℚ} (h : lo ≤ hi) : clamp x lo hi = max lo (min x hi) := by
  unfold clamp
  split
  · rw [min_eq_left (by linarith), max_eq_left (by linarith)]
  · split
    · rw [min_eq_right (by linarith), max_eq_right h]
    · rw [min_eq_left (by linarith), max_eq_right (by linarith)]

/-- `rnd` is within one half. -/
theorem rnd_spec (x : ℚ) : (rnd x : ℚ) - 1/2 ≤ x ∧ x ≤ rnd x + 1/2 := by
  unfold rnd; simp only [floorQ_eq]
  split
  · have := Int.floor_le (x + 1/2); have := Int.lt_floor_add_one (x + 1/2); constructor <;> linarith
  · have := Int.floor_le (-x + 1/2); have := Int.lt_floor_add_one (-x + 1/2); push_cast; constructor <;> linarith

theorem rnd_pos {x : ℚ} (h : 0 ≤ x) : (rnd x : ℚ) ≤ x + 1/2 ∧ x + 1/2 < rnd x + 1 ∧ 0 ≤ rnd x := by
  unfold rnd; simp only [floorQ_eq, if_pos h]
  exact ⟨Int.floor_le _, Int.lt_floor_add_one _, Int.floor_nonneg.mpr (by linarith)⟩

theorem rnd_neg {x : ℚ} (h : x < 0) : -(rnd x : ℚ) ≤ -x + 1/2 ∧ -x + 1/2 < -(rnd x:ℚ) + 1 ∧ rnd x ≤ 0 := by
  unfold rnd; simp only [floorQ_eq, if_neg (not_le.mpr h)]
  have := Int.floor_nonneg.mpr (show (0:ℚ) ≤ -x + 1/2 by linarith)
  refine ⟨?_, ?_, by omega⟩
  · push_cast; have := Int.floor_le (-x + 1/2); linarith
  · push_cast; have := Int.lt_floor_add_one (-x + 1/2); linarith

/-- `rnd` of an integer. -/
theorem rnd_int (k : ℤ) : rnd (k : ℚ) = k := by
  have := rnd_spec k
  have a : (rnd (k:ℚ) : ℚ) - 1/2 ≤ k := this.1
  have b := this.2
  have h1 : (rnd (k:ℚ)) < k + 1 := by
    have : (rnd (k:ℚ) : ℚ) < k + 1 := by linarith
    exact_mod_cast this
  have h2 : k < rnd (k:ℚ) + 1 := by
    have : (k : ℚ) < rnd (k:ℚ) + 1 := by linarith
    exact_mod_cast this
  omega

/-- R140 for a difference coefficient. -/
theorem diffCode_eq (x : ℚ) : diffCode x = rnd (100 * clamp x (-3 / 10) (3 / 10)) := by
  unfold diffCode Config.bcdScale Config.bcdLim; congr 3; norm_num

theorem clamp_lim_range (x) : (-3/10 : ℚ) ≤ clamp x (-3 / 10) (3 / 10) ∧ clamp x (-3 / 10) (3 / 10) ≤ 3/10 := by
  rw [clamp_eq (by norm_num)]
  exact ⟨le_max_left _ _, max_le (by norm_num) (min_le_right _ _)⟩

/-- R150 for a difference code. -/
theorem diffCode_range (x) : -30 ≤ diffCode x ∧ diffCode x ≤ 30 := by
  rw [diffCode_eq]
  obtain ⟨a, b⟩ := clamp_lim_range x
  have h := rnd_spec (100 * clamp x (-3 / 10) (3 / 10))
  constructor
  · have : (-31:ℚ) < rnd (100 * clamp x (-3 / 10) (3 / 10)) := by linarith [h.2]
    have : (-31:ℤ) < rnd (100 * clamp x (-3 / 10) (3 / 10)) := by exact_mod_cast this
    omega
  · have : (rnd (100 * clamp x (-3 / 10) (3 / 10)) : ℚ) < 31 := by linarith [h.1]
    have : rnd (100 * clamp x (-3 / 10) (3 / 10)) < (31:ℤ) := by exact_mod_cast this
    omega

theorem rnd_le_iff (x : ℚ) (h : 0 ≤ x) (k : ℤ) : rnd x ≤ k ↔ x < k + 1/2 := by
  unfold rnd; rw [if_pos h, floorQ_eq]
  rw [← Int.lt_add_one_iff, Int.floor_lt]; push_cast; constructor <;> intro h <;> linarith

theorem rnd_nonneg_iff (x : ℚ) : 0 ≤ rnd x ↔ -1/2 < x := by
  rcases le_or_gt 0 x with h | h
  · exact ⟨fun _ => by linarith, fun _ => (rnd_pos h).2.2⟩
  · unfold rnd; rw [if_neg (not_le.mpr h), floorQ_eq]
    have : 0 ≤ -⌊-x + 1/2⌋ ↔ ⌊-x+1/2⌋ < 1 := by omega
    rw [this, Int.floor_lt]; push_cast; constructor <;> intro h <;> linarith

/-- When a code fits six bits (R150). -/
theorem rnd_range_iff (x : ℚ) : (0 ≤ rnd x ∧ rnd x ≤ 63) ↔ (-1/2 < x ∧ x < 63 + 1/2) := by
  rw [rnd_nonneg_iff]
  rcases le_or_gt 0 x with h | h
  · rw [rnd_le_iff x h]; push_cast; rfl
  · refine and_congr_right fun _ => ⟨fun _ => by linarith, fun _ => by have := (rnd_neg h).2.2; omega⟩

/-- R141 for a difference code. -/
theorem diffValue_eq (q : Int) : diffValue q = clamp (q / 100) (-3/10) (3/10) := by
  unfold diffValue Config.bcdScale Config.bcdLim; congr 1; norm_num

/-- A forward code survives the inverse and the forward path. -/
theorem diffCode_diffValue {q : Int} (h : -30 ≤ q ∧ q ≤ 30) : diffCode (diffValue q) = q := by
  rw [diffCode_eq, diffValue_eq]
  have a : (-30:ℚ) ≤ q := by exact_mod_cast h.1
  have b : (q:ℚ) ≤ 30 := by exact_mod_cast h.2
  have : ∀ x : ℚ, -3/10 ≤ x → x ≤ 3/10 → clamp x (-3/10) (3/10) = x := by
    intro x h1 h2; rw [clamp_eq (by norm_num), min_eq_left h2, max_eq_right h1]
  rw [this (q/100) (by linarith) (by linarith), this (q/100) (by linarith) (by linarith)]
  rw [show (100:ℚ) * (q/100) = q by ring, rnd_int]

/-- R141, an index out of range. -/
theorem quantInverse_error {ch x} (h : x.ipb < 0 ∨ 15 < x.ipb ∨ x.ipr < 0 ∨ 15 < x.ipr) : quantInverse ch x = .error .precond := by
  unfold quantInverse isIndex; rw [if_neg (by omega)]

/-- QINV raises nothing else. -/
theorem quantInverse_cause {ch x d} (h : quantInverse ch x = .error d) : d = .precond := by
  unfold quantInverse at h; split at h <;> cases h; rfl

theorem fin_ofNat_val {i : Int} (h0 : 0 ≤ i) (h : i ≤ 15) : ((Fin.ofNat 16 i.toNat).val : Int) = i := by
  simp [Fin.ofNat]; omega

/-- R166. -/
theorem colorForward_error {r g b denom : Byte} (h : ¬ (1 ≤ denom.toNat ∧ r.toNat ≤ denom.toNat ∧ g.toNat ≤ denom.toNat ∧
    b.toNat ≤ denom.toNat)) : colorForward r g b denom = .error .precond := by
  unfold colorForward; rw [require_false h]; rfl

/-- One output channel of R161. -/
theorem channelOut_eq (x : ℚ) : ((channelOut x).toNat : Int) = ⌊255 * max 0 (min x 1)⌋ := by
  unfold channelOut
  rw [clamp_eq (by norm_num)]
  have h0 : (0:ℚ) ≤ max 0 (min x 1) := le_max_left _ _
  have h1 : max 0 (min x 1) ≤ (1:ℚ) := max_le (by norm_num) (min_le_right _ _)
  set m := max 0 (min x 1)
  have : ((Config.outDenom.toNat : ℕ) : ℚ) = 255 := by
    have : Config.outDenom.toNat = 255 := by decide
    rw [this]; norm_num
  rw [this]; unfold truncQ; rw [if_pos (by linarith), floorQ_eq]
  have f0 : 0 ≤ ⌊255 * m⌋ := Int.floor_nonneg.mpr (by linarith)
  have f1 : ⌊255 * m⌋ < 256 := Int.floor_lt.mpr (by push_cast; linarith)
  rw [BitVec.toNat_ofNat]; omega

/-- CFWD raises nothing else. -/
theorem colorForward_cause {r g b d : Byte} {c} (h : colorForward r g b d = .error c) : c = .precond := by
  unfold colorForward at h
  rw [bind_error] at h
  rcases h with h | ⟨a, -, h⟩
  · exact (require_error.mp h).2
  · cases h

end Sys2Proof.Machine
end

