-- ==== Sys2Proof/Laws/BitField.lean ====
section
/-! SUPPORT. The bit-field functions of 40_bitfield.md, said once each: the fit tests, the extractors, the inserters,
    bit by bit. -/

namespace Sys2Proof.Machine

/-- R111. -/
theorem fitsUnsigned_iff (v : Int) (width) : fitsUnsigned v width = true ↔ 0 ≤ v ∧ v < 2 ^ width := by
  simp [fitsUnsigned]

/-- R112, width 0 included. -/
theorem fitsSigned_iff (v : Int) (width) : fitsSigned v width = true ↔ 1 ≤ width ∧ -2 ^ (width - 1) ≤ v ∧
    v ≤ 2 ^ (width - 1) - 1 := by
  unfold fitsSigned
  split
  · subst ‹width = 0›; simp [Config.fitsSignedWidth0]
  · simp; omega

/-- The requirement of R117 holds. -/
theorem requireField_ok {width lsb} (h1 : width ≤ 64) (h2 : width + lsb ≤ 64) : requireField width lsb = .ok () :=
    require_true ⟨h1, h2⟩

/-- The requirement of R117 fails. -/
theorem requireField_error {width lsb} (h : 64 < width ∨ 64 < width + lsb) : requireField width lsb = .error .precond :=
    require_false (by simp [Config.word]; omega)

/-- R113 without its case for width 0. -/
theorem getUnsigned_eq (word width lsb) : getUnsigned word width lsb = word / 2 ^ lsb % 2 ^ width := by
  unfold getUnsigned; split
  · subst ‹width = 0›; simp [Nat.mod_one]
  · rfl

/-- R113, bit by bit. -/
theorem getUnsigned_testBit (word width lsb i) : (getUnsigned word width lsb).testBit i = (decide (i < width) && word.testBit (lsb + i)) := by
  rw [getUnsigned_eq, Nat.testBit_mod_two_pow, Nat.testBit_div_two_pow, Nat.add_comm]

/-- The result of R113 is in `[0, 2^width - 1]`. -/
theorem getUnsigned_lt (word width lsb) : getUnsigned word width lsb < 2 ^ width := by
  rw [getUnsigned_eq]; exact Nat.mod_lt _ (by positivity)

theorem two_pow_pred (width : Nat) (h : 1 ≤ width) : (2:Nat) ^ width = 2 * 2 ^ (width - 1) := by
  obtain ⟨k, rfl⟩ : ∃ k, width = k + 1 := ⟨width - 1, by omega⟩
  simp [pow_succ]; ring

/-- R114. -/
theorem getSigned_eq (word lsb) {width : Nat} (h : 1 ≤ width) : getSigned word width lsb = if 2 ^ (width - 1) ≤ getUnsigned word width lsb then ((getUnsigned word width lsb : Nat) : Int) - 2 ^ width else (getUnsigned word width lsb : Nat) := by
  unfold getSigned; rw [if_neg (by omega)]; unfold sext
  split <;> split <;> first | rfl | omega

/-- The range of the result of R114. -/
theorem getSigned_range (word lsb) {width : Nat} (h : 1 ≤ width) : -2 ^ (width - 1) ≤ getSigned word width lsb ∧
    getSigned word width lsb ≤ 2 ^ (width - 1) - 1 := by
  rw [getSigned_eq _ _ h]
  have := getUnsigned_lt word width lsb
  have e := two_pow_pred width h
  have e' : (2:Int) ^ width = 2 * 2 ^ (width - 1) := by exact_mod_cast e
  have c : ((2 ^ (width - 1) : Nat) : Int) = 2 ^ (width - 1) := by simp
  split <;> constructor <;> omega

/-- The low `width` bits of the result of R114 are the field. -/
theorem getSigned_emod (word lsb) {width : Nat} (h : 1 ≤ width) : getSigned word width lsb % 2 ^ width = (getUnsigned word width lsb : Nat) := by
  have := getUnsigned_lt word width lsb
  have e : (getUnsigned word width lsb : Int) < 2 ^ width := by exact_mod_cast this
  rw [getSigned_eq _ _ h]; split
  · rw [Int.sub_emod_right]; exact Int.emod_eq_of_lt (by omega) e
  · exact Int.emod_eq_of_lt (by omega) e

/-- R115, bit by bit: the field at its place, every other bit as it was. -/
theorem insertField_testBit (word width lsb f) (hf : f < 2 ^ width) (i) : (insertField word width lsb f).testBit i = if lsb ≤ i ∧ i < lsb + width then f.testBit (i - lsb) else word.testBit i := by
  unfold insertField
  split
  · subst ‹width = 0›; rw [if_neg (by omega)]
  · rw [getUnsigned_eq]
    -- word = hi * 2^(lsb+width) + mid * 2^lsb + lo
    have h1 : word = 2 ^ (lsb + width) * (word / 2 ^ (lsb + width)) + (2 ^ lsb * (word / 2 ^ lsb % 2 ^ width) + word % 2 ^ lsb) := by
      conv_lhs => rw [← Nat.div_add_mod word (2 ^ lsb), ← Nat.div_add_mod (word / 2 ^ lsb) (2 ^ width)]
      rw [Nat.div_div_eq_div_mul, ← pow_add]; ring
    have e : word - word / 2 ^ lsb % 2 ^ width * 2 ^ lsb + f * 2 ^ lsb = 2 ^ (lsb + width) * (word / 2 ^ (lsb + width)) + (2 ^ lsb * f + word % 2 ^ lsb) := by
      have : word - word / 2 ^ lsb % 2 ^ width * 2 ^ lsb = 2 ^ (lsb + width) * (word / 2 ^ (lsb + width)) + word % 2 ^ lsb := by
        conv_lhs => lhs; rw [h1]
        rw [Nat.mul_comm (2 ^ lsb) (_ % _)]; omega
      rw [this]; ring
    have lo : word % 2 ^ lsb < 2 ^ lsb := Nat.mod_lt _ (by positivity)
    have mid : 2 ^ lsb * f + word % 2 ^ lsb < 2 ^ (lsb + width) := by
      rw [pow_add]
      calc 2 ^ lsb * f + word % 2 ^ lsb < 2 ^ lsb * f + 2 ^ lsb := by omega
        _ = 2 ^ lsb * (f + 1) := by ring
        _ ≤ _ := Nat.mul_le_mul_left _ hf
    rw [e, Nat.testBit_two_pow_mul_add _ mid, Nat.testBit_two_pow_mul_add _ lo]
    by_cases a : i < lsb + width
    · rw [if_pos a]
      by_cases b : i < lsb
      · rw [if_pos b, if_neg (by omega), Nat.testBit_mod_two_pow]; simp [b]
      · rw [if_neg b, if_pos (by omega)]
    · rw [if_neg a, if_neg (by omega), Nat.testBit_div_two_pow]; congr 1; omega

/-- An insertion stays a 64-bit word. -/
theorem insertField_lt {word width lsb f} (hf : f < 2 ^ width) (h2 : width + lsb ≤ 64) (hw : word < 2 ^ 64) : insertField word width lsb f < 2 ^ 64 := by
  apply Nat.lt_pow_two_of_testBit
  intro i hi
  rw [insertField_testBit _ _ _ _ hf, if_neg (by omega)]
  exact Nat.testBit_lt_two_pow (lt_of_lt_of_le hw (Nat.pow_le_pow_right (by norm_num) hi))

/-- R115, a value that fits. -/
theorem setUnsigned_ok {word width lsb} {v : Nat} (h : v < 2 ^ width) : setUnsigned word width lsb v = .ok (insertField word width lsb v) := by
  unfold setUnsigned
  rw [if_pos ((fitsUnsigned_iff _ _).mpr ⟨by omega, by exact_mod_cast h⟩), Int.toNat_natCast]

/-- R115, a value that does not fit. -/
theorem setUnsigned_error {word width lsb} {v : Nat} (h : 2 ^ width ≤ v) : setUnsigned word width lsb v = .error .overflow := by
  unfold setUnsigned
  rw [if_neg]; rw [fitsUnsigned_iff]; push Not; intro _; exact_mod_cast h

/-- R116, a value that fits. -/
theorem setSigned_ok {word width lsb} {v : Int} (h0 : 1 ≤ width) (h1 : -2 ^ (width - 1) ≤ v) (h2 : v ≤ 2 ^ (width - 1) - 1) : setSigned word width lsb v = .ok (insertField word width lsb (v % 2 ^ width).toNat) := by
  unfold setSigned
  rw [if_pos ((fitsSigned_iff _ _).mpr ⟨h0, h1, h2⟩)]

/-- R116, a value that does not fit. -/
theorem setSigned_error {word width lsb} {v : Int} (h : width = 0 ∨ v < -2 ^ (width - 1) ∨ 2 ^ (width - 1) - 1 < v) : setSigned word width lsb v = .error .overflow := by
  unfold setSigned
  rw [if_neg]; rw [fitsSigned_iff]; omega

/-- The low bits of a value are below `2^width`. -/
theorem emod_toNat_lt (v : Int) (width : Nat) : (v % 2 ^ width).toNat < 2 ^ width := by
  have : v % 2 ^ width < 2 ^ width := Int.emod_lt_of_pos _ (by positivity)
  have h0 : 0 ≤ v % 2 ^ width := Int.emod_nonneg _ (by positivity)
  zify; rw [Int.toNat_of_nonneg h0]; exact_mod_cast this

/-- R119: extracting what was inserted. -/
theorem getUnsigned_insertField {word width lsb f} (hf : f < 2 ^ width) : getUnsigned (insertField word width lsb f) width lsb = f := by
  apply Nat.eq_of_testBit_eq
  intro i
  rw [getUnsigned_testBit, insertField_testBit _ _ _ _ hf]
  by_cases h : i < width
  · rw [if_pos (by omega)]; simp [h]
  · have hle : width ≤ i := by omega
    rw [Nat.testBit_lt_two_pow (lt_of_lt_of_le hf (Nat.pow_le_pow_right (by norm_num) hle))]; simp [h]

/-- R119: a field that shares no bit reads as before. -/
theorem getUnsigned_insertField_other {word width lsb f w2 l2} (hf : f < 2 ^ width) (h : l2 + w2 ≤ lsb ∨ lsb + width ≤ l2) : getUnsigned (insertField word width lsb f) w2 l2 = getUnsigned word w2 l2 := by
  apply Nat.eq_of_testBit_eq
  intro i
  rw [getUnsigned_testBit, getUnsigned_testBit, insertField_testBit _ _ _ _ hf]
  by_cases hi : i < w2
  · rw [if_neg (by omega)]
  · simp [hi]

end Sys2Proof.Machine
end

