-- ==== Sys2Proof/Laws/Codeword.lean ====
section
/-! SUPPORT. The codeword assembler of 44_codeword.md: when it assembles and what, and that disassembly undoes it. -/

namespace Sys2Proof.Machine

open Sys2Proof.Safety

/-- R115 on an integer of any size. -/
theorem setUnsigned_int {word width lsb} {v : Int} : setUnsigned word width lsb v = if 0 ≤ v ∧
    v < 2 ^ width then .ok (insertField word width lsb v.toNat) else .error .overflow := by
  unfold setUnsigned; simp [fitsUnsigned_iff]

/-- R116 at width 6. -/
theorem setSigned_six {word lsb} {v : Int} : setSigned word 6 lsb v = if -32 ≤ v ∧
    v ≤ 31 then .ok (insertField word 6 lsb (v % 2 ^ 6).toNat) else .error .overflow := by
  unfold setSigned; simp [fitsSigned_iff]

/-- Inserting into a field of zeros adds. -/
theorem insertField_clean {word width lsb f : Nat} (h : word / 2 ^ lsb % 2 ^ width = 0) (hf : f < 2 ^ width) : insertField word width lsb f = word + f * 2 ^ lsb := by
  unfold insertField; rw [getUnsigned_eq, h]
  split
  · subst ‹width = 0›; simp at hf; simp [hf]
  · simp

/-- R200, every field in range. -/
theorem assemble_ok {x : QRec} (h : InRange x) : ∃ w : Nat, assemble x = .ok w ∧ w < 2 ^ 32 ∧
      (w : Int) = x.qa * 2 ^ 26 + x.qb % 64 * 2 ^ 20 + x.qc % 64 * 2 ^ 14 + x.qd % 64 * 2 ^ 8 + x.ipb * 2 ^ 4 + x.ipr := by
  obtain ⟨h1, h2, h3, h4, h5, h6⟩ := h
  unfold assemble Config.coefWidth Config.chromaWidth Config.aLsb Config.bLsb Config.cLsb Config.dLsb Config.pbLsb Config.prLsb
  simp only [setUnsigned_int, setSigned_six]
  rw [if_pos (by omega), bind_of_ok, if_pos h2, bind_of_ok, if_pos h3, bind_of_ok, if_pos h4, bind_of_ok,
      if_pos (by omega), bind_of_ok, if_pos (by omega)]
  obtain ⟨a, ha⟩ : ∃ a : Nat, x.qa = a := ⟨x.qa.toNat, by omega⟩
  obtain ⟨b, hb⟩ : ∃ a : Nat, x.qb % 2^6 = a := ⟨(x.qb % 2^6).toNat, by omega⟩
  obtain ⟨c, hc⟩ : ∃ a : Nat, x.qc % 2^6 = a := ⟨(x.qc % 2^6).toNat, by omega⟩
  obtain ⟨d, hd⟩ : ∃ a : Nat, x.qd % 2^6 = a := ⟨(x.qd % 2^6).toNat, by omega⟩
  obtain ⟨e, he⟩ : ∃ a : Nat, x.ipb = a := ⟨x.ipb.toNat, by omega⟩
  obtain ⟨f, hf⟩ : ∃ a : Nat, x.ipr = a := ⟨x.ipr.toNat, by omega⟩
  have hb64 : b < 2^6 := by omega
  have hc64 : c < 2^6 := by omega
  have hd64 : d < 2^6 := by omega
  rw [ha] at h1; rw [he] at h5; rw [hf] at h6
  rw [show x.qb % 64 = b from hb, show x.qc % 64 = c from hc, show x.qd % 64 = d from hd, hb, hc, hd, ha, he, hf]
  simp only [Int.toNat_natCast]
  clear hb hc hd h2 h3 h4 ha he hf
  rw [insertField_clean (width := 6) (lsb := 26) (by omega) (by omega)]
  rw [insertField_clean (width := 6) (lsb := 20) (by omega) (by omega)]
  rw [insertField_clean (width := 6) (lsb := 14) (by omega) (by omega)]
  rw [insertField_clean (width := 6) (lsb := 8) (by omega) (by omega)]
  rw [insertField_clean (width := 4) (lsb := 4) (by omega) (by omega)]
  rw [insertField_clean (width := 4) (lsb := 0) (by omega) (by omega)]
  refine ⟨_, rfl, by omega, by push_cast; ring⟩

/-- R200, a field out of range. -/
theorem assemble_error {x : QRec} (h : ¬ InRange x) : assemble x = .error .overflow := by
  unfold assemble Config.coefWidth Config.chromaWidth Config.aLsb Config.bLsb Config.cLsb Config.dLsb Config.pbLsb Config.prLsb
  simp only [setUnsigned_int, setSigned_six]
  by_cases h1 : 0 ≤ x.qa ∧ x.qa < 2^6
  · rw [if_pos h1, bind_of_ok]
    by_cases h2 : -32 ≤ x.qb ∧ x.qb ≤ 31
    · rw [if_pos h2, bind_of_ok]
      by_cases h3 : -32 ≤ x.qc ∧ x.qc ≤ 31
      · rw [if_pos h3, bind_of_ok]
        by_cases h4 : -32 ≤ x.qd ∧ x.qd ≤ 31
        · rw [if_pos h4, bind_of_ok]
          by_cases h5 : 0 ≤ x.ipb ∧ x.ipb < 2^4
          · rw [if_pos h5]
            simp only [bind_of_ok]
            rw [if_neg]
            intro h6; apply h; unfold InRange; omega
          · rw [if_neg h5]; rfl
        · rw [if_neg h4]; rfl
      · rw [if_neg h3]; rfl
    · rw [if_neg h2]; rfl
  · rw [if_neg h1]; rfl

/-- R201, R203: the fields of a disassembled word and their ranges. -/
theorem disassemble_parts (word : Nat) : let x := disassemble word; InRange x ∧
      x.qa = ((word / 2 ^ 26 % 2 ^ 6 : Nat) : Int) ∧ x.ipb = ((word / 2 ^ 4 % 2 ^ 4 : Nat) : Int) ∧
      x.ipr = ((word % 2 ^ 4 : Nat) : Int) ∧
      x.qb % 64 = ((word / 2 ^ 20 % 2 ^ 6 : Nat) : Int) ∧ x.qc % 64 = ((word / 2 ^ 14 % 2 ^ 6 : Nat) : Int) ∧
      x.qd % 64 = ((word / 2 ^ 8 % 2 ^ 6 : Nat) : Int) := by
  have g : ∀ l, getSigned word 6 l % 64 = ((word / 2 ^ l % 2 ^ 6 : Nat) : Int) := by
    intro l; have := getSigned_emod word l (width := 6) (by norm_num)
    rw [getUnsigned_eq] at this; simpa using this
  have r : ∀ l, -32 ≤ getSigned word 6 l ∧ getSigned word 6 l ≤ 31 := by
    intro l; have := getSigned_range word l (width := 6) (by norm_num); simpa using this
  refine ⟨⟨?_, r _, r _, r _, ?_, ?_⟩, ?_, ?_, ?_, g _, g _, g _⟩
  · simp only [disassemble, Config.coefWidth, getUnsigned_eq]; omega
  · simp only [disassemble, Config.chromaWidth, getUnsigned_eq]; omega
  · simp only [disassemble, Config.chromaWidth, getUnsigned_eq]; omega
  · simp only [disassemble, Config.coefWidth, getUnsigned_eq]; rfl
  · simp only [disassemble, Config.chromaWidth, getUnsigned_eq]; rfl
  · simp only [disassemble, Config.chromaWidth, getUnsigned_eq, Config.prLsb]; simp

theorem qrec_ext_of_inRange {x y : QRec} (hx : InRange x) (hy : InRange y) (h1 : x.qa = y.qa) (h2 : x.qb % 64 = y.qb % 64) (h3 : x.qc % 64 = y.qc % 64) (h4 : x.qd % 64 = y.qd % 64) (h5 : x.ipb = y.ipb) (h6 : x.ipr = y.ipr) : x = y := by
  obtain ⟨-, a2, a3, a4, -⟩ := hx
  obtain ⟨-, b2, b3, b4, -⟩ := hy
  cases x; cases y; simp only [QRec.mk.injEq] at *; omega

theorem getUnsigned_mod_word {word w l : Nat} (h : w + l ≤ 32) : getUnsigned (word % 2^32) w l = getUnsigned word w l := by
  apply Nat.eq_of_testBit_eq
  intro i
  rw [getUnsigned_testBit, getUnsigned_testBit, Nat.testBit_mod_two_pow]
  by_cases hi : i < w
  · rw [show decide (l + i < 32) = true by simp; omega]; simp
  · simp [hi]

/-- Bits 63:32 are not read. -/
theorem disassemble_mod (word) : disassemble (word % 2^32) = disassemble word := by
  have g : ∀ w l, w + l ≤ 32 → getUnsigned (word % 2^32) w l = getUnsigned word w l := fun w l h => getUnsigned_mod_word h
  unfold disassemble getSigned
  rw [g Config.coefWidth Config.aLsb (by decide), g Config.coefWidth Config.bLsb (by decide),
      g Config.coefWidth Config.cLsb (by decide), g Config.coefWidth Config.dLsb (by decide),
      g Config.chromaWidth Config.pbLsb (by decide), g Config.chromaWidth Config.prLsb (by decide)]

/-- R202. -/
theorem disassemble_of_assemble {x} (h : InRange x) {w} (hw : assemble x = .ok w) : disassemble w = x := by
  obtain ⟨w', e, hl, he⟩ := assemble_ok h
  rw [hw] at e; cases e
  obtain ⟨r, h1, h2, h3, h4, h5, h6⟩ := disassemble_parts w
  have h' := h
  obtain ⟨a1, a2, a3, a4, a5, a6⟩ := h'
  apply qrec_ext_of_inRange r h <;> omega

/-- R202. -/
theorem assemble_disassemble {word} (h : word < 2^32) : assemble (disassemble word) = .ok word := by
  obtain ⟨r, h1, h2, h3, h4, h5, h6⟩ := disassemble_parts word
  obtain ⟨w', e, hl, he⟩ := assemble_ok r
  rw [e]; congr 1; omega

end Sys2Proof.Machine
end

