-- ==== Sys2Proof/Laws/Memory.lean ====
section
/-! SUPPORT. Every memory operation keeps the canonical form of memory (10_state.md R24): one lemma per stage, for any even bound;
and what each stage's success says of its input and output buffers. -/

namespace Sys2Proof.Machine

/-! ### What a stage's success says -/

theorem quantizeForward_ok {ch : Chroma} {m m' : Memory} :
    quantizeForward ch m = .ok m' ↔ ∃ B, m.blk = some B ∧ (1 ≤ B.w ∧ 1 ≤ B.h) ∧
      m' = { m with qblk := some (B.map (quantForward ch)), blk := none } := by
  simp only [quantizeForward, bind_ok, inputArr_ok, pure_eq_ok, Except.ok.injEq, and_assoc]
  simp only [eq_comm]

theorem quantizeInverse_ok {ch : Chroma} {m m' : Memory} :
    quantizeInverse ch m = .ok m' ↔ ∃ Q, m.qblk = some Q ∧ (1 ≤ Q.w ∧ 1 ≤ Q.h) ∧
      ∃ B, Q.mapE (quantInverse ch) = .ok B ∧ m' = { m with blk := some B, qblk := none } := by
  simp only [quantizeInverse, bind_ok, inputArr_ok, pure_eq_ok, Except.ok.injEq, and_assoc]
  simp only [eq_comm]

theorem colorForwardStage_ok {m m' : Memory} :
    colorForwardStage m = .ok m' ↔ ∃ P, m.pix = some P ∧ (1 ≤ P.px.w ∧ 1 ≤ P.px.h) ∧ 1 ≤ P.denom.toNat ∧
      ∃ V, P.px.mapE (fun x => colorForward x.r x.g x.b P.denom) = .ok V ∧
        m' = { m with cv := some V, pix := none } := by
  simp only [colorForwardStage, bind_ok, inputPix_ok, require_ok, pure_eq_ok, Except.ok.injEq, and_assoc,
    exists_and_left, exists_const]
  simp only [eq_comm]

theorem colorInverseStage_ok {m m' : Memory} :
    colorInverseStage m = .ok m' ↔ ∃ V, m.cv = some V ∧ (1 ≤ V.w ∧ 1 ≤ V.h) ∧
      m' = { m with pix := some { denom := Config.outDenom, px := V.map colorInverse }, cv := none } := by
  simp only [colorInverseStage, bind_ok, inputArr_ok, pure_eq_ok, Except.ok.injEq, and_assoc]
  simp only [eq_comm]

theorem blockForwardStage_ok {m m' : Memory} :
    blockForwardStage m = .ok m' ↔ ∃ V, m.cv = some V ∧ (1 ≤ V.w ∧ 1 ≤ V.h) ∧ (V.w % 2 = 0 ∧ V.h % 2 = 0) ∧
      m' = { m with blk := some (Arr.tabulate (V.w / 2) (V.h / 2) (quadForward V)), cv := none } := by
  simp only [blockForwardStage, bind_ok, inputArr_ok, require_ok, pure_eq_ok, Except.ok.injEq, and_assoc,
    exists_and_left, exists_const]
  simp only [eq_comm]

theorem blockInverseStage_ok {m m' : Memory} :
    blockInverseStage m = .ok m' ↔ ∃ B, m.blk = some B ∧ (1 ≤ B.w ∧ 1 ≤ B.h) ∧
      m' = { m with cv := some (Arr.tabulate (2 * B.w) (2 * B.h) (quadInverse B)), blk := none } := by
  simp only [blockInverseStage, bind_ok, inputArr_ok, pure_eq_ok, Except.ok.injEq, and_assoc]
  simp only [eq_comm]

theorem assembleStage_ok {m m' : Memory} :
    assembleStage m = .ok m' ↔ ∃ Q, m.qblk = some Q ∧ (1 ≤ Q.w ∧ 1 ≤ Q.h) ∧
      ∃ C, Q.mapE assembleWord = .ok C ∧ m' = { m with cwa := some C, qblk := none } := by
  simp only [assembleStage, bind_ok, inputArr_ok, pure_eq_ok, Except.ok.injEq, and_assoc]
  simp only [eq_comm]

theorem disassembleStage_ok {m m' : Memory} :
    disassembleStage m = .ok m' ↔ ∃ C, m.cwa = some C ∧ (1 ≤ C.w ∧ 1 ≤ C.h) ∧
      m' = { m with qblk := some (C.map fun x => disassemble (zext 32 x.toNat)), cwa := none } := by
  simp only [disassembleStage, bind_ok, inputArr_ok, pure_eq_ok, Except.ok.injEq, and_assoc]
  simp only [eq_comm]

theorem wireWrite_ok {m m' : Memory} :
    wireWrite m = .ok m' ↔ ∃ C, m.cwa = some C ∧ (1 ≤ C.w ∧ 1 ≤ C.h) ∧
      m' = { m with strm := some (streamOf C), cwa := none } := by
  simp only [wireWrite, bind_ok, inputArr_ok, pure_eq_ok, Except.ok.injEq, and_assoc]
  simp only [eq_comm]

theorem wireRead_ok {d : Nat} {m m' : Memory} :
    wireRead d m = .ok m' ↔ ∃ s, m.strm = some s ∧ ∃ C, parseStream d s = .ok C ∧
      m' = { m with cwa := some C, strm := none } := by
  unfold wireRead
  cases m.strm with
  | none => simp
  | some s => cases h : parseStream d s <;> simp [h, eq_comm]

/-! ### The stream's numbers -/

/-- The loop of `number` answers a number within the bound. -/
theorem numberLoop_le {d : Nat} {term : Byte} {s : List Byte} {v n : Nat} {rest : List Byte} (hv : v ≤ d)
    (h : numberLoop d term v s = .ok (n, rest)) : n ≤ d := by
  induction s generalizing v with
  | nil => cases h
  | cons b s ih =>
    simp only [numberLoop] at h
    split at h
    · cases h; exact hv
    · split at h
      · cases h
      · split at h
        · cases h
        · exact ih (by omega) h

/-- `number` answers a number within `DIM_MAX` (30_encoding.md R94). -/
theorem number_le {d : Nat} {term : Byte} {s : List Byte} {n : Nat} {rest : List Byte}
    (h : number d term s = .ok (n, rest)) : n ≤ d := by
  cases s with
  | nil => cases h
  | cons b s =>
    simp only [number] at h
    split at h
    · cases h
    · split at h
      · cases h
      · exact numberLoop_le (by omega) h

/-- The dimensions read from a header are half of numbers within `DIM_MAX`. -/
theorem readHeader_le {d cw ch : Nat} {s bs : List Byte} (h : readHeader d s = .ok (cw, ch, bs)) :
    cw ≤ d / 2 ∧ ch ≤ d / 2 := by
  simp only [readHeader, bind_ok] at h
  obtain ⟨s1, -, ⟨pw, s2⟩, hw, ⟨ph, s3⟩, hh, -, -, e⟩ := h
  simp only [pure_eq_ok, Except.ok.injEq, Prod.mk.injEq] at e
  obtain ⟨rfl, rfl, -⟩ := e
  exact ⟨Nat.div_le_div_right (number_le hw), Nat.div_le_div_right (number_le hh)⟩

/-- A parsed stream is a codeword array of its buffer's type. -/
theorem parseStream_blockSized {d : Nat} {s : List Byte} {C : Arr Codeword} (h : parseStream d s = .ok C) :
    blockSized d C := by
  simp only [parseStream, bind_ok] at h
  obtain ⟨⟨cw, ch, bs⟩, hh, e⟩ := h
  dsimp only at e
  split at e
  · cases e
  · cases e
    exact ⟨tabulate_sized _ _ _, readHeader_le hh⟩

/-! ### Every stage keeps the form -/

theorem quantizeForward_wf {d : Nat} {ch : Chroma} {m m' : Memory} (h : m.wfFor d = true)
    (e : quantizeForward ch m = .ok m') : m'.wfFor d = true := by
  obtain ⟨B, hB, -, rfl⟩ := quantizeForward_ok.mp e
  rw [wfFor_parts] at h ⊢
  obtain ⟨h1, h2, h3, h4, h5⟩ := h
  obtain ⟨hs, hw, hh⟩ := h3 B hB
  exact ⟨h1, h2, by simp, by rintro A ⟨⟩; exact ⟨map_sized hs, hw, hh⟩, h5⟩

theorem quantizeInverse_wf {d : Nat} {ch : Chroma} {m m' : Memory} (h : m.wfFor d = true)
    (e : quantizeInverse ch m = .ok m') : m'.wfFor d = true := by
  obtain ⟨Q, hQ, -, B, hB, rfl⟩ := quantizeInverse_ok.mp e
  rw [wfFor_parts] at h ⊢
  obtain ⟨h1, h2, h3, h4, h5⟩ := h
  obtain ⟨hs, hw, hh⟩ := h4 Q hQ
  obtain ⟨ew, eh, -⟩ := mapE_ok.mp hB
  exact ⟨h1, h2, by rintro A ⟨⟩; exact ⟨mapE_sized hs hB, ew ▸ hw, eh ▸ hh⟩, by simp, h5⟩

theorem colorForwardStage_wf {d : Nat} {m m' : Memory} (h : m.wfFor d = true)
    (e : colorForwardStage m = .ok m') : m'.wfFor d = true := by
  obtain ⟨P, hP, -, -, V, hV, rfl⟩ := colorForwardStage_ok.mp e
  rw [wfFor_parts] at h ⊢
  obtain ⟨h1, h2, h3, h4, h5⟩ := h
  obtain ⟨hs, hw, hh⟩ := h1 P hP
  obtain ⟨ew, eh, -⟩ := mapE_ok.mp hV
  exact ⟨by simp, by rintro A ⟨⟩; exact ⟨mapE_sized hs hV, ew ▸ hw, eh ▸ hh⟩, h3, h4, h5⟩

theorem colorInverseStage_wf {d : Nat} {m m' : Memory} (h : m.wfFor d = true)
    (e : colorInverseStage m = .ok m') : m'.wfFor d = true := by
  obtain ⟨V, hV, -, rfl⟩ := colorInverseStage_ok.mp e
  rw [wfFor_parts] at h ⊢
  obtain ⟨h1, h2, h3, h4, h5⟩ := h
  obtain ⟨hs, hw, hh⟩ := h2 V hV
  exact ⟨by rintro P ⟨⟩; exact ⟨map_sized hs, hw, hh⟩, by simp, h3, h4, h5⟩

theorem blockForwardStage_wf {d : Nat} {m m' : Memory} (h : m.wfFor d = true)
    (e : blockForwardStage m = .ok m') : m'.wfFor d = true := by
  obtain ⟨V, hV, -, -, rfl⟩ := blockForwardStage_ok.mp e
  rw [wfFor_parts] at h ⊢
  obtain ⟨h1, h2, h3, h4, h5⟩ := h
  obtain ⟨-, hw, hh⟩ := h2 V hV
  refine ⟨h1, by simp, ?_, h4, h5⟩
  rintro A ⟨⟩
  exact ⟨tabulate_sized _ _ _, Nat.div_le_div_right hw, Nat.div_le_div_right hh⟩

theorem blockInverseStage_wf {d : Nat} {m m' : Memory} (h : m.wfFor d = true)
    (e : blockInverseStage m = .ok m') : m'.wfFor d = true := by
  obtain ⟨B, hB, -, rfl⟩ := blockInverseStage_ok.mp e
  rw [wfFor_parts] at h ⊢
  obtain ⟨h1, h2, h3, h4, h5⟩ := h
  obtain ⟨-, hw, hh⟩ := h3 B hB
  refine ⟨h1, ?_, by simp, h4, h5⟩
  rintro A ⟨⟩
  exact ⟨tabulate_sized _ _ _, by simp only [tabulate_w]; omega, by simp only [tabulate_h]; omega⟩

theorem assembleStage_wf {d : Nat} {m m' : Memory} (h : m.wfFor d = true)
    (e : assembleStage m = .ok m') : m'.wfFor d = true := by
  obtain ⟨Q, hQ, -, C, hC, rfl⟩ := assembleStage_ok.mp e
  rw [wfFor_parts] at h ⊢
  obtain ⟨h1, h2, h3, h4, h5⟩ := h
  obtain ⟨hs, hw, hh⟩ := h4 Q hQ
  obtain ⟨ew, eh, -⟩ := mapE_ok.mp hC
  exact ⟨h1, h2, h3, by simp, by rintro A ⟨⟩; exact ⟨mapE_sized hs hC, ew ▸ hw, eh ▸ hh⟩⟩

theorem disassembleStage_wf {d : Nat} {m m' : Memory} (h : m.wfFor d = true)
    (e : disassembleStage m = .ok m') : m'.wfFor d = true := by
  obtain ⟨C, hC, -, rfl⟩ := disassembleStage_ok.mp e
  rw [wfFor_parts] at h ⊢
  obtain ⟨h1, h2, h3, h4, h5⟩ := h
  obtain ⟨hs, hw, hh⟩ := h5 C hC
  exact ⟨h1, h2, h3, by rintro A ⟨⟩; exact ⟨map_sized hs, hw, hh⟩, by simp⟩

theorem wireWrite_wf {d : Nat} {m m' : Memory} (h : m.wfFor d = true) (e : wireWrite m = .ok m') :
    m'.wfFor d = true := by
  obtain ⟨C, hC, -, rfl⟩ := wireWrite_ok.mp e
  rw [wfFor_parts] at h ⊢
  obtain ⟨h1, h2, h3, h4, h5⟩ := h
  exact ⟨h1, h2, h3, h4, by simp⟩

theorem wireRead_wf {d : Nat} {m m' : Memory} (h : m.wfFor d = true) (e : wireRead d m = .ok m') :
    m'.wfFor d = true := by
  obtain ⟨s, hs, C, hC, rfl⟩ := wireRead_ok.mp e
  rw [wfFor_parts] at h ⊢
  obtain ⟨h1, h2, h3, h4, -⟩ := h
  exact ⟨h1, h2, h3, h4, by rintro A ⟨⟩; exact parseStream_blockSized hC⟩

theorem compress_wf {d : Nat} {ch : Chroma} {m m' : Memory} (h : m.wfFor d = true) (e : compress ch m = .ok m') :
    m'.wfFor d = true := by
  simp only [compress, bind_ok] at e
  obtain ⟨-, -, -, -, m1, e1, m2, e2, m3, e3, m4, e4, e5⟩ := e
  exact wireWrite_wf (assembleStage_wf (quantizeForward_wf (blockForwardStage_wf (colorForwardStage_wf h e1) e2) e3) e4) e5

theorem decompress_wf {d : Nat} {ch : Chroma} {m m' : Memory} (h : m.wfFor d = true)
    (e : decompress ch d m = .ok m') : m'.wfFor d = true := by
  simp only [decompress, bind_ok] at e
  obtain ⟨m1, e1, m2, e2, m3, e3, m4, e4, e5⟩ := e
  exact colorInverseStage_wf (blockInverseStage_wf (quantizeInverse_wf (disassembleStage_wf (wireRead_wf h e1) e2) e3) e4) e5

end Sys2Proof.Machine
end

