-- ==== Sys2Proof/Laws/Exec.lean ====
section
/-! SUPPORT. What any command and any step can do, said once: an F-form command is one computation of a result, an S-form command
one stage over the buffers, and a step is the action at the head of the host's list. -/

namespace Sys2Proof.Machine

/-- An F-form command computes a result or a fault from its operands alone (10_state.md R22, R32). -/
theorem exec_fForm (i : Instr) (h : i.opName.sForm = false) :
    ∃ r : Except Cause Result, ∀ s, exec i s = runF r s := by
  cases i with
  | fitsu v width => exact ⟨fitsu v width, fun _ => rfl⟩
  | fitss v width => exact ⟨fitss v width, fun _ => rfl⟩
  | getu word width lsb => exact ⟨getu word width lsb, fun _ => rfl⟩
  | gets word width lsb => exact ⟨gets word width lsb, fun _ => rfl⟩
  | setu word width lsb value => exact ⟨setu word width lsb value, fun _ => rfl⟩
  | sets word width lsb value => exact ⟨sets word width lsb value, fun _ => rfl⟩
  | qfwd x => exact ⟨.ok (.qblk (quantForward Config.chroma x)), fun _ => rfl⟩
  | qinv x => exact ⟨(quantInverse Config.chroma x).map .blk, fun _ => rfl⟩
  | cfwd r g b denom => exact ⟨(colorForward r g b denom).map .cv, fun _ => rfl⟩
  | cinv p => exact ⟨.ok (.rgb (colorInverse p)), fun _ => rfl⟩
  | bfwd p1 p2 p3 p4 => exact ⟨.ok (.blk (blockForward p1 p2 p3 p4)), fun _ => rfl⟩
  | binv x =>
    exact ⟨.ok (.quad (blockInverse1 x) (blockInverse2 x) (blockInverse3 x) (blockInverse4 x)), fun _ => rfl⟩
  | cwasm x => exact ⟨(assemble x).map .u64, fun _ => rfl⟩
  | cwdis word => exact ⟨.ok (.qblk (disassemble word)), fun _ => rfl⟩
  | sqfwd => cases h
  | sqinv => cases h
  | scfwd => cases h
  | scinv => cases h
  | sbfwd => cases h
  | sbinv => cases h
  | scwasm => cases h
  | scwdis => cases h
  | wwrite => cases h
  | wread => cases h
  | compress => cases h
  | decompress => cases h

/-- The stage of an S-form command (30_encoding.md R83), and its meaning in terms of it; the stage keeps the canonical form
of memory. -/
theorem exec_sForm (i : Instr) (h : i.opName.sForm = true) :
    ∃ f : Memory → Except Cause Memory, (∀ s, exec i s = runS f s) ∧
      ∀ m m', m.wfFor Config.dimMax = true → f m = .ok m' → m'.wfFor Config.dimMax = true := by
  cases i with
  | fitsu v width => cases h
  | fitss v width => cases h
  | getu word width lsb => cases h
  | gets word width lsb => cases h
  | setu word width lsb value => cases h
  | sets word width lsb value => cases h
  | qfwd x => cases h
  | qinv x => cases h
  | cfwd r g b denom => cases h
  | cinv p => cases h
  | bfwd p1 p2 p3 p4 => cases h
  | binv x => cases h
  | cwasm x => cases h
  | cwdis word => cases h
  | sqfwd => exact ⟨quantizeForward Config.chroma, fun _ => rfl, fun _ _ => quantizeForward_wf⟩
  | sqinv => exact ⟨quantizeInverse Config.chroma, fun _ => rfl, fun _ _ => quantizeInverse_wf⟩
  | scfwd => exact ⟨colorForwardStage, fun _ => rfl, fun _ _ => colorForwardStage_wf⟩
  | scinv => exact ⟨colorInverseStage, fun _ => rfl, fun _ _ => colorInverseStage_wf⟩
  | sbfwd => exact ⟨blockForwardStage, fun _ => rfl, fun _ _ => blockForwardStage_wf⟩
  | sbinv => exact ⟨blockInverseStage, fun _ => rfl, fun _ _ => blockInverseStage_wf⟩
  | scwasm => exact ⟨assembleStage, fun _ => rfl, fun _ _ => assembleStage_wf⟩
  | scwdis => exact ⟨disassembleStage, fun _ => rfl, fun _ _ => disassembleStage_wf⟩
  | wwrite => exact ⟨wireWrite, fun _ => rfl, fun _ _ => wireWrite_wf⟩
  | wread => exact ⟨wireRead Config.dimMax, fun _ => rfl, fun _ _ => wireRead_wf⟩
  | compress => exact ⟨compress Config.chroma, fun _ => rfl, fun _ _ => compress_wf⟩
  | decompress => exact ⟨decompress Config.chroma Config.dimMax, fun _ => rfl, fun _ _ => decompress_wf⟩

/-- Everything a command can do (70_reset_and_hazards.md R330): it is refused, completes with a result, completes with new
buffers, or takes a fault. -/
theorem exec_cases (i : Instr) (s : State) :
    (s.faulted = true ∧ exec i s = .next s.refuse) ∨
    (s.faulted = false ∧ i.opName.sForm = false ∧ ∃ v, exec i s = .next (s.complete v)) ∨
    (s.faulted = false ∧ i.opName.sForm = true ∧ ∃ m, exec i s = .next (s.finish m) ∧
      (s.mem.wfFor Config.dimMax = true → m.wfFor Config.dimMax = true)) ∨
    (s.faulted = false ∧ ∃ c, exec i s = .next (s.takeFault c)) := by
  cases hi : i.opName.sForm with
  | false =>
    obtain ⟨r, hr⟩ := exec_fForm i hi
    rw [hr]
    rcases runF_cases r s with ⟨h, e⟩ | ⟨h, v, -, e⟩ | ⟨h, c, -, e⟩
    · exact .inl ⟨h, e⟩
    · exact .inr (.inl ⟨h, rfl, v, e⟩)
    · exact .inr (.inr (.inr ⟨h, c, e⟩))
  | true =>
    obtain ⟨f, hf, hw⟩ := exec_sForm i hi
    rw [hf]
    rcases runS_cases f s with ⟨h, e⟩ | ⟨h, m, hm, e⟩ | ⟨h, c, -, e⟩
    · exact .inl ⟨h, e⟩
    · exact .inr (.inr (.inl ⟨h, rfl, m, e, fun w => hw _ _ w hm⟩))
    · exact .inr (.inr (.inr ⟨h, c, e⟩))

/-- A step takes the action at the head of the host's list (60_exceptions.md R292). -/
theorem step_cons {s : State} {a : HostAction} {rest : List HostAction} (h : s.inbox = a :: rest) :
    step s = perform a { s with inbox := rest } := by
  simp [step, hostStep, h, State.pop]

/-- With no action waiting the core idles. -/
theorem step_nil {s : State} (h : s.inbox = []) : step s = .next s := by
  simp [step, hostStep, h]

/-- Issuing a command that decodes is its meaning. -/
theorem issue_ok {c : Command} {i : Instr} (h : decode c = .ok i) (s : State) : issue c s = exec i s := by
  simp [issue, h]

/-- Issuing a reserved code is PreconditionViolation or a refusal (30_encoding.md R82, 60_exceptions.md R289). -/
theorem issue_reserved {c : Command} {e : Reject} (h : decode c = .error e) (s : State) :
    issue c s = .next (if s.faulted then s.refuse else s.takeFault .precond) := by
  simp only [issue, h, issueReserved]
  split <;> rfl

end Sys2Proof.Machine
end

