-- ==== Sys2Proof/Laws/PerInstr.lean ====
section
/-! SUPPORT. Statements made once per instruction, about the instruction as it is written on the port. -/

namespace Sys2Proof.Laws.OpcodeByte

/-- The command presented for an instruction carries the operation code of the instruction's row of R81's table, its three
fields being `UNIT`, `S` and `FN` (30_encoding.md R80), and the decoder reads that operation back from it. -/
def Statement (i : Instr) : Prop :=
  (encode i).op.toNat / 16 = i.opName.unit ∧ (encode i).op.toNat / 8 % 2 = (if i.opName.sForm then 1 else 0) ∧
    (encode i).op.toNat % 8 = i.opName.fn ∧ decodeOp (encode i).op = some i.opName

/-- The same of an operation code. -/
theorem opCode_fields (o : Op) :
    (opCode o).toNat / 16 = o.unit ∧ (opCode o).toNat / 8 % 2 = (if o.sForm then 1 else 0) ∧
      (opCode o).toNat % 8 = o.fn ∧ decodeOp (opCode o) = some o := by
  cases o <;> decide

theorem fitsu (v width : Nat) : Statement (.fitsu v width) := opCode_fields _

theorem fitss (v : Int) (width : Nat) : Statement (.fitss v width) := opCode_fields _

theorem getu (word width lsb : Nat) : Statement (.getu word width lsb) := opCode_fields _

theorem gets (word width lsb : Nat) : Statement (.gets word width lsb) := opCode_fields _

theorem setu (word width lsb value : Nat) : Statement (.setu word width lsb value) := opCode_fields _

theorem sets (word width lsb : Nat) (value : Int) : Statement (.sets word width lsb value) := opCode_fields _

theorem qfwd (record : BlkRec) : Statement (.qfwd record) := opCode_fields _

theorem qinv (record : QRec) : Statement (.qinv record) := opCode_fields _

theorem sqfwd : Statement (.sqfwd) := opCode_fields _

theorem sqinv : Statement (.sqinv) := opCode_fields _

theorem cfwd (r g b denom : Byte) : Statement (.cfwd r g b denom) := opCode_fields _

theorem cinv (p : CvPixel) : Statement (.cinv p) := opCode_fields _

theorem scfwd : Statement (.scfwd) := opCode_fields _

theorem scinv : Statement (.scinv) := opCode_fields _

theorem bfwd (p1 p2 p3 p4 : CvPixel) : Statement (.bfwd p1 p2 p3 p4) := opCode_fields _

theorem binv (record : BlkRec) : Statement (.binv record) := opCode_fields _

theorem sbfwd : Statement (.sbfwd) := opCode_fields _

theorem sbinv : Statement (.sbinv) := opCode_fields _

theorem cwasm (record : QRec) : Statement (.cwasm record) := opCode_fields _

theorem cwdis (word : Nat) : Statement (.cwdis word) := opCode_fields _

theorem scwasm : Statement (.scwasm) := opCode_fields _

theorem scwdis : Statement (.scwdis) := opCode_fields _

theorem wwrite : Statement (.wwrite) := opCode_fields _

theorem wread : Statement (.wread) := opCode_fields _

theorem compress : Statement (.compress) := opCode_fields _

theorem decompress : Statement (.decompress) := opCode_fields _

end Sys2Proof.Laws.OpcodeByte
end

