-- ==== Sys2Proof/Laws/Wire.lean ====
section
/-! SUPPORT. The wire format of 45_wire.md: bytes of a word, decimal numbers, the header's scan, the body. -/

namespace Sys2Proof.Machine

theorem beBytes_length (n v) : (beBytes n v).length = n := by simp [beBytes]

theorem beNat_append (l : List Byte) (b : Byte) : beNat (l ++ [b]) = beNat l * 256 + b.toNat := by
  simp [beNat]

theorem beBytes_succ (n v) : beBytes (n+1) v = beBytes n (v / 256) ++ [BitVec.ofNat 8 v] := by
  unfold beBytes
  rw [List.range_succ, List.map_append]
  congr 1
  · apply List.map_congr_left
    intro i hi
    have hi := List.mem_range.mp hi
    rw [Nat.div_div_eq_div_mul, ← pow_succ']
    congr 3; omega
  · simp

/-- R53: the bytes of a value give it back. -/
theorem beNat_beBytes (n v) (h : v < 256 ^ n) : beNat (beBytes n v) = v := by
  induction n generalizing v with
  | zero => simp at h; subst h; rfl
  | succ n ih =>
    rw [beBytes_succ, beNat_append, ih]
    · rw [BitVec.toNat_ofNat]; omega
    · rw [pow_succ] at h; exact Nat.div_lt_of_lt_mul (by omega)

theorem beNat_lt (l : List Byte) : beNat l < 256 ^ l.length := by
  induction l using List.reverseRecOn with
  | nil => simp [beNat]
  | append_singleton l b ih =>
    rw [beNat_append, List.length_append, List.length_singleton, pow_succ]
    have := b.isLt; omega

/-- R53, the other way. -/
theorem beBytes_beNat (l : List Byte) : beBytes l.length (beNat l) = l := by
  induction l using List.reverseRecOn with
  | nil => rfl
  | append_singleton l b ih =>
    rw [beNat_append, List.length_append, List.length_singleton, beBytes_succ]
    have := b.isLt
    rw [show (beNat l * 256 + b.toNat) / 256 = beNat l by omega, ih]
    congr 2
    apply BitVec.eq_of_toNat_eq; rw [BitVec.toNat_ofNat]; omega

theorem memRead_lt (s : List Byte) (p) : memRead s p 4 < 2 ^ 32 := by
  unfold memRead
  refine lt_of_lt_of_le (beNat_lt _) ?_
  calc 256 ^ (List.take 4 (List.drop p s)).length ≤ 256 ^ 4 := Nat.pow_le_pow_right (by norm_num) (by simp)
    _ = 2 ^ 32 := by norm_num

/-- Reading behind a run of bytes. -/
theorem memRead_append (a b : List Byte) (p n) : memRead (a ++ b) (a.length + p) n = memRead b p n := by
  unfold memRead; rw [List.drop_append, List.drop_eq_nil_of_le (by omega)]; simp

/-- Reading inside the first run of bytes. -/
theorem memRead_left (a b : List Byte) {p n} (h : p + n ≤ a.length) : memRead (a ++ b) p n = memRead a p n := by
  unfold memRead; rw [List.drop_append_of_le_length (by omega), List.take_append_of_le_length (by simp; omega)]

theorem memWrite_length (s : List Byte) {pos n v} (h : pos + n ≤ s.length) : (memWrite s pos n v).length = s.length := by
  simp [memWrite, beBytes_length]; omega

theorem decLoop_acc : ∀ (n f g : Nat) (acc), n < f → n < g → decLoop f n acc = decLoop g n [] ++ acc := by
  intro n
  induction n using Nat.strong_induction_on with
  | _ n ih =>
    intro f g acc hf hg
    obtain ⟨f, rfl⟩ : ∃ k, f = k + 1 := ⟨f - 1, by omega⟩
    obtain ⟨g, rfl⟩ : ∃ k, g = k + 1 := ⟨g - 1, by omega⟩
    simp only [decLoop]
    split
    · rfl
    · rw [ih (n/10) (by omega) f (n/10+1) _ (by omega) (by omega),
        ih (n/10) (by omega) g (n/10+1) [_] (by omega) (by omega)]; simp

/-- `dec` of one digit. -/
theorem dec_small {n} (h : n < 10) : dec n = [digitByte n] := by
  simp [dec, decLoop, h]

/-- `dec` of more digits: the last one last. -/
theorem dec_big {n} (h : 10 ≤ n) : dec n = dec (n / 10) ++ [digitByte (n % 10)] := by
  unfold dec
  conv_lhs => rw [decLoop]
  rw [if_neg (by omega)]
  exact decLoop_acc _ _ _ _ (by omega) (by omega)

theorem digitByte_toNat {c : Nat} (h : c < 10) : (digitByte c).toNat = 0x30 + c := by
  unfold digitByte; rw [BitVec.toNat_ofNat]; omega

theorem digitByte_ne {term : Byte} (ht : term.toNat < 0x30) {c} (h : c < 10) : digitByte c ≠ term := by
  intro e; have := digitByte_toNat h; rw [e] at this; omega

/-- The bytes of `dec n` are ASCII digits (30_encoding.md R93). -/
theorem dec_digits (n : Nat) : ∀ b ∈ dec n, 0x30 ≤ b.toNat ∧ b.toNat ≤ 0x39 := by
  induction n using Nat.strong_induction_on with
  | _ n ih =>
    by_cases hs : n < 10
    · simp [dec_small hs, digitByte_toNat hs]; omega
    · rw [dec_big (by omega)]
      simp only [List.mem_append, List.mem_singleton]
      rintro b (h | rfl)
      · exact ih _ (by omega) b h
      · rw [digitByte_toNat (by omega)]; omega

/-- `dec` of a positive number has no leading zero (R93). -/
theorem dec_head (n : Nat) (h1 : 1 ≤ n) : ∃ b bs, dec n = b :: bs ∧ b ≠ 0x30 := by
  induction n using Nat.strong_induction_on with
  | _ n ih =>
    by_cases hs : n < 10
    · refine ⟨_, _, dec_small hs, fun e => ?_⟩
      have := digitByte_toNat hs
      rw [e] at this
      simp at this
      omega
    · obtain ⟨b, bs, e, hb⟩ := ih (n / 10) (by omega) (by omega)
      exact ⟨b, bs ++ [digitByte (n % 10)], by rw [dec_big (by omega), e]; rfl, hb⟩

/-- The base-10 value of `dec n` is `n` (30_encoding.md R94). -/
theorem dec_value (n : Nat) : (dec n).foldl (fun v b => 10 * v + (b.toNat - 0x30)) 0 = n := by
  induction n using Nat.strong_induction_on with
  | _ n ih =>
    by_cases hs : n < 10
    · simp [dec_small hs, digitByte_toNat hs]
    · rw [dec_big (by omega), List.foldl_append, ih _ (by omega)]
      simp [digitByte_toNat (Nat.mod_lt n (by decide : 0 < 10))]
      omega

/-- `number` (R223) takes the digits of a number in range. -/
theorem number_dec {d : Nat} {term : Byte} (ht : term.toNat < 0x30) (n : Nat) (h1 : 1 ≤ n) (h2 : n ≤ d) (r) : number d term (dec n ++ r) = numberLoop d term n r := by
  induction n using Nat.strong_induction_on generalizing r with
  | _ n ih =>
    by_cases hs : n < 10
    · rw [dec_small hs]
      have := digitByte_toNat hs
      simp only [List.cons_append, List.nil_append, number, this]
      rw [if_neg (by omega), if_neg (by omega)]
      congr 1; omega
    · rw [dec_big (by omega), List.append_assoc, ih (n/10) (by omega) (by omega) (by omega)]
      have := digitByte_toNat (Nat.mod_lt n (show 10 > 0 by norm_num))
      simp only [List.cons_append, List.nil_append, numberLoop]
      rw [if_neg (digitByte_ne ht (Nat.mod_lt n (show 10 > 0 by norm_num))), this, if_neg (by omega), if_neg (by omega)]
      congr 1; omega

/-- `number` on a number and its terminator (30_encoding.md R94). -/
theorem number_full {d : Nat} {term : Byte} (ht : term.toNat < 0x30) {n : Nat} (h1 : 1 ≤ n) (h2 : n ≤ d) (r) : number d term (dec n ++ term :: r) = .ok (n, r) := by
  rw [number_dec ht n h1 h2]; simp [numberLoop]

theorem digitByte_toNat_sub {b : Byte} (h1 : 0x30 ≤ b.toNat) (h2 : b.toNat ≤ 0x39) : digitByte (b.toNat - 0x30) = b := by
  apply BitVec.eq_of_toNat_eq
  rw [digitByte_toNat (by omega)]; omega

theorem numberLoop_inv {d : Nat} {term : Byte} {v : Nat} {l : List Byte} {n r} (h1 : 1 ≤ v) (h2 : v ≤ d) (h : numberLoop d term v l = .ok (n, r)) : 1 ≤ n ∧ n ≤ d ∧ dec v ++ l = dec n ++ term :: r := by
  induction l generalizing v with
  | nil => cases h
  | cons b s ih =>
    simp only [numberLoop] at h
    split at h
    · cases h; subst_vars; exact ⟨h1, h2, rfl⟩
    · split at h
      · cases h
      · split at h
        · cases h
        · obtain ⟨a, b', c⟩ := ih (by omega) (by omega) h
          refine ⟨a, b', ?_⟩
          rw [← c, dec_big (n := 10 * v + (b.toNat - 48)) (by omega)]
          rw [show (10 * v + (b.toNat - 48)) / 10 = v by omega,
              show (10 * v + (b.toNat - 48)) % 10 = b.toNat - 48 by omega, digitByte_toNat_sub (by omega) (by omega)]
          simp

/-- What `number` accepts. -/
theorem number_inv {d : Nat} {term : Byte} {l : List Byte} {n r} (h : number d term l = .ok (n, r)) : 1 ≤ n ∧ n ≤ d ∧
    l = dec n ++ term :: r := by
  cases l with
  | nil => cases h
  | cons b s =>
    simp only [number] at h
    split at h
    · cases h
    · split at h
      · cases h
      · obtain ⟨a, b', c⟩ := numberLoop_inv (by omega) (by omega) h
        refine ⟨a, b', ?_⟩
        rw [← c, dec_small (by omega), digitByte_toNat_sub (by omega) (by omega)]; rfl

/-- The beginnings of a decimal number are decimal numbers. -/
theorem dec_prefix : ∀ (n : Nat) (l m : List Byte), 1 ≤ n → l ++ m = dec n → l = [] ∨ ∃ v, 1 ≤ v ∧ v ≤ n ∧ l = dec v := by
  intro n
  induction n using Nat.strong_induction_on with
  | _ n ih =>
    intro l m h1 e
    rcases List.eq_nil_or_concat m with rfl | ⟨m', b, rfl⟩
    · exact .inr ⟨n, h1, le_rfl, by simpa using e⟩
    · by_cases hs : n < 10
      · rw [dec_small hs] at e
        rw [List.concat_eq_append, ← List.append_assoc] at e
        have := List.append_inj_left' (t₂ := [digitByte n]) (s₂ := []) e rfl
        exact .inl (List.append_eq_nil_iff.mp this).1
      · rw [dec_big (by omega), List.concat_eq_append, ← List.append_assoc] at e
        have := List.append_inj_left' e rfl
        rcases ih (n/10) (by omega) l m' (by omega) this with h | ⟨v, a, b, c⟩
        · exact .inl h
        · exact .inr ⟨v, a, by omega, c⟩

theorem dec_term_prefix {n : Nat} {term} {l m : List Byte} (h1 : 1 ≤ n) (hm : m ≠ []) (e : l ++ m = dec n ++ [term]) : l = [] ∨ ∃ v, 1 ≤ v ∧ v ≤ n ∧ l = dec v := by
  rcases List.eq_nil_or_concat m with rfl | ⟨m', b, rfl⟩
  · exact absurd rfl hm
  · rw [List.concat_eq_append, ← List.append_assoc] at e
    exact dec_prefix n l m' h1 (List.append_inj_left' e rfl)

/-- R224: the stream ends inside a number. -/
theorem number_trunc {d : Nat} {term : Byte} (ht : term.toNat < 0x30) {l m : List Byte} {n} (h1 : 1 ≤ n) (h2 : n ≤ d) (hm : m ≠ []) (e : l ++ m = dec n ++ [term]) : number d term l = .error .trunc := by
  rcases dec_term_prefix h1 hm e with rfl | ⟨v, a, b, rfl⟩
  · rfl
  · have := number_dec (d := d) ht v a (by omega) []
    rw [List.append_nil] at this; rw [this]; rfl

/-- R224: a wrong byte inside a number. -/
theorem number_precond {d : Nat} {term : Byte} (ht : term.toNat < 0x30) {l m : List Byte} {wrong rest} {n} (h1 : 1 ≤ n) (h2 : n ≤ d) (hm : m ≠ []) (e : l ++ m = dec n ++ [term])
    (hw : ∀ n m, 1 ≤ n → n ≤ d →
        l ++ wrong :: m ≠ dec n ++ [term]) : number d term (l ++ wrong :: rest) = .error .precond := by
  rcases dec_term_prefix h1 hm e with rfl | ⟨v, a, b, rfl⟩
  · simp only [List.nil_append, number]
    split
    · rfl
    · split
      · rfl
      · exfalso
        have := hw (wrong.toNat - 0x30) [term] (by omega) (by omega)
        rw [dec_small (by omega), digitByte_toNat_sub (by omega) (by omega)] at this
        exact this rfl
  · rw [number_dec ht v a (by omega), numberLoop]
    split
    · exfalso; subst_vars; exact hw v [] a (by omega) rfl
    · split
      · rfl
      · split
        · rfl
        · exfalso
          have := hw (10 * v + (wrong.toNat - 0x30)) [term] (by omega) (by omega)
          rw [dec_big (n := 10 * v + (wrong.toNat - 48)) (by omega),
              show (10 * v + (wrong.toNat - 48)) / 10 = v by omega,
              show (10 * v + (wrong.toNat - 48)) % 10 = wrong.toNat - 48 by omega,
              digitByte_toNat_sub (by omega) (by omega)] at this
          simp at this

theorem expect_full (es r) : expect es (es ++ r) = .ok r := by
  induction es with
  | nil => rfl
  | cons e es ih => simp [expect, ih]

theorem expect_inv {es l r} (h : expect es l = .ok r) : l = es ++ r := by
  induction es generalizing l with
  | nil => cases h; rfl
  | cons e es ih =>
    cases l with
    | nil => cases h
    | cons b s =>
      simp only [expect] at h
      split at h
      · subst_vars; rw [ih h]; rfl
      · cases h

/-- R224: the stream ends inside a fixed run. -/
theorem expect_trunc {es l m} (hm : m ≠ []) (e : l ++ m = es) : expect es l = .error .trunc := by
  induction l generalizing es with
  | nil => subst e; cases m with
    | nil => exact absurd rfl hm
    | cons => rfl
  | cons b s ih =>
    subst e; simp [expect, ih rfl]

/-- R224: a wrong byte inside a fixed run. -/
theorem expect_precond {es l m wrong rest} (hm : m ≠ []) (e : l ++ m = es) (hw : ∀ m,
    l ++ wrong :: m ≠ es) : expect es (l ++ wrong :: rest) = .error .precond := by
  induction l generalizing es with
  | nil =>
    subst e; cases m with
    | nil => exact absurd rfl hm
    | cons c m =>
      simp only [List.nil_append, expect]
      rw [if_neg]; rintro rfl; exact hw m rfl
  | cons b s ih =>
    subst e
    simp only [List.cons_append, expect, if_true]
    exact ih rfl (fun m h => hw m (by simp [h]))

theorem sp_lt : sp.toNat < 0x30 := by decide

theorem lf_lt : lf.toNat < 0x30 := by decide

theorem header_eq (pw ph) : header pw ph = (Config.magic ++ [lf]) ++ ((dec pw ++ [sp]) ++ (dec ph ++ [lf])) :=
    by simp [header]

/-- R223 to R225 on a header in range. -/
theorem readHeader_full {d pw ph r} (h1 : 1 ≤ pw) (h2 : pw ≤ d) (h3 : 1 ≤ ph) (h4 : ph ≤ d) : readHeader d (header pw ph ++ r) = if pw % 2 = 0 ∧ ph % 2 = 0 then .ok (pw / 2, ph / 2, r) else .error .precond := by
  unfold readHeader
  rw [header_eq, List.append_assoc, expect_full, bind_of_ok]
  rw [show (dec pw ++ [sp] ++ (dec ph ++ [lf])) ++ r = dec pw ++ sp :: (dec ph ++ lf :: r) by simp]
  rw [number_full sp_lt h1 h2, bind_of_ok]
  dsimp only
  rw [number_full lf_lt h3 h4, bind_of_ok]
  dsimp only
  split
  · rw [require_true (by assumption)]; rfl
  · rw [require_false (by assumption)]; rfl

/-- What the header's scan accepts. -/
theorem readHeader_inv {d cw ch s r} (h : readHeader d s = .ok (cw, ch, r)) : 1 ≤ cw ∧ 2 * cw ≤ d ∧ 1 ≤ ch ∧ 2 * ch ≤ d ∧
    s = header (2 * cw) (2 * ch) ++ r := by
  simp only [readHeader, bind_ok] at h
  obtain ⟨s1, he, ⟨pw, s2⟩, hw, ⟨ph, s3⟩, hh, _, hr, e⟩ := h
  simp only [pure_eq_ok, Except.ok.injEq, Prod.mk.injEq] at e
  obtain ⟨rfl, rfl, rfl⟩ := e
  have hr := require_ok.mp hr
  obtain ⟨a1, a2, a3⟩ := number_inv hw
  obtain ⟨b1, b2, b3⟩ := number_inv hh
  dsimp only at *
  refine ⟨by omega, by omega, by omega, by omega, ?_⟩
  rw [expect_inv he, a3, b3, show 2 * (pw/2) = pw by omega, show 2 * (ph/2) = ph by omega, header_eq]; simp

theorem wireRead_some {d} {m : Memory} {s} (h : m.strm = some s) : wireRead d m = (parseStream d s).map fun C => { m with cwa := some C, strm := none } := by
  unfold wireRead; rw [h]

theorem cells_length (xs : List Codeword) : (xs.flatMap fun x => beBytes Config.cwBytes x.toNat).length = 4 * xs.length := by
  induction xs with
  | nil => rfl
  | cons x xs ih => rw [List.flatMap_cons, List.length_append, ih, beBytes_length]; simp [Config.cwBytes]; ring

theorem memRead_cells (xs : List Codeword) (k) (h : k < xs.length) : memRead (xs.flatMap fun x => beBytes Config.cwBytes x.toNat) (4 * k) 4 = (xs[k]).toNat := by
  induction xs generalizing k with
  | nil => simp at h
  | cons x xs ih =>
    rw [List.flatMap_cons]
    cases k with
    | zero =>
      rw [memRead_left _ _ (by rw [beBytes_length]; simp [Config.cwBytes])]
      unfold memRead
      simp only [Nat.mul_zero, List.drop_zero]
      rw [List.take_of_length_le (by rw [beBytes_length]; simp [Config.cwBytes]), beNat_beBytes]
      · rfl
      · have := x.isLt; simp [Config.cwBytes]; omega
    | succ k =>
      have := memRead_append (beBytes Config.cwBytes x.toNat) (xs.flatMap fun x => beBytes Config.cwBytes x.toNat) (4 * k) 4
      rw [beBytes_length] at this
      rw [show 4 * (k + 1) = Config.cwBytes + 4 * k by simp [Config.cwBytes]; ring, this, ih k (by simpa using h)]; rfl

theorem body_length {C : Arr Codeword} (hs : C.Sized) : (body C).length = 4 * C.w * C.h := by
  unfold body; rw [cells_length, hs]; ring

/-- R222: a codeword's place in the body. -/
theorem body_get {C : Arr Codeword} (hs : C.Sized) {col row} (hc : col < C.w) (hr : row < C.h) : memRead (body C) (4 * (row * C.w + col)) 4 = (C.get col row).toNat := by
  have hi : row * C.w + col < C.elems.length := hs ▸ index_lt hc hr
  unfold body; rw [memRead_cells _ _ hi]
  simp [Arr.get, List.getD_eq_getElem?_getD, hi]

/-- 30_encoding.md R96. -/
theorem header_length (pw ph) : (header pw ph).length = headerLength pw ph := by
  have : Config.magic.length = 32 := rfl
  simp only [header, headerLength, numDigits, List.length_append, this, List.length_singleton]; omega

/-- R223 behind a header in range. -/
theorem parseStream_full {d pw ph r} (h1 : 1 ≤ pw) (h2 : pw ≤ d) (h3 : 1 ≤ ph) (h4 : ph ≤ d) : parseStream d (header pw ph ++ r) = if pw % 2 = 0 ∧ ph % 2 = 0 then (if r.length < 4 * (pw/2) * (ph/2) then .error .trunc else .ok (Arr.tabulate (pw/2) (ph/2) (codewordAt r (pw/2)))) else .error .precond := by
  unfold parseStream; rw [readHeader_full h1 h2 h3 h4]
  split
  · rfl
  · rfl

theorem codewordAt_toNat (r cw col row) : (codewordAt r cw col row).toNat = memRead r (4 * (row * cw + col)) 4 := by
  unfold codewordAt; rw [BitVec.toNat_ofNat, Nat.mod_eq_of_lt (memRead_lt _ _)]

end Sys2Proof.Machine
end

