-- ==== Sys2Proof/Machine/AsmText.lean ====
section
/-! DEFINITION. The assembler syntax as text (30_encoding.md R97): one line to one statement. The text of `.load`'s value has no
grammar in R97, so that statement exists in abstract form only (log entry 13). A `_` inside digits is the one that 00_scope.md
R9 allows in a 64-bit word. -/

namespace Sys2Proof.Machine

/-- The tokens of a line. -/
inductive Tok where
  | num (q : ℚ)
  /-- `%name` and `%name.i`. -/
  | ref (n : List Char) (i : Option Nat)
  | word (w : List Char)
  /-- `.word`, a host action. -/
  | dot (w : List Char)
  | comma | lpar | rpar | eq
deriving DecidableEq, Repr

/-- The digits of R97's two bases in order: the first ten are the decimal digits, all sixteen the hexadecimal ones. -/
def digitOrder : List Char := "0123456789ABCDEF".toList

/-- The value of a digit in a base: its place among the base's digits, a hexadecimal letter in either case (R97). -/
def digitValue (base : Nat) (c : Char) : Option Nat := (digitOrder.take base).idxOf? c.toUpper

/-- A character of a name or a mnemonic. -/
def isWordChar (c : Char) : Bool :=
  decide ('A' ≤ c ∧ c ≤ 'Z') || decide ('a' ≤ c ∧ c ≤ 'z') || decide ('0' ≤ c ∧ c ≤ '9') || decide (c = '_')

/-- A run of digits: how many, their value, and what follows; an underscore counts for nothing. -/
def digitRun (base : Nat) : Nat → Nat → List Char → Nat × Nat × List Char
  | n, v, [] => (n, v, [])
  | n, v, c :: cs =>
    if c = '_' ∧ n ≠ 0 then digitRun base n v cs
    else
      match digitValue base c with
      | some d => digitRun base (n + 1) (base * v + d) cs
      | none => (n, v, c :: cs)

/-- A word and what follows. -/
def wordRun : List Char → List Char × List Char
  | [] => ([], [])
  | c :: cs => if isWordChar c then (c :: (wordRun cs).1, (wordRun cs).2) else ([], c :: cs)

/-- Unsigned digits, decimal or `0x` hexadecimal: their value, whether they are hexadecimal, and what follows (R97,
`integer` without its sign). -/
def lexDigits : List Char → Option (Nat × Bool × List Char)
  | '0' :: 'x' :: rest =>
    match digitRun 16 0 0 rest with
    | (0, _, _) => none
    | (_ + 1, v, after) => some (v, true, after)
  | cs =>
    match digitRun 10 0 0 cs with
    | (0, _, _) => none
    | (_ + 1, v, after) => some (v, false, after)

/-- An exact number after its sign, if it has one: an integer, an integer over decimal digits, or digits with a decimal
point (R97). A sign stands before decimal digits only, and a denominator of zero is no rational. -/
def lexNumber (negative : Bool) (cs : List Char) : Option (ℚ × List Char) :=
  match lexDigits cs with
  | none => none
  | some (v, hex, rest) =>
    if negative ∧ hex then none
    else
      match hex, rest with
      | _, '/' :: after =>
        match digitRun 10 0 0 after with
        | (0, _, _) => none
        | (_ + 1, 0, _) => none
        | (_ + 1, d + 1, tail) => some ((v : ℚ) / ((d + 1 : Nat) : ℚ), tail)
      | false, '.' :: after =>
        match digitRun 10 0 0 after with
        | (0, _, _) => none
        | (n + 1, f, tail) => some ((v : ℚ) + (f : ℚ) / (10 : ℚ) ^ (n + 1), tail)
      | _, _ => some ((v : ℚ), rest)

/-- The tokens of a line, a comment left out; none where a character starts no token. `fuel` bounds how many. -/
def lexLine : Nat → List Char → Option (List Tok)
  | 0, _ => none
  | _ + 1, [] => some []
  | fuel + 1, c :: cs =>
    if c = ' ' ∨ c = '\t' then lexLine fuel cs
    else if c = ';' then some []
    else if c = ',' then (lexLine fuel cs).map (.comma :: ·)
    else if c = '(' then (lexLine fuel cs).map (.lpar :: ·)
    else if c = ')' then (lexLine fuel cs).map (.rpar :: ·)
    else if c = '=' then (lexLine fuel cs).map (.eq :: ·)
    else if c = '%' then
      match wordRun cs with
      | ([], _) => none
      | (w, '.' :: after) =>
        match digitRun 10 0 0 after with
        | (0, _, _) => none
        | (_ + 1, i, rest) => (lexLine fuel rest).map (.ref w (some i) :: ·)
      | (w, rest) => (lexLine fuel rest).map (.ref w none :: ·)
    else if c = '.' then
      match wordRun cs with
      | ([], _) => none
      | (w, rest) => (lexLine fuel rest).map (.dot w :: ·)
    else if c = '-' then
      match lexNumber true cs with
      | none => none
      | some (q, rest) => (lexLine fuel rest).map (.num (-q) :: ·)
    else
      match lexNumber false (c :: cs) with
      | some (q, rest) => (lexLine fuel rest).map (.num q :: ·)
      | none =>
        match wordRun (c :: cs) with
        | ([], _) => none
        | (w, rest) => (lexLine fuel rest).map (.word w :: ·)

/-- The 26 mnemonics of R81, upper case. -/
def mnemonics : List (List Char × Op) :=
  [("FITSU".toList, .fitsu), ("FITSS".toList, .fitss), ("GETU".toList, .getu), ("GETS".toList, .gets),
   ("SETU".toList, .setu), ("SETS".toList, .sets)] ++
  [("QFWD".toList, .qfwd), ("QINV".toList, .qinv), ("SQFWD".toList, .sqfwd), ("SQINV".toList, .sqinv)] ++
  [("CFWD".toList, .cfwd), ("CINV".toList, .cinv), ("SCFWD".toList, .scfwd), ("SCINV".toList, .scinv)] ++
  [("BFWD".toList, .bfwd), ("BINV".toList, .binv), ("SBFWD".toList, .sbfwd), ("SBINV".toList, .sbinv)] ++
  [("CWASM".toList, .cwasm), ("CWDIS".toList, .cwdis), ("SCWASM".toList, .scwasm), ("SCWDIS".toList, .scwdis)] ++
  [("WWRITE".toList, .wwrite), ("WREAD".toList, .wread), ("COMPRESS".toList, .compress),
   ("DECOMPRESS".toList, .decompress)]

/-- The six buffer names (R97, `BUF`). -/
def bufNames : List (List Char × BufName) :=
  [("PIX".toList, .pix), ("CV".toList, .cv), ("BLK".toList, .blk), ("QBLK".toList, .qblk), ("CWA".toList, .cwa),
   ("STRM".toList, .strm)]

/-- An operand list, its grouping dropped: `depth` parentheses are open; `more` says that an operand must come next. -/
def parseOperands : Nat → Bool → List Tok → Option (List Atom)
  | 0, false, [] => some []
  | depth, true, .num q :: ts => (parseOperands depth false ts).map (.num q :: ·)
  | depth, true, .ref n none :: ts => (parseOperands depth false ts).map (.name (String.ofList n) :: ·)
  | depth, true, .ref n (some i) :: ts => (parseOperands depth false ts).map (.comp (String.ofList n) i :: ·)
  | depth, true, .lpar :: ts => parseOperands (depth + 1) true ts
  | depth, false, .comma :: ts => parseOperands depth true ts
  | depth + 1, false, .rpar :: ts => parseOperands depth false ts
  | _, _, _ => none

/-- A command without its binding: a mnemonic and its operands, if any. -/
def parseCommand (bind : Option String) : List Tok → Option Stmt
  | .word w :: ts =>
    ((mnemonics.find? fun e => e.1 == w).map (·.2)).bind fun op =>
      match ts with
      | [] => some (.command bind op [])
      | t :: rest => (parseOperands 0 true (t :: rest)).map (.command bind op ·)
  | _ => none

/-- A statement from a line's tokens (R97). -/
def parseTokens : List Tok → Option Stmt
  | .ref n none :: .eq :: ts => parseCommand (some (String.ofList n)) ts
  | [.dot w] => if w = "status".toList then some .status else if w = "reset".toList then some .reset else none
  | [.dot w, .word b] =>
    if w = "read".toList then (bufNames.find? fun e => e.1 == b).map fun e => .read e.2 else none
  | ts => parseCommand none ts

/-- The statement a line spells (R97); none for a line that spells none. -/
def parseLine (line : List Char) : Option Stmt := (lexLine (line.length + 1) line).bind parseTokens

end Sys2Proof.Machine
end

