-- ==== Sys2Proof/Tests/Slice0.lean ====
section
/-! SUPPORT. The model's own tests: well-formedness, decoding of commands written out from the spec's tables, the vectors of
95_test_vectors.md (computed there by hand from the rules, not by this model), and for every obligation with hypotheses a
concrete state and operands that meet them. Where a vector needs a chroma table or a bound it uses the spec's own test
values: `CHROMA_TEST16` (41_quantizer.md R149) and `DIM_MAX = 65534`. -/

namespace Sys2Proof.Tests

open Sys2Proof Sys2Proof.Machine Sys2Proof.Safety

/-- The reset state with the given buffers. -/
def on (m : Memory) : State := { State.reset with mem := m }

/-- The reset state with the given actions waiting. -/
def asked (l : List HostAction) : State := { State.reset with inbox := l }

/-- A state after an OverflowError (95_test_vectors.md V101). -/
def broken : State := State.reset.takeFault .overflow

/-- The outcome is this next state: a test that evaluates. -/
def answers (o : Host.Outcome State Fault Refusal) (t : State) : Bool :=
  match o with
  | .next s => decide (s = t)
  | .fault _ => false
  | .refused _ => false

theorem of_answers {o : Host.Outcome State Fault Refusal} {t : State} (h : answers o t = true) : o = .next t := by
  cases o with
  | next s => exact congrArg _ (of_decide_eq_true h)
  | fault f => cases h
  | refused r => cases h

/-- A pixel of three equal channels. -/
def grey (v : Byte) : Rgb := ⟨v, v, v⟩

/-! ### Well-formedness: one good term, and one ill-formed term per check -/

theorem test_wf_fitsu : (Instr.fitsu (u64Size - 1) 127).WellFormed ∧ ¬ (Instr.fitsu u64Size 0).WellFormed ∧
    ¬ (Instr.fitsu 0 128).WellFormed := by decide

theorem test_wf_fitss : (Instr.fitss (s64Bound - 1) 127).WellFormed ∧ (Instr.fitss (-s64Bound) 0).WellFormed ∧
    ¬ (Instr.fitss s64Bound 0).WellFormed ∧ ¬ (Instr.fitss (-s64Bound - 1) 0).WellFormed ∧
    ¬ (Instr.fitss 0 128).WellFormed := by decide

theorem test_wf_getu : (Instr.getu (u64Size - 1) 127 127).WellFormed ∧ ¬ (Instr.getu u64Size 0 0).WellFormed ∧
    ¬ (Instr.getu 0 128 0).WellFormed ∧ ¬ (Instr.getu 0 0 128).WellFormed := by decide

theorem test_wf_gets : (Instr.gets (u64Size - 1) 127 127).WellFormed ∧ ¬ (Instr.gets u64Size 0 0).WellFormed ∧
    ¬ (Instr.gets 0 128 0).WellFormed ∧ ¬ (Instr.gets 0 0 128).WellFormed := by decide

theorem test_wf_setu : (Instr.setu (u64Size - 1) 127 127 (u64Size - 1)).WellFormed ∧
    ¬ (Instr.setu u64Size 0 0 0).WellFormed ∧ ¬ (Instr.setu 0 128 0 0).WellFormed ∧
    ¬ (Instr.setu 0 0 128 0).WellFormed ∧ ¬ (Instr.setu 0 0 0 u64Size).WellFormed := by decide

theorem test_wf_sets : (Instr.sets (u64Size - 1) 127 127 (-s64Bound)).WellFormed ∧
    ¬ (Instr.sets u64Size 0 0 0).WellFormed ∧ ¬ (Instr.sets 0 128 0 0).WellFormed ∧
    ¬ (Instr.sets 0 0 128 0).WellFormed ∧ ¬ (Instr.sets 0 0 0 s64Bound).WellFormed ∧
    ¬ (Instr.sets 0 0 0 (-s64Bound - 1)).WellFormed := by decide

theorem test_wf_cwdis : (Instr.cwdis (u64Size - 1)).WellFormed ∧ ¬ (Instr.cwdis u64Size).WellFormed := by decide

/-! ### Decoding: `OP` written as `UNIT`, `S`, `FN` bits (30_encoding.md R80, R81), the operand wires by R83 -/

theorem test_decode_unit1 :
    decode { op := 0b00010000, args := { Wires.zero with value := 0xFFFFFFFFFFFFFFFF, width := 64 } } =
      .ok (.fitsu 18446744073709551615 64) ∧
    decode { op := 0b00010001, args := { Wires.zero with value := 0xFFFFFFFFFFFFFFFF, width := 64 } } =
      .ok (.fitss (-1) 64) ∧
    decode { op := 0b00010010, args := { Wires.zero with word := 0x3F4, width := 6, lsb := 2 } } = .ok (.getu 1012 6 2) ∧
    decode { op := 0b00010011, args := { Wires.zero with word := 0x3F4, width := 6, lsb := 2 } } = .ok (.gets 1012 6 2) ∧
    decode { op := 0b00010100, args := { Wires.zero with word := 7, width := 6, lsb := 26, value := 63 } } =
      .ok (.setu 7 6 26 63) ∧
    decode { op := 0b00010101, args := { Wires.zero with word := 7, width := 6, lsb := 8, value := 0xFFFFFFFFFFFFFFE2 } } =
      .ok (.sets 7 6 8 (-30)) := by decide

theorem test_decode_unit2 :
    decode { op := 0b00100000, args := { Wires.zero with blk := ⟨1, 2, 3, 4, 5, 6⟩ } } = .ok (.qfwd ⟨1, 2, 3, 4, 5, 6⟩) ∧
    decode { op := 0b00100001, args := { Wires.zero with qblk := ⟨1, 2, 3, 4, 5, 6⟩ } } = .ok (.qinv ⟨1, 2, 3, 4, 5, 6⟩) ∧
    decode { op := 0b00101000, args := Wires.zero } = .ok .sqfwd ∧
    decode { op := 0b00101001, args := Wires.zero } = .ok .sqinv := by decide +kernel

theorem test_decode_unit3 :
    decode { op := 0b00110000, args := { Wires.zero with r := 1, g := 2, b := 3, denom := 4 } } = .ok (.cfwd 1 2 3 4) ∧
    decode { op := 0b00110001, args := { Wires.zero with p1 := ⟨1, 2, 3⟩ } } = .ok (.cinv ⟨1, 2, 3⟩) ∧
    decode { op := 0b00111000, args := Wires.zero } = .ok .scfwd ∧
    decode { op := 0b00111001, args := Wires.zero } = .ok .scinv := by decide +kernel

theorem test_decode_unit4 :
    decode { op := 0b01000000,
             args := { Wires.zero with p1 := ⟨1, 0, 0⟩, p2 := ⟨2, 0, 0⟩, p3 := ⟨3, 0, 0⟩, p4 := ⟨4, 0, 0⟩ } } =
      .ok (.bfwd ⟨1, 0, 0⟩ ⟨2, 0, 0⟩ ⟨3, 0, 0⟩ ⟨4, 0, 0⟩) ∧
    decode { op := 0b01000001, args := { Wires.zero with blk := ⟨1, 2, 3, 4, 5, 6⟩ } } = .ok (.binv ⟨1, 2, 3, 4, 5, 6⟩) ∧
    decode { op := 0b01001000, args := Wires.zero } = .ok .sbfwd ∧
    decode { op := 0b01001001, args := Wires.zero } = .ok .sbinv := by decide +kernel

theorem test_decode_unit5 :
    decode { op := 0b01010000, args := { Wires.zero with qblk := ⟨1, 2, 3, 4, 5, 6⟩ } } = .ok (.cwasm ⟨1, 2, 3, 4, 5, 6⟩) ∧
    decode { op := 0b01010001, args := { Wires.zero with word := 0xFFFFFFFF12345678 } } = .ok (.cwdis 0xFFFFFFFF12345678) ∧
    decode { op := 0b01011000, args := Wires.zero } = .ok .scwasm ∧
    decode { op := 0b01011001, args := Wires.zero } = .ok .scwdis := by decide +kernel

theorem test_decode_units6and7 :
    decode { op := 0b01101000, args := Wires.zero } = .ok .wwrite ∧
    decode { op := 0b01101001, args := Wires.zero } = .ok .wread ∧
    decode { op := 0b01111000, args := Wires.zero } = .ok .compress ∧
    decode { op := 0b01111001, args := Wires.zero } = .ok .decompress := by decide +kernel

/-- 95_test_vectors.md V106, and the neighbours of the used codes. -/
theorem test_decode_reserved :
    [0x00, 0x0F, 0x16, 0x17, 0x18, 0x22, 0x2A, 0x60, 0x61, 0x6A, 0x70, 0x7A, 0x80, 0x90, 0xFF].all
      (fun op => (decodeOp op).isNone) = true := by decide

/-- A table row's word, and the very next step of the state it is placed in. -/
theorem test_table_word :
    decodeTableWord 8 0x12 = some (.getu 0 0 0) ∧ decodeTableWord 8 0x16 = none ∧ decodeTableWord 8 0x79 = some .decompress ∧
    answers (step (State.reset.withFetchWord 8 0x12)) (State.reset.complete (.u64 0)) = true := by decide +kernel

/-! ### Unit 1: 95_test_vectors.md V1 to V40d -/

theorem test_fitsu :
    answers (exec (.fitsu 63 6) State.reset) (State.reset.complete (.bool true)) = true ∧
    answers (exec (.fitsu 64 6) State.reset) (State.reset.complete (.bool false)) = true ∧
    answers (exec (.fitsu 0 0) State.reset) (State.reset.complete (.bool true)) = true ∧
    answers (exec (.fitsu 0xFFFFFFFFFFFFFFFF 64) State.reset) (State.reset.complete (.bool true)) = true ∧
    answers (exec (.fitsu 0 65) State.reset) (State.reset.takeFault .precond) = true := by decide +kernel

theorem test_fitss :
    answers (exec (.fitss 0 0) State.reset) (State.reset.complete (.bool false)) = true ∧
    answers (exec (.fitss (-32) 6) State.reset) (State.reset.complete (.bool true)) = true ∧
    answers (exec (.fitss (-33) 6) State.reset) (State.reset.complete (.bool false)) = true ∧
    answers (exec (.fitss 1 1) State.reset) (State.reset.complete (.bool false)) = true ∧
    answers (exec (.fitss 9223372036854775807 64) State.reset) (State.reset.complete (.bool true)) = true := by decide +kernel

theorem test_getu :
    answers (exec (.getu 0x3F4 6 2) State.reset) (State.reset.complete (.u64 61)) = true ∧
    answers (exec (.getu 0x0123456789ABCDEF 0 64) State.reset) (State.reset.complete (.u64 0)) = true ∧
    answers (exec (.getu 0xFEDCBA9876543210 63 1) State.reset) (State.reset.complete (.u64 0x7F6E5D4C3B2A1908)) = true ∧
    answers (exec (.getu 0x0123456789ABCDEF 64 0) State.reset) (State.reset.complete (.u64 0x0123456789ABCDEF)) = true ∧
    answers (exec (.getu 0x0123456789ABCDEF 8 57) State.reset) (State.reset.takeFault .precond) = true := by decide +kernel

theorem test_gets :
    answers (exec (.gets 0x3F4 6 2) State.reset) (State.reset.complete (.s64 (-3))) = true ∧ asU64 (-3) = 0xFFFFFFFFFFFFFFFD ∧
    answers (exec (.gets 0xFEDCBA9876543210 64 0) State.reset) (State.reset.complete (.s64 (-81985529216486896))) = true ∧
    answers (exec (.gets 0xFEDCBA9876543210 1 63) State.reset) (State.reset.complete (.s64 (-1))) = true ∧
    answers (exec (.gets 0xFEDCBA9876543210 12 4) State.reset) (State.reset.complete (.s64 801)) = true := by decide +kernel

theorem test_setu :
    answers (exec (.setu 0xFFFFFFFFFFFFFFFF 6 26 0) State.reset) (State.reset.complete (.u64 0xFFFFFFFF03FFFFFF)) = true ∧
    answers (exec (.setu 0x0123456789ABCDEF 8 56 0xAB) State.reset) (State.reset.complete (.u64 0xAB23456789ABCDEF)) = true ∧
    answers (exec (.setu 0x0123456789ABCDEF 64 0 0x55) State.reset) (State.reset.complete (.u64 0x55)) = true ∧
    answers (exec (.setu 0 6 26 64) State.reset) (State.reset.takeFault .overflow) = true ∧
    answers (exec (.setu 0 70 0 0x8000000000000000) State.reset) (State.reset.takeFault .precond) = true := by decide +kernel

theorem test_sets :
    answers (exec (.sets 0xFFFFFFFFFFFFFFFF 6 20 (-32)) State.reset) (State.reset.complete (.u64 0xFFFFFFFFFE0FFFFF)) = true ∧
    answers (exec (.sets 0 6 8 (-30)) State.reset) (State.reset.complete (.u64 0x2200)) = true ∧
    answers (exec (.sets 0x0123456789ABCDEF 1 63 (-1)) State.reset) (State.reset.complete (.u64 0x8123456789ABCDEF)) = true ∧
    answers (exec (.sets 0 6 20 32) State.reset) (State.reset.takeFault .overflow) = true ∧
    answers (exec (.sets 0 0 0 0) State.reset) (State.reset.takeFault .overflow) = true := by decide +kernel

/-! ### Unit 2: V41 to V54, with the spec's test table -/

theorem test_qfwd :
    quantForward chromaTest16 ⟨1/2, 5, -5, 3/10, 1/2, -1/2⟩ = ⟨32, 30, -30, 30, 15, 0⟩ ∧
    quantForward chromaTest16 ⟨0, 1/200, -1/200, 3/200, 3/32, -3/32⟩ = ⟨0, 1, -1, 2, 10, 6⟩ ∧
    quantForward chromaTest16 ⟨1/126, -3/200, 1/40, -1/40, 7/16, 15/32⟩ = ⟨1, -2, 3, -3, 15, 15⟩ ∧
    quantForward chromaTest16 ⟨5/126, 59/200, -59/200, 2949/10000, 0, 0⟩ = ⟨3, 30, -30, 29, 8, 8⟩ ∧
    quantForward chromaTest16 ⟨-1/5, 0, 0, 0, 0, 0⟩ = ⟨-13, 0, 0, 0, 8, 8⟩ := by decide +kernel

theorem test_qinv :
    quantInverse chromaTest16 ⟨63, -32, 31, -30, 0, 15⟩ = .ok ⟨1, -3/10, 3/10, -3/10, -1/2, 7/16⟩ ∧
    quantInverse chromaTest16 ⟨31, -1, 29, -29, 4, 12⟩ = .ok ⟨31/63, -1/100, 29/100, -29/100, -1/4, 1/4⟩ ∧
    quantInverse chromaTest16 ⟨0, 0, 0, 0, 16, 0⟩ = .error .precond ∧
    quantInverse chromaTest16 ⟨0, 0, 0, 0, 0, -1⟩ = .error .precond := by decide +kernel

/-- P5 after SBFWD and after SQFWD. -/
theorem test_sqfwd :
    quantizeForward chromaTest16 { Memory.empty with blk := some ⟨1, 2,
      [⟨4889/8000, 2237/8000, 1037/8000, -163/8000, 31347/625000, -27249/625000⟩,
       ⟨443/2000, 443/2000, 9/125, 9/125, -1/8, 2541/125000⟩]⟩ } =
    .ok { Memory.empty with qblk := some ⟨1, 2, [⟨39, 28, 13, -2, 9, 7⟩, ⟨14, 22, 7, 7, 6, 8⟩]⟩ } := by decide +kernel

/-- P5 after SQINV. -/
theorem test_sqinv :
    quantizeInverse chromaTest16 { Memory.empty with qblk := some ⟨1, 2, [⟨39, 28, 13, -2, 9, 7⟩, ⟨14, 22, 7, 7, 6, 8⟩]⟩ } =
    .ok { Memory.empty with blk := some ⟨1, 2,
      [⟨39/63, 7/25, 13/100, -1/50, 1/16, -1/16⟩, ⟨14/63, 11/50, 7/100, 7/100, -1/8, 0⟩]⟩ } := by decide +kernel

/-! ### Unit 3: V55 to V56g -/

theorem test_cfwd :
    answers (exec (.cfwd 255 0 0 255) State.reset) (State.reset.complete (.cv ⟨299/1000, -5273/31250, 1/2⟩)) = true ∧
    answers (exec (.cfwd 10 20 30 100) State.reset) (State.reset.complete (.cv ⟨363/2000, 10449/156250, -9083/156250⟩)) = true ∧
    answers (exec (.cfwd 200 100 50 255) State.reset) (State.reset.complete (.cv ⟨207/425, -26171/159375, 33791/159375⟩)) = true ∧
    answers (exec (.cfwd 1 1 1 0) State.reset) (State.reset.takeFault .precond) = true ∧
    answers (exec (.cfwd 101 0 0 100) State.reset) (State.reset.takeFault .precond) = true := by decide +kernel

theorem test_cinv :
    answers (exec (.cinv ⟨32/63, 0, 0⟩) State.reset) (State.reset.complete (.rgb ⟨129, 129, 129⟩)) = true ∧
    answers (exec (.cinv ⟨587/1000, -5176/15625, -6542/15625⟩) State.reset) (State.reset.complete (.rgb ⟨0, 255, 0⟩)) = true ∧
    answers (exec (.cinv ⟨254/255, 0, 0⟩) State.reset) (State.reset.complete (.rgb ⟨254, 254, 254⟩)) = true ∧
    answers (exec (.cinv ⟨-1/10, 0, 0⟩) State.reset) (State.reset.complete (.rgb ⟨0, 0, 0⟩)) = true := by decide +kernel

/-- P5, row 0; and P7: an odd width is no fault here. -/
theorem test_scfwd :
    answers (exec .scfwd (on { Memory.empty with pix := some ⟨100, 2, 1, [⟨10, 20, 30⟩, ⟨40, 50, 60⟩]⟩ })) { on { Memory.empty with cv := some ⟨2, 1, [⟨363/2000, 10449/156250, -9083/156250⟩,
        ⟨963/2000, 10449/156250, -9083/156250⟩]⟩ } with reply := .done } = true ∧
    answers (exec .scfwd (on { Memory.empty with pix := some ⟨255, 1, 1, [grey 0]⟩ })) { on { Memory.empty with cv := some ⟨1, 1, [⟨0, 0, 0⟩]⟩ } with reply := .done } = true := by decide +kernel

/-- P5: the first pixel after SBINV and after SCINV. -/
theorem test_scinv :
    answers (exec .scinv (on { Memory.empty with cv := some ⟨1, 1, [⟨39/63 - 7/25 - 13/100 - 1/50, 1/16, -1/16⟩]⟩ })) { on { Memory.empty with pix := some ⟨255, 1, 1, [⟨25, 54, 76⟩]⟩ } with reply := .done } = true := by decide +kernel

/-! ### Unit 4: V60 to V68 -/

theorem test_bfwd :
    answers (exec (.bfwd ⟨1/10, 1/10, -1/10⟩ ⟨1/5, 1/5, -1/5⟩ ⟨3/10, 3/10, -3/10⟩ ⟨2/5, 2/5, -2/5⟩) State.reset) (State.reset.complete (.blk ⟨1/4, 1/10, 1/20, 0, 1/4, -1/4⟩)) = true ∧
    answers (exec (.bfwd ⟨1, 0, 0⟩ ⟨0, 0, 0⟩ ⟨0, 0, 0⟩ ⟨1, 0, 0⟩) State.reset) (State.reset.complete (.blk ⟨1/2, 0, 0, 1/2, 0, 0⟩)) = true := by decide +kernel

theorem test_binv :
    answers (exec (.binv ⟨1/2, 1/10, -1/10, 1/20, 1/16, -1/16⟩) State.reset) (State.reset.complete (.quad ⟨11/20, 1/16, -1/16⟩ ⟨1/4, 1/16, -1/16⟩ ⟨13/20, 1/16, -1/16⟩
        ⟨11/20, 1/16, -1/16⟩)) = true := by decide +kernel

/-- V64 as a 2×2 array, the row-major order of 20_memory.md R51; and an odd width (P7). -/
theorem test_sbfwd :
    answers (exec .sbfwd (on { Memory.empty with
      cv := some ⟨2, 2, [⟨1/10, 1/10, -1/10⟩, ⟨1/5, 1/5, -1/5⟩, ⟨3/10, 3/10, -3/10⟩, ⟨2/5, 2/5, -2/5⟩]⟩ })) { on { Memory.empty with blk := some ⟨1, 1, [⟨1/4, 1/10, 1/20, 0, 1/4, -1/4⟩]⟩ } with reply := .done } = true ∧
    answers (exec .sbfwd (on { Memory.empty with cv := some ⟨1, 2, [⟨0, 0, 0⟩, ⟨0, 0, 0⟩]⟩ })) (State.reset.takeFault .precond) = true := by decide +kernel

/-- V67 as an array of one block. -/
theorem test_sbinv :
    answers (exec .sbinv (on { Memory.empty with blk := some ⟨1, 1, [⟨1/2, 1/10, -1/10, 1/20, 1/16, -1/16⟩]⟩ })) { on { Memory.empty with cv := some ⟨2, 2, [⟨11/20, 1/16, -1/16⟩, ⟨1/4, 1/16, -1/16⟩, ⟨13/20, 1/16, -1/16⟩,
        ⟨11/20, 1/16, -1/16⟩]⟩ } with reply := .done } = true := by decide +kernel

/-! ### Unit 5: V70 to V79 -/

theorem test_cwasm :
    answers (exec (.cwasm ⟨63, -32, 31, -1, 15, 0⟩) State.reset) (State.reset.complete (.u64 0xFE07FFF0)) = true ∧
    answers (exec (.cwasm ⟨39, 28, 13, -2, 9, 7⟩) State.reset) (State.reset.complete (.u64 0x9DC37E97)) = true ∧
    answers (exec (.cwasm ⟨63, 31, 31, 31, 15, 15⟩) State.reset) (State.reset.complete (.u64 0xFDF7DFFF)) = true := by decide +kernel

theorem test_cwasm_overflow :
    [QRec.mk 64 0 0 0 0 0, ⟨-1, 0, 0, 0, 0, 0⟩, ⟨126, 0, 0, 0, 8, 8⟩, ⟨0, 32, 0, 0, 0, 0⟩, ⟨0, 0, -33, 0, 0, 0⟩,
      ⟨0, 0, 0, 0, 16, 0⟩, ⟨0, 0, 0, 0, 0, -1⟩].all
      (fun x => decide (answers (exec (.cwasm x) State.reset) (State.reset.takeFault .overflow) = true)) = true := by decide +kernel

theorem test_cwdis :
    answers (exec (.cwdis 0x12345678) State.reset) (State.reset.complete (.qblk ⟨4, -29, 17, 22, 7, 8⟩)) = true ∧
    answers (exec (.cwdis 0xDEADBEEF) State.reset) (State.reset.complete (.qblk ⟨55, -22, -10, -2, 14, 15⟩)) = true ∧
    answers (exec (.cwdis 0xFFFFFFFF12345678) State.reset) (State.reset.complete (.qblk ⟨4, -29, 17, 22, 7, 8⟩)) = true :=
  by decide +kernel

theorem test_scwasm :
    answers (exec .scwasm (on { Memory.empty with qblk := some ⟨1, 2, [⟨39, 28, 13, -2, 9, 7⟩, ⟨14, 22, 7, 7, 6, 8⟩]⟩ })) { on { Memory.empty with cwa := some ⟨1, 2, [0x9DC37E97, 0x3961C768]⟩ } with reply := .done } = true ∧
    answers (exec .scwasm (on { Memory.empty with qblk := some ⟨1, 1, [⟨64, 0, 0, 0, 0, 0⟩]⟩ })) (State.reset.takeFault .overflow) = true := by decide +kernel

theorem test_scwdis :
    answers (exec .scwdis (on { Memory.empty with cwa := some ⟨1, 2, [0x9DC37E97, 0x3961C768]⟩ })) { on { Memory.empty with qblk := some ⟨1, 2, [⟨39, 28, 13, -2, 9, 7⟩, ⟨14, 22, 7, 7, 6, 8⟩]⟩ } with
        reply := .done } = true := by decide +kernel

/-! ### Unit 6: V80 to V98, with `DIM_MAX = 65534` -/

/-- The magic is the ASCII text of 00_scope.md R7; a header's bytes (V80). -/
theorem test_header :
    Config.magic = "COMP40 Compressed image format 2".toList.map (fun c => BitVec.ofNat 8 c.toNat) ∧
    header 2 2 = Config.magic ++ [0x0A, 0x32, 0x20, 0x32, 0x0A] ∧ (header 100 1000).length = 42 ∧
    dec 0 = [0x30] ∧ dec 65534 = [0x36, 0x35, 0x35, 0x33, 0x34] := by decide +kernel

theorem test_wwrite :
    answers (exec .wwrite (on { Memory.empty with cwa := some ⟨2, 1, [0x4C00005F, 0x1C0000F7]⟩ })) { on { Memory.empty with strm := some (Config.magic ++
        [0x0A, 0x34, 0x20, 0x32, 0x0A, 0x4C, 0x00, 0x00, 0x5F, 0x1C, 0x00, 0x00, 0xF7]) } with reply := .done } = true ∧
    answers (exec .wwrite State.reset) (State.reset.takeFault .precond) = true := by decide +kernel

theorem test_wread :
    parseStream 65534 (header 4 4 ++ [0, 0, 0, 1, 0, 0, 0, 2, 0, 0, 0, 3, 0, 0, 0, 4]) = .ok ⟨2, 2, [1, 2, 3, 4]⟩ ∧
    parseStream 65534 (header 2 2 ++ [0x80, 0x00, 0x00, 0x88, 0xAA, 0xBB, 0xCC, 0xDD, 0xEE]) = .ok ⟨1, 1, [0x80000088]⟩ :=
  by decide +kernel

theorem test_wread_faults :
    parseStream 65534 (header 4 4 ++ List.replicate 15 0) = .error .trunc ∧
    parseStream 65534 Config.magic = .error .trunc ∧
    parseStream 65534 (header 3 3) = .error .precond ∧
    parseStream 65534 (Config.magic ++ [0x0A, 0x30, 0x32, 0x20, 0x32, 0x0A, 0, 0, 0, 0]) = .error .precond ∧
    parseStream 65534 (Config.magic ++ [0x0A, 0x32, 0x20, 0x32, 0x0D, 0x0A, 0, 0, 0, 0]) = .error .precond ∧
    parseStream 65534 (header 65536 2) = .error .precond ∧
    answers (exec .wread (on { Memory.empty with strm := some [] })) (State.reset.takeFault .trunc) = true ∧
    answers (exec .wread State.reset) (State.reset.takeFault .precond) = true := by decide +kernel

/-! ### Unit 7: P2, P3 and P7 -/

theorem test_compress :
    compress chromaTest16 { Memory.empty with pix := some ⟨255, 2, 2, [grey 128, grey 128, grey 128, grey 128]⟩ } =
      .ok { Memory.empty with strm := some (header 2 2 ++ [0x80, 0x00, 0x00, 0x88]) } ∧
    compress chromaTest16 { Memory.empty with pix := some ⟨255, 3, 1, [grey 0, grey 0, grey 0]⟩ } = .error .precond :=
  by decide +kernel

theorem test_decompress :
    decompress chromaTest16 65534 { Memory.empty with strm := some (header 2 2 ++ [0x80, 0x00, 0x00, 0x88]) } =
      .ok { Memory.empty with pix := some ⟨255, 2, 2, [grey 129, grey 129, grey 129, grey 129]⟩ } := by decide +kernel

/-! ### Status, faults and the host: V100 to V107, P1 -/

theorem test_status_values :
    State.reset.readStatus = 0x00 ∧ broken.readStatus = 0x05 ∧ broken.faultSignal = true ∧
    (State.reset.takeFault .precond).readStatus = 0x03 ∧ (State.reset.takeFault .trunc).readStatus = 0x07 ∧
    (State.reset.takeFault .trunc).causeCode = 3 := by decide

theorem test_refused_while_faulted :
    answers (exec (.fitsu 1 1) broken) { broken with reply := .refused } = true ∧
    answers (step { broken with inbox := [.load (.strm [])] }) { broken with reply := .nothing } = true ∧
    answers (step { broken with inbox := [.read .pix] }) { broken with reply := .content none } = true := by decide +kernel

theorem test_reset_memory : State.reset.mem.wf = true := by decide

/-- P1, its first two statements: a result bound to a name is an operand of the next command (30_encoding.md R97). -/
theorem test_assembler :
    (Stmt.command (some "w0") .setu [.num 0, .num 6, .num 26, .num 21]).action [] = .ok (.issue (encode (.setu 0 6 26 21))) ∧
    (Stmt.command (some "w1") .sets [.name "w0", .num 6, .num 20, .num 30]).action [("w0", .u64 0x54000000)] =
      .ok (.issue (encode (.sets 0x54000000 6 20 30))) ∧
    (Stmt.command none .sets [.name "w9", .num 6, .num 20, .num 30]).action [] = .error .unboundName ∧
    (Stmt.command (some "x") .wread []).action [] = .error .bindsNothing ∧
    (Stmt.command none .wread [.num 1]).action [] = .error .badOperands ∧
    (Stmt.command none .cwasm [.num (1/2), .num 0, .num 0, .num 0, .num 0, .num 0]).action [] = .error .badOperands :=
  by decide +kernel

/-- P1, one statement run: the core's step and the name it binds. -/
theorem test_assembler_step :
    (match Session.runStmt (.command (some "w0") .setu [.num 0, .num 6, .num 26, .num 21]) ⟨State.reset, []⟩ with
      | .ok (.next σ) => decide (σ = ⟨State.reset.complete (.u64 0x54000000), [("w0", .u64 0x54000000)]⟩)
      | _ => false) = true := by decide +kernel

/-- Lines of P1, P2 and P5, and lines R97 does not have. -/
theorem test_assembler_text :
    parseLine "%w1 = SETS %w0, 6, 20, 30      ; OP 0x15   b     = 30".toList =
      some (.command (some "w1") .sets [.name "w0", .num 6, .num 20, .num 30]) ∧
    parseLine "%k  = CWASM (21, 30, -30, 15, 3, 12)   ; OP 0x50".toList =
      some (.command (some "k") .cwasm [.num 21, .num 30, .num (-30), .num 15, .num 3, .num 12]) ∧
    parseLine "GETU 0x01234567_89ABCDEF, 8, 57".toList =
      some (.command none .getu [.num 0x0123456789ABCDEF, .num 8, .num 57]) ∧
    parseLine "CINV -168736/1000000, 0.5, %k.2".toList =
      some (.command none .cinv [.num (-168736/1000000), .num (1/2), .comp "k" 2]) ∧
    parseLine "        COMPRESS                 ; OP 0x78".toList = some (.command none .compress []) ∧
    parseLine "        .read STRM".toList = some (.read .strm) ∧ parseLine ".status".toList = some .status ∧
    parseLine ".reset".toList = some .reset ∧ parseLine "getu 1, 2, 3".toList = none ∧
    parseLine "CWDIS 0x10/2".toList = some (.command none .cwdis [.num 8]) ∧ parseLine "FITSS -0x10, 8".toList = none ∧
    parseLine "GETU 1, 2, ".toList = none ∧ parseLine "CWASM (1, 2".toList = none := by decide +kernel

/-- A result tuple passes whole or by component (30_encoding.md R97). -/
theorem test_assembler_tuple :
    (Stmt.command none .binv [.name "k"]).action [("k", .blk ⟨1, 2, 3, 4, 5, 6⟩)] =
      .ok (.issue (encode (.binv ⟨1, 2, 3, 4, 5, 6⟩))) ∧
    (Stmt.command none .bfwd [.comp "q" 3, .comp "q" 2, .comp "q" 1, .comp "q" 0]).action
      [("q", .quad ⟨1, 0, 0⟩ ⟨2, 0, 0⟩ ⟨3, 0, 0⟩ ⟨4, 0, 0⟩)] =
      .ok (.issue (encode (.bfwd ⟨4, 0, 0⟩ ⟨3, 0, 0⟩ ⟨2, 0, 0⟩ ⟨1, 0, 0⟩))) := by decide +kernel

/-! ### Witnesses: for every obligation with hypotheses, a concrete state and operands that meet them all, clause by clause -/

/-- `DIM_MAX` is at least 2 (00_scope.md R8). -/
theorem two_le_dimMax : 2 ≤ Config.dimMax := by unfold Config.dimMax; omega

/-- Buffers for the S-form commands: one block, two by two pixels. -/
def onePix : PixelMap := ⟨255, 2, 2, [grey 0, grey 255, grey 128, grey 1]⟩

def oneCv : Arr CvPixel := ⟨2, 2, [⟨0, 0, 0⟩, ⟨1, 0, 0⟩, ⟨0, 0, 0⟩, ⟨1, 0, 0⟩]⟩

def oneBlk : Arr BlkRec := ⟨1, 1, [⟨1/2, 0, 0, 0, 0, 0⟩]⟩

def oneQblk : Arr QRec := ⟨1, 1, [⟨63, -32, 31, 0, 0, 15⟩]⟩

def oneCwa : Arr Codeword := ⟨1, 1, [0xFFFFFFFF]⟩

theorem witness_ResetIsTheOnlyWayOutOfAFault :
    (asked [.reset]).inbox = .reset :: [] ∧
    (let s : State := { broken with inbox := [.reset] }
     s.faulted = true ∧ answers (step s) State.reset = true ∧ State.reset.faulted = false) := by decide +kernel

theorem witness_HostLoadsReadsAndStatus :
    Running (asked [.load (.strm [1])]) ∧ (BufVal.strm [1]).ok Config.dimMax = true ∧
    (BufVal.cwa ⟨Config.dimMax / 2, 0, []⟩).ok Config.dimMax = true ∧
    ({ broken with inbox := [.load (.strm [1])] } : State).faulted = true ∧
    (BufVal.cwa ⟨Config.dimMax / 2 + 1, 0, []⟩).ok Config.dimMax = false ∧
    (BufVal.cv ⟨1, 1, []⟩).ok Config.dimMax = false ∧
    (asked [.read .pix]).inbox = .read .pix :: [] ∧ (asked [.status]).inbox = .status :: [] ∧
    legalStatus broken.status := by
  refine ⟨by decide, rfl, by simp [BufVal.ok, Arr.Sized], by decide, by simp [BufVal.ok], by simp [BufVal.ok], rfl, rfl, by decide⟩

theorem witness_StepKeepsInvariant : CoreInv State.reset ∧ CoreInv broken ∧ step State.reset = .next State.reset :=
  ⟨⟨by decide, by decide, by decide⟩, ⟨by decide, fun _ => rfl, by decide⟩, rfl⟩

theorem witness_StepRunsTheDecodedCommand :
    decode ⟨0x10, Wires.zero⟩ = .ok (.fitsu 0 0) ∧ decodeTableWord 8 0x68 = some .wwrite ∧ State.reset.inbox = [] := by
  decide +kernel

theorem witness_DecodeInvertsEncode : (Instr.sets (u64Size - 1) 127 127 (-s64Bound)).WellFormed ∧
    (Instr.setu 0 0 0 (u64Size - 1)).WellFormed := by decide

theorem witness_DecodedOperandsAreInRange :
    decode ⟨0x15, { Wires.zero with word := 0xFFFFFFFFFFFFFFFF, width := 127, lsb := 127, value := 0x8000000000000000 }⟩ =
      .ok (.sets (u64Size - 1) 127 127 (-s64Bound)) := by decide

theorem witness_ReservedCodesRaisePrecondition : (∀ i, decode ⟨0x16, Wires.zero⟩ ≠ .ok i) ∧
    Running (asked [.issue ⟨0x16, Wires.zero⟩]) := by
  have h : decode ⟨0x16, Wires.zero⟩ = .error (.reservedOp 0x16) := by decide +kernel
  exact ⟨fun i e => (by rw [h] at e; cases e), by decide⟩

theorem witness_EveryCommandEnds : (asked [.issue ⟨0xFF, Wires.zero⟩]).inbox = .issue ⟨0xFF, Wires.zero⟩ :: [] := rfl

theorem witness_FaultedCoreRefusesEveryCommand : broken.faulted = true ∧
    ({ broken with inbox := [.issue ⟨0x16, Wires.zero⟩] } : State).faulted = true ∧
    ({ broken with inbox := [.load (.strm [])] } : State).faulted = true := by decide

theorem witness_FaultEntryEmptiesEveryBuffer :
    let s := on { Memory.empty with strm := some [1], cwa := some oneCwa }
    Running s ∧ answers (exec (.setu 0 6 26 64) s) broken = true ∧ broken.faulted = true := by decide +kernel

theorem witness_StatusWrittenOnlyByFaultEntryAndReset :
    answers (step State.reset) State.reset = true ∧ answers (step (asked [.reset])) State.reset = true ∧
    answers (step (asked [.issue ⟨0x16, Wires.zero⟩])) (State.reset.takeFault .precond) = true := by decide +kernel

theorem witness_EveryWayToOverflow : Running State.reset ∧ Running (on { Memory.empty with qblk := some oneQblk }) := by decide

theorem witness_OnlyStreamReadersTruncate :
    let s := on { Memory.empty with strm := some [] }
    Running s ∧ answers (exec .wread s) (State.reset.takeFault .trunc) = true ∧
      (State.reset.takeFault .trunc).status = 0x07 := by decide +kernel

theorem witness_FFormCommandsTouchNoState :
    let s := on { Memory.empty with strm := some [1] }
    (Instr.fitsu 1 64).opName.sForm = false ∧ Running s ∧
      answers (exec (.fitsu 1 64) s) (s.complete (.bool true)) = true ∧ (s.complete (.bool true)).faulted = false := by
  decide +kernel

theorem witness_SFormCommandsReleaseInputAndFillOutput :
    let s := on { Memory.empty with cwa := some oneCwa, pix := some onePix }
    let t := s.finish { Memory.empty with pix := some onePix, strm := some (streamOf oneCwa) }
    Instr.wwrite.opName.sForm = true ∧ Running s ∧ answers (exec .wwrite s) t = true ∧ t.faulted = false ∧
      inputOf .wwrite = some .cwa ∧ outputOf .wwrite = some .strm ∧ inputOf .wwrite ≠ some .pix ∧
      outputOf .wwrite ≠ some .pix := by decide +kernel

theorem witness_EmptyOrZeroSizedInputFaults : Instr.sbfwd.opName.sForm = true ∧ inputOf .sbfwd = some .cv ∧
    Running State.reset ∧ State.reset.mem.read .cv = none ∧
    (on { Memory.empty with cv := some ⟨0, 2, []⟩ }).mem.read .cv = some (.cv ⟨0, 2, []⟩) ∧ ZeroSized (.cv ⟨0, 2, []⟩) ∧
    ZeroSized (.cv ⟨2, 0, []⟩) := by decide +kernel

theorem witness_ResultsDependOnlyOnOperandsAndInput :
    let s := on { Memory.empty with cwa := some oneCwa }
    let s' := on { Memory.empty with cwa := some oneCwa, pix := some onePix }
    s.faulted = s'.faulted ∧ (∀ b, inputOf .wwrite = some b → s.mem.read b = s'.mem.read b) ∧
      answers (exec .wwrite s) (s.finish { Memory.empty with strm := some (streamOf oneCwa) }) = true ∧
      answers (exec .wwrite s') (s'.finish { Memory.empty with pix := some onePix, strm := some (streamOf oneCwa) }) = true ∧
      Running s := by
  refine ⟨by decide, ?_, by decide +kernel, by decide +kernel, by decide⟩
  rintro b ⟨⟩
  rfl

/-- The cause clause: two states that differ in a buffer the command does not name, and both take a fault. -/
theorem witness_ResultsDependOnlyOnOperandsAndInput_cause :
    let s := State.reset
    let s' := on { Memory.empty with pix := some onePix }
    s.faulted = s'.faulted ∧ (∀ b, inputOf .wwrite = some b → s.mem.read b = s'.mem.read b) ∧
      answers (exec .wwrite s) (s.takeFault .precond) = true ∧ answers (exec .wwrite s') (s'.takeFault .precond) = true ∧
      Running s ∧ (s.takeFault .precond).faulted = true := by
  refine ⟨by decide, ?_, by decide +kernel, by decide +kernel, by decide, by decide⟩
  rintro b ⟨⟩
  rfl

theorem witness_UseAfterReleaseFaults :
    let s := on { Memory.empty with cwa := some oneCwa }
    let t := s.finish { Memory.empty with strm := some (streamOf oneCwa) }
    inputOf Instr.scwdis.opName = inputOf Instr.wwrite.opName ∧ Running s ∧ answers (exec .wwrite s) t = true ∧
      t.faulted = false := by decide +kernel

/-- The widths and positions at both sides of each bound: 64 and 65; `width + lsb` 64 and 65. -/
theorem witness_FitsUnsignedTest : Running State.reset ∧ (64 : Nat) ≤ 64 ∧ (64 : Nat) < 65 := by decide

theorem witness_FitsSignedTest : Running State.reset ∧ (64 : Nat) ≤ 64 ∧ (64 : Nat) < 65 := by decide

theorem witness_GetUnsignedExtractsTheField : Running State.reset ∧ (1 : Nat) ≤ 64 ∧ 1 + 63 ≤ 64 ∧
    (64 < 65 ∨ 64 < 65 + 0) ∧ (64 < 1 ∨ 64 < 1 + 64) := by decide

theorem witness_GetSignedExtendsTheField : Running State.reset ∧ (64 : Nat) ≤ 64 ∧ 64 + 0 ≤ 64 ∧ 1 ≤ 64 ∧
    (0 : Nat) ≤ 64 ∧ 0 + 64 ≤ 64 ∧ (64 < 65 ∨ 64 < 65 + 0) ∧ (64 < 1 ∨ 64 < 1 + 64) := by decide

theorem witness_SetUnsignedInsertsTheField : Running State.reset ∧ (6 : Nat) ≤ 64 ∧ 6 + 58 ≤ 64 ∧ 63 < 2 ^ 6 ∧
    2 ^ 6 ≤ 64 ∧ (64 < 6 ∨ 64 < 6 + 59) ∧ (0 : Nat) < 2 ^ 0 := by decide

theorem witness_SetSignedInsertsTheField : Running State.reset ∧ 1 ≤ 6 ∧ 6 ≤ 64 ∧ 6 + 58 ≤ 64 ∧
    (-2 : Int) ^ (6 - 1) ≤ -32 ∧ (-32 : Int) ≤ 2 ^ (6 - 1) - 1 ∧ (31 : Int) ≤ 2 ^ (6 - 1) - 1 ∧ (64 < 6 ∨ 64 < 6 + 59) ∧
    (6 = 0 ∨ (32 : Int) < -2 ^ (6 - 1) ∨ (2 : Int) ^ (6 - 1) - 1 < 32) ∧
    (6 = 0 ∨ (-33 : Int) < -2 ^ (6 - 1) ∨ (2 : Int) ^ (6 - 1) - 1 < -33) := by decide

theorem witness_InsertThenExtract : Running State.reset ∧ 6 + 58 ≤ 64 ∧ 63 < 2 ^ 6 ∧ (52 + 6 ≤ 58 ∨ 58 + 6 ≤ 52) ∧
    1 ≤ 6 ∧ -2 ^ (6 - 1) ≤ (-32 : Int) ∧ (-32 : Int) ≤ 2 ^ (6 - 1) - 1 := by decide

theorem witness_FirstOverflowingValues : Running State.reset ∧ 63 ≤ 63 ∧ 63 + 1 ≤ 64 ∧ 0 ≤ 63 ∧ 0 + 64 ≤ 64 ∧ 1 ≤ 1 ∧
    1 + 63 ≤ 64 := by decide

theorem witness_RoundingIsNearestTiesAwayFromZero : |(rnd (5 / 2) : ℚ) - 5 / 2| = 1 / 2 ∧ (-3 / 10 : ℚ) ≤ 3 / 10 ∧
    (0 : ℚ) ≤ 0 := by
  have h : rnd (5 / 2) = 3 := by decide +kernel
  rw [h]
  norm_num

/-- The statements about QFWD, CINV, BFWD, BINV and CWDIS on one operand, and the last clause about DECOMPRESS, ask only that no
fault stands: QuantizeOneRecord, QuantizedCodesAreInRange, ColorInverseOnePixel, BlockTransformOneQuad,
BlockTransformIsExactOnLuma, DisassembleOneCodeword. -/
theorem witness_RunningAlone : Running State.reset := by decide

theorem witness_DequantizeOneRecord : Running State.reset ∧ (0 : Int) ≤ 0 ∧ (0 : Int) ≤ 15 ∧ (15 : Int) ≤ 15 ∧
    (-1 : Int) < 0 ∧ (15 : Int) < 16 := by decide

theorem witness_QuantizeTheBlockArray :
    Running (on { Memory.empty with blk := some oneBlk }) ∧ oneBlk.Sized ∧ 1 ≤ oneBlk.w ∧ 1 ≤ oneBlk.h ∧
    State.reset.mem.blk = none ∧ (on { Memory.empty with blk := some ⟨0, 1, []⟩ }).mem.blk = some ⟨0, 1, []⟩ := by
  decide +kernel

theorem witness_DequantizeTheBlockArray :
    Running (on { Memory.empty with qblk := some oneQblk }) ∧ oneQblk.Sized ∧ 1 ≤ oneQblk.w ∧ 1 ≤ oneQblk.h ∧
    (∀ x ∈ oneQblk.elems, (0 ≤ x.ipb ∧ x.ipb ≤ 15) ∧ (0 ≤ x.ipr ∧ x.ipr ≤ 15)) ∧
    (⟨0, 0, 0, 0, 16, 0⟩ : QRec) ∈ (⟨1, 1, [⟨0, 0, 0, 0, 16, 0⟩]⟩ : Arr QRec).elems ∧ State.reset.mem.qblk = none := by
  decide +kernel

theorem witness_RequantizingRestoresTheCodes : Running State.reset ∧
    (let x : QRec := ⟨-1, -30, 30, 0, 0, 15⟩
     (0 ≤ x.ipb ∧ x.ipb ≤ 15) ∧ (0 ≤ x.ipr ∧ x.ipr ≤ 15) ∧ (-30 ≤ x.qb ∧ x.qb ≤ 30) ∧ (-30 ≤ x.qc ∧ x.qc ≤ 30) ∧
       (-30 ≤ x.qd ∧ x.qd ≤ 30)) := by decide

theorem witness_ColorForwardOnePixel : Running State.reset ∧ 1 ≤ (1 : Byte).toNat ∧ (1 : Byte).toNat ≤ (1 : Byte).toNat ∧
    (0 : Byte).toNat = 0 ∧ (254 : Byte).toNat < (255 : Byte).toNat := by decide

theorem witness_ColorForwardRanges : Running State.reset ∧
    answers (exec (.cfwd 255 0 0 255) State.reset) (State.reset.complete (.cv ⟨299/1000, -5273/31250, 1/2⟩)) = true ∧
    answers (exec (.cfwd 128 128 128 255) State.reset) (State.reset.complete (.cv ⟨128/255, 0, 0⟩)) = true := by
  decide +kernel

theorem witness_ColorForwardThePixelMap :
    Running (on { Memory.empty with pix := some onePix }) ∧ onePix.px.Sized ∧ 1 ≤ onePix.px.w ∧ 1 ≤ onePix.px.h ∧
    1 ≤ onePix.denom.toNat ∧ (∀ x ∈ onePix.px.elems, x.r.toNat ≤ onePix.denom.toNat ∧ x.g.toNat ≤ onePix.denom.toNat ∧
      x.b.toNat ≤ onePix.denom.toNat) ∧
    (let bad : PixelMap := ⟨100, 1, 1, [⟨101, 0, 0⟩]⟩
     bad.px.Sized ∧ ∃ x ∈ bad.px.elems, bad.denom.toNat < x.r.toNat ∨ bad.denom.toNat < x.g.toNat ∨
       bad.denom.toNat < x.b.toNat) ∧
    (⟨0, 1, 1, [grey 0]⟩ : PixelMap).denom.toNat = 0 ∧ State.reset.mem.pix = none := by decide +kernel

theorem witness_ColorInverseTheArray : Running (on { Memory.empty with cv := some oneCv }) ∧ oneCv.Sized ∧ 1 ≤ oneCv.w ∧
    1 ≤ oneCv.h ∧ State.reset.mem.cv = none ∧ (⟨1, 0, []⟩ : Arr CvPixel).h = 0 := by decide +kernel

theorem witness_BlockForwardTheArray : Running (on { Memory.empty with cv := some oneCv }) ∧ oneCv.Sized ∧ 1 ≤ oneCv.w ∧
    1 ≤ oneCv.h ∧ oneCv.w % 2 = 0 ∧ oneCv.h % 2 = 0 ∧ State.reset.mem.cv = none ∧
    (⟨1, 2, [⟨0, 0, 0⟩, ⟨0, 0, 0⟩]⟩ : Arr CvPixel).w % 2 = 1 := by decide +kernel

theorem witness_BlockInverseTheArray : Running (on { Memory.empty with blk := some oneBlk }) ∧ oneBlk.Sized ∧
    1 ≤ oneBlk.w ∧ 1 ≤ oneBlk.h ∧ State.reset.mem.blk = none ∧ (⟨0, 0, []⟩ : Arr BlkRec).w = 0 := by decide +kernel

theorem witness_BlockArrayRoundTripKeepsLuma : Running (on { Memory.empty with cv := some oneCv }) ∧ oneCv.Sized ∧
    1 ≤ oneCv.w ∧ 1 ≤ oneCv.h ∧ oneCv.w % 2 = 0 ∧ oneCv.h % 2 = 0 := by decide +kernel

theorem witness_AssembleOneCodeword : Running State.reset ∧ InRange ⟨63, -32, 31, 0, 0, 15⟩ ∧
    ¬ InRange ⟨64, 0, 0, 0, 0, 0⟩ ∧ ¬ InRange ⟨0, 0, 0, -33, 0, 0⟩ ∧ ¬ InRange ⟨0, 0, 0, 0, 16, 0⟩ := by decide

theorem witness_CodewordRoundTrip : Running State.reset ∧ InRange ⟨63, -32, 31, 0, 0, 15⟩ ∧ 0xFFFFFFFF < 2 ^ 32 := by decide

theorem witness_AssembleTheArray : Running (on { Memory.empty with qblk := some oneQblk }) ∧ oneQblk.Sized ∧
    1 ≤ oneQblk.w ∧ 1 ≤ oneQblk.h ∧ (∀ x ∈ oneQblk.elems, InRange x) ∧
    (⟨0, 32, 0, 0, 0, 0⟩ : QRec) ∈ (⟨1, 1, [⟨0, 32, 0, 0, 0, 0⟩]⟩ : Arr QRec).elems ∧ ¬ InRange ⟨0, 32, 0, 0, 0, 0⟩ ∧
    State.reset.mem.qblk = none := by decide +kernel

theorem witness_DisassembleTheArray : Running (on { Memory.empty with cwa := some oneCwa }) ∧ oneCwa.Sized ∧
    1 ≤ oneCwa.w ∧ 1 ≤ oneCwa.h ∧ State.reset.mem.cwa = none ∧ (⟨0, 3, []⟩ : Arr Codeword).w = 0 := by decide +kernel

theorem witness_MemReadAfterMemWrite : 3 + 4 ≤ (List.replicate 7 (0 : Byte)).length ∧ 0xFFFFFFFF < 256 ^ 4 ∧
    (2 < 3 ∨ 3 + 4 ≤ 2) := by decide +kernel

theorem witness_WriteTheStream : Running (on { Memory.empty with cwa := some oneCwa }) ∧ oneCwa.Sized ∧ 1 ≤ oneCwa.w ∧
    1 ≤ oneCwa.h ∧ State.reset.mem.cwa = none ∧ 1 ≤ 1 ∧ dec 1 = [0x31] ∧ dec 0 = [0x30] ∧ dec 10 = [0x31, 0x30] :=
  by decide +kernel

/-- The dimensions at both ends of `[1, DIM_MAX]`, and a body one byte short and just long enough. -/
theorem witness_ReadTheStreamAfterAHeader :
    Running (on { Memory.empty with strm := some (header Config.dimMax 2 ++ []) }) ∧ 1 ≤ Config.dimMax ∧
    Config.dimMax ≤ Config.dimMax ∧ 1 ≤ 2 ∧ 2 ≤ Config.dimMax ∧ 1 ≤ 1 ∧ 1 ≤ Config.dimMax ∧ (1 % 2 = 1 ∨ 2 % 2 = 1) ∧
    Config.dimMax % 2 = 0 ∧ ([] : List Byte).length < Config.dimMax * 2 ∧ ([1, 2, 3] : List Byte).length < 2 * 2 ∧
    2 * 2 ≤ ([1, 2, 3, 4] : List Byte).length ∧ State.reset.mem.strm = none := by
  have := two_le_dimMax
  have h : Config.dimMax % 2 = 0 := by unfold Config.dimMax; omega
  refine ⟨rfl, by omega, le_rfl, by decide, this, le_rfl, by omega, by decide, h, ?_, by decide, by decide, rfl⟩
  simp only [List.length_nil]
  omega

theorem accepted_two_two : AcceptedHeader (header 2 2) :=
  ⟨2, 2, by decide, two_le_dimMax, by decide, two_le_dimMax, rfl⟩

/-- Truncated at the last byte and at the first; a wrong first byte. -/
theorem witness_HeaderFaultsAtTheFirstWrongOffset :
    ([lf] ≠ [] ∧ AcceptedHeader ((Config.magic ++ [lf] ++ dec 2 ++ [sp] ++ dec 2) ++ [lf])) ∧
    (header 2 2 ≠ [] ∧ AcceptedHeader ([] ++ header 2 2)) ∧
    ((∃ more, more ≠ [] ∧ AcceptedHeader ([] ++ more)) ∧ ¬ ∃ more, AcceptedHeader ([] ++ 0x44 :: more)) := by
  refine ⟨⟨by decide, accepted_two_two⟩, ⟨by decide, accepted_two_two⟩, ⟨header 2 2, by decide, accepted_two_two⟩, ?_⟩
  rintro ⟨more, pw, ph, -, -, -, -, e⟩
  injection e with e _
  exact absurd e (by decide)

theorem witness_WireRoundTrip :
    Running (on { Memory.empty with cwa := some oneCwa }) ∧ blockSized Config.dimMax oneCwa ∧ 1 ≤ oneCwa.w ∧ 1 ≤ oneCwa.h := by
  have := two_le_dimMax
  exact ⟨rfl, ⟨rfl, by show 1 ≤ _; omega, by show 1 ≤ _; omega⟩, le_rfl, le_rfl⟩

/-- The second half: a stream with no trailing byte that WREAD accepts. -/
theorem witness_WireRoundTrip_readFirst :
    let bs := header 2 2 ++ [0x80, 0x00, 0x00, 0x88]
    let s := on { Memory.empty with strm := some bs }
    let C : Arr Codeword := ⟨1, 1, [0x80000088]⟩
    let t := s.finish { Memory.empty with cwa := some C }
    Running s ∧ exec .wread s = .next t ∧ t.mem.cwa = some C ∧ Running t ∧
      bs.length = headerLength (2 * C.w) (2 * C.h) + 4 * C.w * C.h := by
  have h : ¬ Config.dimMax < 2 := by have := two_le_dimMax; omega
  have e : header 2 2 ++ [0x80, 0x00, 0x00, 0x88] =
      Config.magic ++ [lf] ++ [0x32, 0x20, 0x32, 0x0A, 0x80, 0x00, 0x00, 0x88] := by decide
  have p : parseStream Config.dimMax (header 2 2 ++ [0x80, 0x00, 0x00, 0x88]) = .ok ⟨1, 1, [0x80000088]⟩ := by
    rw [e]
    have x : expect (Config.magic ++ [lf]) (Config.magic ++ [lf] ++ [0x32, 0x20, 0x32, 0x0A, 0x80, 0x00, 0x00, 0x88]) =
        .ok [0x32, 0x20, 0x32, 0x0A, 0x80, 0x00, 0x00, 0x88] := rfl
    unfold parseStream readHeader
    rw [x]
    simp [number, numberLoop, bind, Except.bind, h, sp, lf, require, pure, Except.pure]
    decide
  refine ⟨rfl, ?_, rfl, rfl, by decide⟩
  have q : wireRead Config.dimMax (on { Memory.empty with strm := some (header 2 2 ++ [0x80, 0x00, 0x00, 0x88]) }).mem =
      .ok { Memory.empty with cwa := some ⟨1, 1, [0x80000088]⟩ } := by
    have w : ∀ d (m : Memory) bs, m.strm = some bs →
        wireRead d m = (parseStream d bs).map fun C => { m with cwa := some C, strm := none } := by
      intro d m bs hm
      unfold wireRead
      rw [hm]
    rw [w _ _ _ rfl, p]
    rfl
  have d : ∀ s, exec .wread s = runS (wireRead Config.dimMax) s := fun _ => rfl
  rw [d]
  unfold runS
  rw [if_neg (by decide), q]

theorem witness_CompressThePixelMap :
    Running (on { Memory.empty with pix := some onePix }) ∧ onePix.px.Sized ∧ CompressReady onePix ∧
    State.reset.mem.pix = none ∧ (⟨255, 1, 2, [grey 0, grey 0]⟩ : PixelMap).px.Sized ∧
    ¬ CompressReady ⟨255, 1, 2, [grey 0, grey 0]⟩ ∧ ¬ CompressReady ⟨0, 2, 2, [grey 0, grey 0, grey 0, grey 0]⟩ := by
  decide +kernel

theorem witness_DecompressTheStream :
    Running (on { Memory.empty with strm := some (header 2 2 ++ [1, 2, 3, 4]) }) ∧ 1 ≤ 2 ∧ 2 ≤ Config.dimMax ∧ 2 % 2 = 0 ∧
    2 * 2 ≤ ([1, 2, 3, 4] : List Byte).length := ⟨rfl, by decide, two_le_dimMax, rfl, by decide⟩

theorem witness_CompressThenDecompressKeepsDimensions :
    Running (on { Memory.empty with pix := some onePix }) ∧ pixelSized Config.dimMax onePix.px ∧ CompressReady onePix :=
  ⟨rfl, ⟨rfl, two_le_dimMax, two_le_dimMax⟩, by decide⟩

end Sys2Proof.Tests
end

section
/-! PROOFS. 10_state.md: the reset state and what a step can do to `STATUS` and the buffers. -/

namespace Sys2Proof.Machine

open Sys2Proof.Safety

/-! ### The invariant -/

/-- `FAULT` is a bit of `STATUS` and of nothing else (10_state.md R21). -/
theorem faulted_congr {s t : State} (h : t.status = s.status) : t.faulted = s.faulted :=
  congrArg (·.getLsbD 0) h

/-- The invariant speaks of `STATUS` and the buffers only. -/
theorem coreInv_congr {s t : State} (hs : t.status = s.status) (hm : t.mem = s.mem) (h : CoreInv s) : CoreInv t where
  status_legal := hs ▸ h.status_legal
  fault_empty hf := hm.trans (h.fault_empty (faulted_congr hs ▸ hf))
  mem_wf := hm ▸ h.mem_wf

/-- With every buffer `EMPTY` the invariant asks for a legal `STATUS` only. -/
theorem coreInv_of_empty {t : State} (hs : legalStatus t.status) (hm : t.mem = Memory.empty) : CoreInv t where
  status_legal := hs
  fault_empty _ := hm
  mem_wf := hm ▸ empty_wfFor Config.dimMax

/-! ### What a command, an action and a step can do to `STATUS` and the buffers -/

/-- While `FAULT = 1` every command is refused (60_exceptions.md R289). -/
theorem exec_refused {s : State} (h : s.faulted = true) (i : Instr) : exec i s = .next s.refuse := by
  rcases exec_cases i s with ⟨-, e⟩ | ⟨hr, -⟩ | ⟨hr, -⟩ | ⟨hr, -⟩
  · exact e
  all_goals exact absurd h (ne_true_of_eq_false hr)

/-- What a step that is no reset can do to `STATUS` and the buffers: nothing, a change of buffers that keeps the type of
each, or the entry of a fault. -/
inductive CoreEffect (s t : State) : Prop where
  | same (hs : t.status = s.status) (hm : t.mem = s.mem)
  | update (hs : t.status = s.status) (hw : s.mem.wf = true → t.mem.wf = true) (running : Running s)
  | fault (c : Cause) (hs : t.status = faultStatus c) (hm : t.mem = Memory.empty) (running : Running s)

/-- The host's list is no part of what an effect speaks of. -/
theorem CoreEffect.of_inbox {s t : State} {l : List HostAction} (h : CoreEffect { s with inbox := l } t) :
    CoreEffect s t := by
  cases h with
  | same hs hm => exact .same hs hm
  | update hs hw running => exact .update hs hw running
  | fault c hs hm running => exact .fault c hs hm running

theorem exec_effect {i : Instr} {s t : State} (h : exec i s = .next t) : CoreEffect s t := by
  rcases exec_cases i s with ⟨-, e⟩ | ⟨-, -, v, e⟩ | ⟨running, -, m, e, hw⟩ | ⟨running, c, e⟩ <;> cases e.symm.trans h
  · exact .same rfl rfl
  · exact .same rfl rfl
  · exact .update rfl hw running
  · exact .fault c rfl rfl running

theorem issue_effect {c : Command} {s t : State} (h : issue c s = .next t) : CoreEffect s t := by
  cases hd : decode c with
  | ok i => exact exec_effect (issue_ok hd s ▸ h)
  | error e =>
    cases (issue_reserved hd s).symm.trans h
    cases hf : s.faulted with
    | true => exact .same rfl rfl
    | false => exact .fault .precond rfl rfl hf

/-- A load that is taken leaves `STATUS`, and changes a buffer only when no fault stands (60_exceptions.md R292). -/
theorem hostLoad_effect {v : BufVal} {s t : State} (h : hostLoad v s = .next t) :
    CoreEffect s t ∧ t.status = s.status := by
  unfold hostLoad at h
  split at h
  · cases h
    exact ⟨.same rfl rfl, rfl⟩
  · next running =>
    split at h
    · next ok =>
      cases h
      exact ⟨.update rfl (fun hw => load_wfFor hw ok) (eq_false_of_ne_true running), rfl⟩
    · cases h

/-- Everything a step can do to `STATUS` and the buffers: it resets them, or it has an effect that writes `STATUS` only if
the action issued a command. -/
theorem step_effect {s t : State} (h : step s = .next t) :
    (t.status = 0x00 ∧ t.mem = Memory.empty ∧ ∃ rest, s.inbox = .reset :: rest) ∨
    (CoreEffect s t ∧ (t.status = s.status ∨ ∃ c rest, s.inbox = .issue c :: rest)) := by
  cases hi : s.inbox with
  | nil =>
    cases (step_nil hi).symm.trans h
    exact .inr ⟨.same rfl rfl, .inl rfl⟩
  | cons a rest =>
    replace h := (step_cons hi).symm.trans h
    cases a with
    | reset =>
      cases h
      exact .inl ⟨rfl, rfl, rest, rfl⟩
    | load v =>
      obtain ⟨effect, hs⟩ := hostLoad_effect h
      exact .inr ⟨effect.of_inbox, .inl hs⟩
    | read b =>
      cases h
      exact .inr ⟨.same rfl rfl, .inl rfl⟩
    | status =>
      cases h
      exact .inr ⟨.same rfl rfl, .inl rfl⟩
    | issue c => exact .inr ⟨(issue_effect h).of_inbox, .inr ⟨c, rest, rfl⟩⟩

theorem CoreEffect.coreInv {s t : State} (h : CoreEffect s t) (inv : CoreInv s) : CoreInv t := by
  cases h with
  | same hs hm => exact coreInv_congr hs hm inv
  | update hs hw running =>
    refine ⟨hs ▸ inv.status_legal, fun hf => ?_, hw inv.mem_wf⟩
    exact absurd (faulted_congr hs ▸ hf) (ne_true_of_eq_false running)
  | fault c hs hm running => exact coreInv_of_empty (hs ▸ faultStatus_legal c) hm

/-- A recorded cause is never `NONE` (10_state.md R21). -/
theorem faultStatus_cases (c : Cause) : faultStatus c = 0x03 ∨ faultStatus c = 0x05 ∨ faultStatus c = 0x07 := by
  cases c <;> decide

/-! ### The obligations -/

/-- Settles O5: a reset and a fault leave every buffer `EMPTY` beside a legal `STATUS`; every other effect leaves `STATUS`
and the type of each buffer. -/
theorem stepKeepsInvariant : Obligations.StepKeepsInvariant := by
  intro s t inv h
  rcases step_effect h with ⟨hs, hm, -⟩ | ⟨effect, -⟩
  · exact coreInv_of_empty (.inl hs) hm
  · exact effect.coreInv inv

/-- Settles O14: among the effects of a step only a reset and a fault entry write `STATUS`, and only a command enters a
fault. -/
theorem statusWrittenOnlyByFaultEntryAndReset : Obligations.StatusWrittenOnlyByFaultEntryAndReset := by
  intro s t h
  rcases step_effect h with ⟨hs, -, reset⟩ | ⟨effect, kept | issued⟩
  · exact .inr (.inl ⟨hs, reset⟩)
  · exact .inl kept
  · cases effect with
    | same hs hm => exact .inl hs
    | update hs hw running => exact .inl hs
    | fault c hs hm running => exact .inr (.inr ⟨running, hs ▸ faultStatus_cases c, issued⟩)

/-- Settles O1: the reset state is given by these values. -/
theorem resetClearsStatusAndBuffers : Obligations.ResetClearsStatusAndBuffers :=
  ⟨rfl, rfl, rfl, rfl, rfl, rfl, rfl, rfl, rfl⟩

/-- Settles O4: reset leaves every buffer `EMPTY` beside `STATUS = 0x00`. -/
theorem resetMeetsInvariant : Obligations.ResetMeetsInvariant := coreInv_of_empty (.inl rfl) rfl

/-- A table row's bits that decode to an instruction are a command that does. -/
theorem decode_tableCommand {nbits w : Nat} {i : Instr} (h : decodeTableWord nbits w = some i) :
    decode (tableCommand nbits w) = .ok i := by
  unfold decodeTableWord at h
  split at h <;> cases h
  assumption

/-- Issuing a command that decodes, as the host's next action, is its meaning on the state without that action. -/
theorem step_issue {s : State} {c : Command} {i : Instr} {rest : List HostAction} (h : s.inbox = .issue c :: rest)
    (hd : decode c = .ok i) : step s = exec i { s with inbox := rest } :=
  (step_cons h).trans (issue_ok hd _)

/-- Settles O6: a step takes the host's next action, and `withFetchWord` makes the row's command that action. -/
theorem stepRunsTheDecodedCommand : Obligations.StepRunsTheDecodedCommand := by
  refine ⟨fun s c i rest => step_issue, fun s nbits w i h => ?_, fun s => step_nil⟩
  exact step_issue (s := s.withFetchWord nbits w) (rest := s.inbox) rfl (decode_tableCommand h)

end Sys2Proof.Machine
end

section
/-! PROOFS. 10_state.md R31, R32: an S-form command is a stage from one buffer to another. What a stage reads, and what it
leaves in each buffer, is stated once per stage; the frame and the noninterference of the commands follow. -/

namespace Sys2Proof.Machine

open Sys2Proof.Safety

/-! ### Releasing a buffer -/

/-- The memory with one buffer made `EMPTY`. -/
def Memory.clear (m : Memory) : BufName → Memory
  | .pix => { m with pix := none }
  | .cv => { m with cv := none }
  | .blk => { m with blk := none }
  | .qblk => { m with qblk := none }
  | .cwa => { m with cwa := none }
  | .strm => { m with strm := none }

theorem clear_read (m : Memory) (b b' : BufName) : (m.clear b).read b' = if b' = b then none else m.read b' := by
  cases b <;> cases b' <;> rfl

/-- What a stage with input buffer `inp` leaves before its output is stored: its input released, or, for a stage that uses
every buffer, all of them. -/
def Memory.released (all : Bool) (inp : BufName) (m : Memory) : Memory :=
  match all with
  | true => Memory.empty
  | false => m.clear inp

theorem released_read (all : Bool) (inp : BufName) (m : Memory) (b : BufName) :
    (m.released all inp).read b = if b = inp then none else if all then none else m.read b := by
  cases all with
  | true => simp [Memory.released]
  | false => simp [Memory.released, clear_read]

/-! ### What `read` returns determines the buffer's content -/

theorem pix_eq_of_read_eq {m m' : Memory} (h : m.read .pix = m'.read .pix) : m.pix = m'.pix :=
  Option.map_injective (fun _ _ => BufVal.pix.inj) h

theorem cv_eq_of_read_eq {m m' : Memory} (h : m.read .cv = m'.read .cv) : m.cv = m'.cv :=
  Option.map_injective (fun _ _ => BufVal.cv.inj) h

theorem blk_eq_of_read_eq {m m' : Memory} (h : m.read .blk = m'.read .blk) : m.blk = m'.blk :=
  Option.map_injective (fun _ _ => BufVal.blk.inj) h

theorem qblk_eq_of_read_eq {m m' : Memory} (h : m.read .qblk = m'.read .qblk) : m.qblk = m'.qblk :=
  Option.map_injective (fun _ _ => BufVal.qblk.inj) h

theorem cwa_eq_of_read_eq {m m' : Memory} (h : m.read .cwa = m'.read .cwa) : m.cwa = m'.cwa :=
  Option.map_injective (fun _ _ => BufVal.cwa.inj) h

theorem strm_eq_of_read_eq {m m' : Memory} (h : m.read .strm = m'.read .strm) : m.strm = m'.strm :=
  Option.map_injective (fun _ _ => BufVal.strm.inj) h

/-! ### What a stage reads -/

/-- The outcome as far as one buffer shows it: the cause of a fault, or the buffer's content. -/
def seenIn (b : BufName) (x : Except Cause Memory) : Except Cause (Option BufVal) := x.map (·.read b)

/-- Checks and computations that agree may be made before two outcomes that are seen alike. -/
theorem seenIn_bind {α : Type} {b : BufName} {x : Except Cause α} {k k' : α → Except Cause Memory}
    (h : ∀ a, seenIn b (k a) = seenIn b (k' a)) : seenIn b (x >>= k) = seenIn b (x >>= k') := by
  cases x with
  | error c => rfl
  | ok a => exact h a

/-- What is seen of the stage's outcome in its output buffer depends on the input buffer only (10_state.md R32). -/
def ReadsOnly (inp out : BufName) (f : Memory → Except Cause Memory) : Prop :=
  ∀ m m', m.read inp = m'.read inp → seenIn out (f m) = seenIn out (f m')

/-- Two stages in sequence, the second reading what the first wrote. -/
theorem ReadsOnly.bind {inp mid out : BufName} {f g : Memory → Except Cause Memory} (hf : ReadsOnly inp mid f)
    (hg : ReadsOnly mid out g) : ReadsOnly inp out fun m => f m >>= g := by
  intro m m' h
  have seen := hf m m' h
  show seenIn out (f m >>= g) = seenIn out (f m' >>= g)
  cases e : f m <;> cases e' : f m' <;> rw [e, e'] at seen
  · cases seen
    rfl
  · cases seen
  · cases seen
  · exact hg _ _ (Except.ok.inj seen)

theorem colorForwardStage_readsOnly : ReadsOnly .pix .cv colorForwardStage := by
  intro m m' h
  unfold colorForwardStage
  rw [pix_eq_of_read_eq h]
  exact seenIn_bind fun P => seenIn_bind fun _ => seenIn_bind fun V => rfl

theorem colorInverseStage_readsOnly : ReadsOnly .cv .pix colorInverseStage := by
  intro m m' h
  unfold colorInverseStage
  rw [cv_eq_of_read_eq h]
  exact seenIn_bind fun V => rfl

theorem blockForwardStage_readsOnly : ReadsOnly .cv .blk blockForwardStage := by
  intro m m' h
  unfold blockForwardStage
  rw [cv_eq_of_read_eq h]
  exact seenIn_bind fun V => seenIn_bind fun _ => rfl

theorem blockInverseStage_readsOnly : ReadsOnly .blk .cv blockInverseStage := by
  intro m m' h
  unfold blockInverseStage
  rw [blk_eq_of_read_eq h]
  exact seenIn_bind fun B => rfl

theorem quantizeForward_readsOnly (ch : Chroma) : ReadsOnly .blk .qblk (quantizeForward ch) := by
  intro m m' h
  unfold quantizeForward
  rw [blk_eq_of_read_eq h]
  exact seenIn_bind fun B => rfl

theorem quantizeInverse_readsOnly (ch : Chroma) : ReadsOnly .qblk .blk (quantizeInverse ch) := by
  intro m m' h
  unfold quantizeInverse
  rw [qblk_eq_of_read_eq h]
  exact seenIn_bind fun Q => seenIn_bind fun B => rfl

theorem assembleStage_readsOnly : ReadsOnly .qblk .cwa assembleStage := by
  intro m m' h
  unfold assembleStage
  rw [qblk_eq_of_read_eq h]
  exact seenIn_bind fun Q => seenIn_bind fun C => rfl

theorem disassembleStage_readsOnly : ReadsOnly .cwa .qblk disassembleStage := by
  intro m m' h
  unfold disassembleStage
  rw [cwa_eq_of_read_eq h]
  exact seenIn_bind fun C => rfl

theorem wireWrite_readsOnly : ReadsOnly .cwa .strm wireWrite := by
  intro m m' h
  unfold wireWrite
  rw [cwa_eq_of_read_eq h]
  exact seenIn_bind fun C => rfl

theorem wireRead_readsOnly (d : Nat) : ReadsOnly .strm .cwa (wireRead d) := by
  intro m m' h
  have hs := strm_eq_of_read_eq h
  cases hs' : m'.strm with
  | none => unfold wireRead; rw [hs, hs']
  | some s =>
    rw [wireRead_some (hs.trans hs'), wireRead_some hs']
    cases parseStream d s <;> rfl

theorem compress_readsOnly (ch : Chroma) : ReadsOnly .pix .strm (compress ch) := by
  have stages := colorForwardStage_readsOnly.bind (blockForwardStage_readsOnly.bind
    ((quantizeForward_readsOnly ch).bind (assembleStage_readsOnly.bind wireWrite_readsOnly)))
  intro m m' h
  unfold compress
  rw [pix_eq_of_read_eq h]
  exact seenIn_bind fun P => seenIn_bind fun _ => stages m m' h

theorem decompress_readsOnly (ch : Chroma) (d : Nat) : ReadsOnly .strm .pix (decompress ch d) :=
  (wireRead_readsOnly d).bind (disassembleStage_readsOnly.bind
    ((quantizeInverse_readsOnly ch).bind (blockInverseStage_readsOnly.bind colorInverseStage_readsOnly)))

/-! ### What a stage leaves in the buffers -/

/-- Where the stage succeeds it releases its input (`all`: every buffer) and fills its output (10_state.md R31). -/
def HandsOver (inp out : BufName) (all : Bool) (f : Memory → Except Cause Memory) : Prop :=
  ∀ m m', f m = .ok m' → ∃ v : BufVal, v.name = out ∧ m' = (m.released all inp).load v

theorem colorForwardStage_handsOver : HandsOver .pix .cv false colorForwardStage := by
  intro m m' e
  obtain ⟨P, -, -, -, V, -, rfl⟩ := colorForwardStage_ok.mp e
  exact ⟨.cv V, rfl, rfl⟩

theorem colorInverseStage_handsOver : HandsOver .cv .pix false colorInverseStage := by
  intro m m' e
  obtain ⟨V, -, -, rfl⟩ := colorInverseStage_ok.mp e
  exact ⟨.pix _, rfl, rfl⟩

theorem blockForwardStage_handsOver : HandsOver .cv .blk false blockForwardStage := by
  intro m m' e
  obtain ⟨V, -, -, -, rfl⟩ := blockForwardStage_ok.mp e
  exact ⟨.blk _, rfl, rfl⟩

theorem blockInverseStage_handsOver : HandsOver .blk .cv false blockInverseStage := by
  intro m m' e
  obtain ⟨B, -, -, rfl⟩ := blockInverseStage_ok.mp e
  exact ⟨.cv _, rfl, rfl⟩

theorem quantizeForward_handsOver (ch : Chroma) : HandsOver .blk .qblk false (quantizeForward ch) := by
  intro m m' e
  obtain ⟨B, -, -, rfl⟩ := quantizeForward_ok.mp e
  exact ⟨.qblk _, rfl, rfl⟩

theorem quantizeInverse_handsOver (ch : Chroma) : HandsOver .qblk .blk false (quantizeInverse ch) := by
  intro m m' e
  obtain ⟨Q, -, -, B, -, rfl⟩ := quantizeInverse_ok.mp e
  exact ⟨.blk B, rfl, rfl⟩

theorem assembleStage_handsOver : HandsOver .qblk .cwa false assembleStage := by
  intro m m' e
  obtain ⟨Q, -, -, C, -, rfl⟩ := assembleStage_ok.mp e
  exact ⟨.cwa C, rfl, rfl⟩

theorem disassembleStage_handsOver : HandsOver .cwa .qblk false disassembleStage := by
  intro m m' e
  obtain ⟨C, -, -, rfl⟩ := disassembleStage_ok.mp e
  exact ⟨.qblk _, rfl, rfl⟩

theorem wireWrite_handsOver : HandsOver .cwa .strm false wireWrite := by
  intro m m' e
  obtain ⟨C, -, -, rfl⟩ := wireWrite_ok.mp e
  exact ⟨.strm _, rfl, rfl⟩

theorem wireRead_handsOver (d : Nat) : HandsOver .strm .cwa false (wireRead d) := by
  intro m m' e
  obtain ⟨s, -, C, -, rfl⟩ := wireRead_ok.mp e
  exact ⟨.cwa C, rfl, rfl⟩

/-- The five stages pass through every buffer, each releasing what the one before it filled (46_pipeline.md R250). -/
theorem compress_handsOver (ch : Chroma) : HandsOver .pix .strm true (compress ch) := by
  intro m m' e
  simp only [compress, bind_ok] at e
  obtain ⟨-, -, -, -, m1, e1, m2, e2, m3, e3, m4, e4, e5⟩ := e
  obtain ⟨P, -, -, -, V, -, rfl⟩ := colorForwardStage_ok.mp e1
  obtain ⟨V', -, -, -, rfl⟩ := blockForwardStage_ok.mp e2
  obtain ⟨B, -, -, rfl⟩ := quantizeForward_ok.mp e3
  obtain ⟨Q, -, -, C, -, rfl⟩ := assembleStage_ok.mp e4
  obtain ⟨C', -, -, rfl⟩ := wireWrite_ok.mp e5
  exact ⟨.strm _, rfl, rfl⟩

/-- The five inverse stages pass through every buffer (46_pipeline.md R251). -/
theorem decompress_handsOver (ch : Chroma) (d : Nat) : HandsOver .strm .pix true (decompress ch d) := by
  intro m m' e
  simp only [decompress, bind_ok] at e
  obtain ⟨m1, e1, m2, e2, m3, e3, m4, e4, e5⟩ := e
  obtain ⟨bs, -, C, -, rfl⟩ := wireRead_ok.mp e1
  obtain ⟨C', -, -, rfl⟩ := disassembleStage_ok.mp e2
  obtain ⟨Q, -, -, B, -, rfl⟩ := quantizeInverse_ok.mp e3
  obtain ⟨B', -, -, rfl⟩ := blockInverseStage_ok.mp e4
  obtain ⟨V, -, -, rfl⟩ := colorInverseStage_ok.mp e5
  exact ⟨.pix _, rfl, rfl⟩

/-! ### S-form commands as stages -/

/-- `f` is the stage of operation `op`, from the input buffer to the output buffer that 30_encoding.md R83 names. -/
structure IsStageOf (op : Op) (inp out : BufName) (f : Memory → Except Cause Memory) : Prop where
  input : inputOf op = some inp
  output : outputOf op = some out
  distinct : inp ≠ out
  readsOnly : ReadsOnly inp out f
  handsOver : HandsOver inp out (usesAll op) f

/-- Every S-form command runs a stage between the two buffers it names. -/
theorem exec_stage (i : Instr) (h : i.opName.sForm = true) :
    ∃ inp out f, IsStageOf i.opName inp out f ∧ ∀ s, exec i s = runS f s := by
  cases i with
  | sqfwd =>
    exact ⟨_, _, _, ⟨rfl, rfl, by decide, quantizeForward_readsOnly _, quantizeForward_handsOver _⟩, fun _ => rfl⟩
  | sqinv =>
    exact ⟨_, _, _, ⟨rfl, rfl, by decide, quantizeInverse_readsOnly _, quantizeInverse_handsOver _⟩, fun _ => rfl⟩
  | scfwd =>
    exact ⟨_, _, _, ⟨rfl, rfl, by decide, colorForwardStage_readsOnly, colorForwardStage_handsOver⟩, fun _ => rfl⟩
  | scinv =>
    exact ⟨_, _, _, ⟨rfl, rfl, by decide, colorInverseStage_readsOnly, colorInverseStage_handsOver⟩, fun _ => rfl⟩
  | sbfwd =>
    exact ⟨_, _, _, ⟨rfl, rfl, by decide, blockForwardStage_readsOnly, blockForwardStage_handsOver⟩, fun _ => rfl⟩
  | sbinv =>
    exact ⟨_, _, _, ⟨rfl, rfl, by decide, blockInverseStage_readsOnly, blockInverseStage_handsOver⟩, fun _ => rfl⟩
  | scwasm =>
    exact ⟨_, _, _, ⟨rfl, rfl, by decide, assembleStage_readsOnly, assembleStage_handsOver⟩, fun _ => rfl⟩
  | scwdis =>
    exact ⟨_, _, _, ⟨rfl, rfl, by decide, disassembleStage_readsOnly, disassembleStage_handsOver⟩, fun _ => rfl⟩
  | wwrite =>
    exact ⟨_, _, _, ⟨rfl, rfl, by decide, wireWrite_readsOnly, wireWrite_handsOver⟩, fun _ => rfl⟩
  | wread =>
    exact ⟨_, _, _, ⟨rfl, rfl, by decide, wireRead_readsOnly _, wireRead_handsOver _⟩, fun _ => rfl⟩
  | compress =>
    exact ⟨_, _, _, ⟨rfl, rfl, by decide, compress_readsOnly _, compress_handsOver _⟩, fun _ => rfl⟩
  | decompress =>
    exact ⟨_, _, _, ⟨rfl, rfl, by decide, decompress_readsOnly _ _, decompress_handsOver _ _⟩, fun _ => rfl⟩
  | _ => cases h

/-- What a stage leaves in each buffer. -/
theorem HandsOver.read {inp out : BufName} {all : Bool} {f : Memory → Except Cause Memory} {m m' : Memory}
    (h : HandsOver inp out all f) (e : f m = .ok m') :
    ∃ v, ∀ b, m'.read b = if b = out then some v else if b = inp then none else if all then none else m.read b := by
  obtain ⟨v, rfl, rfl⟩ := h m m' e
  exact ⟨v, fun b => by rw [load_read, released_read]⟩

/-- Settles O18: where the stage succeeds, `HandsOver` says what each buffer holds; where it fails, a fault stands. -/
theorem sFormCommandsReleaseInputAndFillOutput : Obligations.SFormCommandsReleaseInputAndFillOutput := by
  intro i s t hi running h noFault
  obtain ⟨inp, out, f, stage, hf⟩ := exec_stage i hi
  rw [hf] at h
  rcases runS_cases f s with ⟨refused, -⟩ | ⟨-, m, hm, e⟩ | ⟨-, c, -, e⟩
  · exact absurd refused (ne_true_of_eq_false running)
  · cases e.symm.trans h
    obtain ⟨v, read⟩ := stage.handsOver.read hm
    rw [stage.input, stage.output]
    refine ⟨rfl, rfl, rfl, ?_, ?_, ?_⟩
    · rintro b ⟨⟩
      simp [read, stage.distinct]
    · rintro b ⟨⟩
      simp [read]
    · intro b notInp notOut
      have hinp : b ≠ inp := fun e => notInp (e ▸ rfl)
      have hout : b ≠ out := fun e => notOut (e ▸ rfl)
      simp [read, hinp, hout]
  · cases e.symm.trans h
    exact absurd (takeFault_faulted c s) (ne_true_of_eq_false noFault)

/-! ### Noninterference -/

/-- An F-form command has no output buffer (30_encoding.md R83). -/
theorem outputOf_of_fForm {op : Op} (h : op.sForm = false) : outputOf op = none := by
  cases op <;> cases h <;> rfl

/-- Two states after one command that agree on what it handed over, on `FAULT`, on the cause of a fault it took, and on its
output buffer, if it has one. -/
structure SameOutcome (out : Option BufName) (t t' : State) : Prop where
  reply : t.reply = t'.reply
  faulted : t.faulted = t'.faulted
  status : t.faulted = true → t.status = t'.status
  output : ∀ b, out = some b → t.mem.read b = t'.mem.read b

theorem sameOutcome_takeFault (out : Option BufName) (c : Cause) (s s' : State) :
    SameOutcome out (s.takeFault c) (s'.takeFault c) := ⟨rfl, rfl, fun _ => rfl, fun _ _ => rfl⟩

section
variable {s s' t t' : State} (running : Running s) (running' : Running s')
include running running'

/-- One result computation in two running states. -/
theorem runF_sameOutcome {r : Except Cause Result} (h : runF r s = .next t) (h' : runF r s' = .next t') :
    SameOutcome none t t' := by
  cases r with
  | ok v =>
    cases (runF_ok running v).symm.trans h
    cases (runF_ok running' v).symm.trans h'
    refine ⟨rfl, running.trans running'.symm, fun hf => ?_, fun _ e => nomatch e⟩
    exact absurd hf (ne_true_of_eq_false running)
  | error c =>
    cases (runF_error running c).symm.trans h
    cases (runF_error running' c).symm.trans h'
    exact sameOutcome_takeFault _ c s s'

/-- One stage in two running states with the same input. -/
theorem runS_sameOutcome {inp out : BufName} {f : Memory → Except Cause Memory} (hf : ReadsOnly inp out f)
    (hb : s.mem.read inp = s'.mem.read inp) (h : runS f s = .next t) (h' : runS f s' = .next t') :
    SameOutcome (some out) t t' := by
  have seen := hf _ _ hb
  cases e : f s.mem <;> cases e' : f s'.mem <;> rw [e, e'] at seen
  · cases seen
    cases (runS_error running e).symm.trans h
    cases (runS_error running' e').symm.trans h'
    exact sameOutcome_takeFault _ _ s s'
  · cases seen
  · cases seen
  · cases (runS_ok running e).symm.trans h
    cases (runS_ok running' e').symm.trans h'
    refine ⟨rfl, running.trans running'.symm, fun hf => ?_, ?_⟩
    · exact absurd hf (ne_true_of_eq_false running)
    · rintro b ⟨⟩
      exact Except.ok.inj seen

end

/-- A command in two running states that agree on its input buffer. -/
theorem exec_sameOutcome {i : Instr} {s s' t t' : State} (running : Running s) (running' : Running s')
    (hb : ∀ b, inputOf i.opName = some b → s.mem.read b = s'.mem.read b) (h : exec i s = .next t)
    (h' : exec i s' = .next t') : SameOutcome (outputOf i.opName) t t' := by
  cases hi : i.opName.sForm with
  | false =>
    obtain ⟨r, hr⟩ := exec_fForm i hi
    rw [hr] at h h'
    exact outputOf_of_fForm hi ▸ runF_sameOutcome running running' h h'
  | true =>
    obtain ⟨inp, out, f, stage, hf⟩ := exec_stage i hi
    rw [hf] at h h'
    exact stage.output ▸ runS_sameOutcome running running' stage.readsOnly (hb inp stage.input) h h'

/-- Settles O20: a faulted core refuses in both states; a running one runs one computation on one input. -/
theorem resultsDependOnlyOnOperandsAndInput : Obligations.ResultsDependOnlyOnOperandsAndInput := by
  intro i s s' t t' hfault hb h h'
  cases hs : s.faulted with
  | true =>
    cases (exec_refused hs i).symm.trans h
    cases (exec_refused (hfault.symm.trans hs) i).symm.trans h'
    exact ⟨rfl, hfault, fun r => absurd hs (ne_true_of_eq_false r), fun r => absurd hs (ne_true_of_eq_false r)⟩
  | false =>
    obtain ⟨reply, faulted, status, output⟩ := exec_sameOutcome hs (hfault.symm.trans hs) hb h h'
    exact ⟨reply, faulted, fun _ => status, fun _ => output⟩

end Sys2Proof.Machine
end

section
/-! PROOFS. `MemRead` and `MemWrite` of 20_memory.md R53: a read of the place just written, the bytes outside it, and the
order of the bytes a read takes in. -/

namespace Sys2Proof.Machine

/-- The place written lies behind the bytes kept in front, and there the value's own bytes come first. -/
theorem memRead_memWrite (s : List Byte) {pos n v : Nat} (h : pos + n ≤ s.length) (hv : v < 256 ^ n) :
    memRead (memWrite s pos n v) pos n = v := by
  have front : (s.take pos).length = pos := List.length_take_of_le (by omega)
  have bytes : (beBytes n v).length = n := beBytes_length n v
  calc memRead (memWrite s pos n v) pos n
      = memRead (s.take pos ++ (beBytes n v ++ s.drop (pos + n))) ((s.take pos).length + 0) n := by
        rw [memWrite, List.append_assoc, front, Nat.add_zero]
    _ = memRead (beBytes n v) 0 n := by rw [memRead_append, memRead_left _ _ (by omega)]
    _ = beNat (beBytes n v) := by rw [memRead, List.drop_zero, List.take_of_length_le bytes.le]
    _ = v := beNat_beBytes n v hv

theorem memWrite_getElem?_of_outside (s : List Byte) {pos n v k : Nat} (h : pos + n ≤ s.length)
    (hk : k < pos ∨ pos + n ≤ k) : (memWrite s pos n v)[k]? = s[k]? := by
  have front : (s.take pos).length = pos := List.length_take_of_le (by omega)
  have written : (s.take pos ++ beBytes n v).length = pos + n := by
    rw [List.length_append, front, beBytes_length]
  rw [memWrite]
  rcases hk with before | behind
  · rw [List.append_assoc, List.getElem?_append_left (by omega), List.getElem?_take_of_lt before]
  · rw [List.getElem?_append_right (by omega), written, List.getElem?_drop, Nat.add_sub_cancel' behind]

/-- A longer read has the shorter one as its high bytes (R53: most significant first). -/
theorem memRead_succ {s : List Byte} {pos n : Nat} (h : pos + n < s.length) :
    memRead s pos (n + 1) = memRead s pos n * 256 + (s.getD (pos + n) 0).toNat := by
  have last : (s.drop pos).take (n + 1) = (s.drop pos).take n ++ [s.getD (pos + n) 0] := by
    rw [List.take_add_one, List.getElem?_drop, List.getElem?_eq_getElem h, List.getD_eq_getElem s 0 h, Option.toList_some]
  rw [memRead, last, beNat_append, memRead]

theorem memRead_four {s : List Byte} {pos : Nat} (h : pos + 4 ≤ s.length) :
    memRead s pos 4 = (s.getD pos 0).toNat * 2 ^ 24 + (s.getD (pos + 1) 0).toNat * 2 ^ 16 +
      (s.getD (pos + 2) 0).toNat * 2 ^ 8 + (s.getD (pos + 3) 0).toNat := by
  have noBytes : memRead s pos 0 = 0 := rfl
  rw [memRead_succ (by omega), memRead_succ (by omega), memRead_succ (by omega), memRead_succ (by omega), noBytes, Nat.add_zero]
  omega

/-- Settles O52: the bytes written are those of `v` (`beNat_beBytes`), between what stood before and behind them. -/
theorem memReadAfterMemWrite : Obligations.MemReadAfterMemWrite :=
  ⟨fun s _ _ _ h hv => ⟨memRead_memWrite s h hv, memWrite_length s h, fun _ hk => memWrite_getElem?_of_outside s h hk⟩,
    fun _ _ h => memRead_four h⟩

end Sys2Proof.Machine
end

section
/-! PROOFS. 30_encoding.md R80 to R84: the opcode table read both ways, the operand wires read both ways, and with them the
decoder against the encoder. -/

namespace Sys2Proof.Machine

open Sys2Proof.Safety

/-! ### Operation codes (30_encoding.md R80 to R82) -/

theorem decodeOp_opCode (o : Op) : decodeOp (opCode o) = some o :=
  have ⟨_, _, _, read⟩ := Laws.OpcodeByte.opCode_fields o
  read

/-- The code of each row of R81's table is `{UNIT, S, FN}` of its operation. -/
theorem opCode_of_mem_opTable : ∀ row ∈ opTable, opCode row.2 = row.1 := by decide

/-- "A decoder compares all eight bits" (R81). -/
theorem opCode_of_decodeOp {op : Byte} {o : Op} (h : decodeOp op = some o) : opCode o = op := by
  obtain ⟨row, found, rfl⟩ := Option.map_eq_some_iff.mp h
  have compared : row.1 = op := by simpa using List.find?_some found
  exact (opCode_of_mem_opTable row (List.mem_of_find?_eq_some found)).trans compared

theorem isSome_decodeOp_iff (op : Byte) : (decodeOp op).isSome ↔ op.toNat ∈ opTable.map (·.1.toNat) := by
  simp only [decodeOp, Option.isSome_map, List.find?_isSome, beq_iff_eq, List.mem_map, BitVec.toNat_inj]

theorem decode_ok_iff {c : Command} {i : Instr} :
    decode c = .ok i ↔ ∃ o, decodeOp c.op = some o ∧ operands c.args o = i := by
  unfold decode
  cases decodeOp c.op <;> simp

/-- The operation code alone decides whether a command decodes. -/
theorem exists_decode_ok_iff (op : Byte) (args : Wires) : (∃ i, decode ⟨op, args⟩ = .ok i) ↔ (decodeOp op).isSome := by
  simp [decode_ok_iff, Option.isSome_iff_exists]

theorem decode_opCode (o : Op) (a : Wires) : decode ⟨opCode o, a⟩ = .ok (operands a o) :=
  decode_ok_iff.mpr ⟨o, decodeOp_opCode o, rfl⟩

/-! ### Operands (30_encoding.md R83, R84) -/

theorem asS64_eq_toInt (u : BitVec 64) : asS64 u = u.toInt := by
  unfold asS64
  rw [BitVec.toInt_eq_toNat_cond]
  split <;> split <;> omega

theorem asU64_eq_ofInt (v : Int) : asU64 v = BitVec.ofInt 64 v := by
  apply BitVec.eq_of_toNat_eq
  rw [asU64, BitVec.toNat_ofNat, BitVec.toNat_ofInt]
  omega

theorem inS64_asS64 (u : BitVec 64) : inS64 (asS64 u) :=
  asS64_eq_toInt u ▸ ⟨u.le_toInt, u.toInt_lt⟩

/-- `as_s64` undoes `as_u64` on `s64` (00_scope.md R10). -/
theorem asS64_asU64 {v : Int} (h : inS64 v) : asS64 (asU64 v) = v := by
  rw [asS64_eq_toInt, asU64_eq_ofInt]
  exact BitVec.toInt_ofInt_eq_self (by decide) h.1 h.2

theorem opName_operands (a : Wires) (o : Op) : (operands a o).opName = o := by
  cases o <;> rfl

theorem wellFormed_operands (a : Wires) (o : Op) : (operands a o).WellFormed := by
  cases o with
  | fitsu => exact ⟨a.value.isLt, a.width.isLt⟩
  | fitss => exact ⟨inS64_asS64 a.value, a.width.isLt⟩
  | getu => exact ⟨a.word.isLt, a.width.isLt, a.lsb.isLt⟩
  | gets => exact ⟨a.word.isLt, a.width.isLt, a.lsb.isLt⟩
  | setu => exact ⟨a.word.isLt, a.width.isLt, a.lsb.isLt, a.value.isLt⟩
  | sets => exact ⟨a.word.isLt, a.width.isLt, a.lsb.isLt, inS64_asS64 a.value⟩
  | cwdis => exact a.word.isLt
  | _ => trivial

theorem toNat_ofNat_word {x : Nat} (h : x < u64Size) : (BitVec.ofNat 64 x).toNat = x := Nat.mod_eq_of_lt h

theorem toNat_ofNat_field {x : Nat} (h : x < u7Size) : (BitVec.ofNat 7 x).toNat = x := Nat.mod_eq_of_lt h

/-- An operand in its domain is read back from the wires it drives; one passed as a value of its type has no other
values. -/
theorem operands_argWires {i : Instr} (h : i.WellFormed) : operands (argWires i) i.opName = i := by
  cases i with
  | fitsu v width =>
    obtain ⟨hv, hw⟩ := h
    simp only [Instr.opName, argWires, operands, toNat_ofNat_word hv, toNat_ofNat_field hw]
  | fitss v width =>
    obtain ⟨hv, hw⟩ := h
    simp only [Instr.opName, argWires, operands, asS64_asU64 hv, toNat_ofNat_field hw]
  | getu word width lsb | gets word width lsb =>
    obtain ⟨hx, hw, hl⟩ := h
    simp only [Instr.opName, argWires, operands, toNat_ofNat_word hx, toNat_ofNat_field hw, toNat_ofNat_field hl]
  | setu word width lsb value =>
    obtain ⟨hx, hw, hl, hv⟩ := h
    simp only [Instr.opName, argWires, operands, toNat_ofNat_word hx, toNat_ofNat_field hw, toNat_ofNat_field hl,
      toNat_ofNat_word hv]
  | sets word width lsb value =>
    obtain ⟨hx, hw, hl, hv⟩ := h
    simp only [Instr.opName, argWires, operands, toNat_ofNat_word hx, toNat_ofNat_field hw, toNat_ofNat_field hl,
      asS64_asU64 hv]
  | cwdis word =>
    have hx : word < u64Size := h
    simp only [Instr.opName, argWires, operands, toNat_ofNat_word hx]
  | _ => rfl

/-! ### The obligations -/

/-- Settles O7: the code on the port names the operation, and the wires carry its operands. -/
theorem decodeInvertsEncode : Obligations.DecodeInvertsEncode := fun i h =>
  calc decode (encode i) = .ok (operands (argWires i) i.opName) := decode_opCode i.opName (argWires i)
    _ = .ok i := by rw [operands_argWires h]

/-- Settles O8: the decoded operands are what the wires carry, and the code on the port is the operation's own. -/
theorem decodedOperandsAreInRange : Obligations.DecodedOperandsAreInRange := by
  intro c i h
  obtain ⟨o, hop, rfl⟩ := decode_ok_iff.mp h
  refine ⟨wellFormed_operands c.args o, ?_⟩
  calc (encode (operands c.args o)).op = opCode o := congrArg opCode (opName_operands c.args o)
    _ = c.op := opCode_of_decodeOp hop

/-- Settles O9: each code written out is the code of the operation named, and the operands are read from the wires. -/
theorem writtenOutCommandsDecode : Obligations.WrittenOutCommandsDecode :=
  ⟨decode_opCode .gets _, decode_opCode .sets _, decode_opCode .qinv _, decode_opCode .cfwd _, decode_opCode .sbinv _,
    decode_opCode .cwdis _, decode_opCode .wwrite _, decode_opCode .decompress _⟩

/-- A command that decodes to no instruction is a PreconditionViolation in a running core (R82). -/
theorem issue_of_not_decoded {c : Command} {s : State} (h : ∀ i, decode c ≠ .ok i) (running : Running s) :
    issue c s = .next (s.takeFault .precond) := by
  cases hd : decode c with
  | ok i => exact absurd hd (h i)
  | error e => rw [issue_reserved hd, running, if_neg Bool.false_ne_true]

/-- Settles O10: the 26 codes are the first column of R81's table, and issuing any other enters a fault. -/
theorem reservedCodesRaisePrecondition : Obligations.ReservedCodesRaisePrecondition := by
  refine ⟨fun op args => ?_, ?_, fun s c rest next undecoded running => ?_⟩
  · exact (exists_decode_ok_iff op args).trans (isSome_decodeOp_iff op)
  · decide +kernel
  · calc step s = issue c { s with inbox := rest } := step_cons next
      _ = .next (({ s with inbox := rest } : State).takeFault .precond) := issue_of_not_decoded undecoded running

/-- Settles O17: among the ways a command ends, an F-form command in a running core that takes no fault has only the
completion with a result, which writes the reply alone. -/
theorem fFormCommandsTouchNoState : Obligations.FFormCommandsTouchNoState := by
  intro i s t fForm running h noFault
  rcases exec_cases i s with ⟨refused, -⟩ | ⟨-, -, v, e⟩ | ⟨-, sForm, -⟩ | ⟨-, c, e⟩
  · exact absurd refused (ne_true_of_eq_false running)
  · cases e.symm.trans h
    exact ⟨rfl, rfl, ⟨v, rfl⟩, fun _ => rfl⟩
  · exact absurd sForm (ne_true_of_eq_false fForm)
  · cases e.symm.trans h
    exact absurd (takeFault_faulted c s) (ne_true_of_eq_false noFault)

end Sys2Proof.Machine
end

section
/-! PROOFS. 40_bitfield.md: what each command of the bit-field codec answers, and its field on the wires as a machine word. -/

namespace Sys2Proof.Machine

open Sys2Proof.Safety

/-! ### A check before a computation (40_bitfield.md R117, 60_exceptions.md R286) -/

theorem requireWidth_ok {width : Nat} (h : width ≤ 64) : requireWidth width = .ok () := require_true h

theorem requireWidth_error {width : Nat} (h : 64 < width) : requireWidth width = .error .precond :=
  require_false (Nat.not_le.mpr h)

/-- A field that ends within the word has a legal width. -/
theorem requireField_of_le {width lsb : Nat} (h : width + lsb ≤ 64) : requireField width lsb = .ok () :=
  requireField_ok (Nat.le_of_add_right_le h) h

section
variable {s : State} {check : Except Cause Unit} {k : Except Cause Result}

theorem runF_of_check_ok (h : check = .ok ()) : runF (check >>= fun _ => k) s = runF k s := by
  rw [h, bind_of_ok]

/-- A failed check is the command's fault, whatever comes behind it. -/
theorem runF_of_check_error {c : Cause} (running : Running s) (h : check = .error c) :
    runF (check >>= fun _ => k) s = .next (s.takeFault c) := by
  rw [h, bind_of_error, runF_error running]

end

/-! ### The commands: their checks, and the outcome where these pass -/

section
variable {s : State} {word width lsb value : Nat} {v : Int}

theorem exec_fitsu_ok (running : Running s) (h : width ≤ 64) :
    exec (.fitsu value width) s = .next (s.complete (.bool (fitsUnsigned value width))) :=
  (runF_of_check_ok (requireWidth_ok h)).trans (runF_ok running _)

theorem exec_fitss_ok (running : Running s) (h : width ≤ 64) :
    exec (.fitss v width) s = .next (s.complete (.bool (fitsSigned v width))) :=
  (runF_of_check_ok (requireWidth_ok h)).trans (runF_ok running _)

theorem exec_getu (s : State) (word width lsb : Nat) : exec (.getu word width lsb) s =
    runF (requireField width lsb >>= fun _ => .ok (.u64 (getUnsigned word width lsb))) s := rfl

theorem exec_gets (s : State) (word width lsb : Nat) : exec (.gets word width lsb) s =
    runF (requireField width lsb >>= fun _ => .ok (.s64 (getSigned word width lsb))) s := rfl

theorem exec_getu_ok (running : Running s) (h : width + lsb ≤ 64) :
    exec (.getu word width lsb) s = .next (s.complete (.u64 (getUnsigned word width lsb))) := by
  rw [exec_getu, runF_of_check_ok (requireField_of_le h), runF_ok running]

theorem exec_gets_ok (running : Running s) (h : width + lsb ≤ 64) :
    exec (.gets word width lsb) s = .next (s.complete (.s64 (getSigned word width lsb))) := by
  rw [exec_gets, runF_of_check_ok (requireField_of_le h), runF_ok running]

theorem exec_setu (s : State) (word width lsb value : Nat) : exec (.setu word width lsb value) s =
    runF (requireField width lsb >>= fun _ => setUnsigned word width lsb value >>= fun w => .ok (.u64 w)) s := rfl

theorem exec_sets (s : State) (word width lsb : Nat) (v : Int) : exec (.sets word width lsb v) s =
    runF (requireField width lsb >>= fun _ => setSigned word width lsb v >>= fun w => .ok (.u64 w)) s := rfl

theorem exec_setu_ok (running : Running s) (h : width + lsb ≤ 64) (fits : value < 2 ^ width) :
    exec (.setu word width lsb value) s = .next (s.complete (.u64 (insertField word width lsb value))) := by
  rw [exec_setu, runF_of_check_ok (requireField_of_le h), setUnsigned_ok fits, bind_of_ok, runF_ok running]

theorem exec_setu_overflow (running : Running s) (h : width + lsb ≤ 64) (large : 2 ^ width ≤ value) :
    exec (.setu word width lsb value) s = .next (s.takeFault .overflow) := by
  rw [exec_setu, runF_of_check_ok (requireField_of_le h), setUnsigned_error large, bind_of_error, runF_error running]

theorem exec_sets_ok (running : Running s) (h : width + lsb ≤ 64) (pos : 1 ≤ width) (lower : -2 ^ (width - 1) ≤ v)
    (upper : v ≤ 2 ^ (width - 1) - 1) : exec (.sets word width lsb v) s =
      .next (s.complete (.u64 (insertField word width lsb (v % 2 ^ width).toNat))) := by
  rw [exec_sets, runF_of_check_ok (requireField_of_le h), setSigned_ok pos lower upper, bind_of_ok, runF_ok running]

theorem exec_sets_overflow (running : Running s) (h : width + lsb ≤ 64)
    (outside : width = 0 ∨ v < -2 ^ (width - 1) ∨ 2 ^ (width - 1) - 1 < v) :
    exec (.sets word width lsb v) s = .next (s.takeFault .overflow) := by
  rw [exec_sets, runF_of_check_ok (requireField_of_le h), setSigned_error outside, bind_of_error, runF_error running]

end

/-! ### The signed field as a machine word of its width (40_bitfield.md R114) -/

/-- R114 reads the field as a two's-complement word of `width` bits, width 0 included. -/
theorem getSigned_eq_toInt (word width lsb : Nat) :
    getSigned word width lsb = (BitVec.ofNat width (getUnsigned word width lsb)).toInt := by
  obtain rfl | pos := Nat.eq_zero_or_pos width
  · exact (BitVec.toInt_zero_length _).symm
  · have double := two_pow_pred width pos
    rw [getSigned_eq word lsb pos, BitVec.toInt_eq_toNat_cond, BitVec.toNat_ofNat,
      Nat.mod_eq_of_lt (getUnsigned_lt word width lsb), Nat.cast_pow, Nat.cast_ofNat]
    split <;> split <;> omega

/-- Equal fields read alike, signed too. -/
theorem getSigned_congr {x y width lsb : Nat} (h : getUnsigned x width lsb = getUnsigned y width lsb) :
    getSigned x width lsb = getSigned y width lsb := by
  rw [getSigned_eq_toInt, getSigned_eq_toInt, h]

/-- On the 64 result wires the field is sign-extended: bits past its top bit repeat that bit. -/
theorem asU64_getSigned_getLsbD {word width lsb i : Nat} (pos : 1 ≤ width) (hi : i < 64) :
    (asU64 (getSigned word width lsb)).getLsbD i = word.testBit (lsb + min i (width - 1)) := by
  have field : ∀ j, j < width → (BitVec.ofNat width (getUnsigned word width lsb)).getLsbD j = word.testBit (lsb + j) := by
    intro j hj
    rw [BitVec.getLsbD_ofNat, getUnsigned_testBit, decide_eq_true hj, Bool.true_and, Bool.true_and]
  have extended : asU64 (getSigned word width lsb) =
      (BitVec.ofNat width (getUnsigned word width lsb)).signExtend 64 := by
    rw [asU64_eq_ofInt, getSigned_eq_toInt, BitVec.signExtend]
  rw [extended, BitVec.getLsbD_signExtend, decide_eq_true hi, Bool.true_and, BitVec.msb_eq_getLsbD_last]
  split
  · next below => rw [field i below, Nat.min_eq_left (by omega)]
  · next above => rw [field (width - 1) (by omega), Nat.min_eq_right (by omega)]

/-- R119, signed: extracting the low bits that were inserted gives the value of the range back. -/
theorem getSigned_insertField {word width lsb : Nat} {v : Int} (pos : 1 ≤ width) (lower : -2 ^ (width - 1) ≤ v)
    (upper : v ≤ 2 ^ (width - 1) - 1) :
    getSigned (insertField word width lsb (v % 2 ^ width).toNat) width lsb = v := by
  have low : BitVec.ofNat width (v % 2 ^ width).toNat = BitVec.ofInt width v :=
    BitVec.eq_of_toNat_eq (by simp [Nat.mod_eq_of_lt (emod_toNat_lt v width)])
  rw [getSigned_eq_toInt, getUnsigned_insertField (emod_toNat_lt v width), low]
  exact BitVec.toInt_ofInt_eq_self pos lower (Int.lt_of_le_sub_one upper)

/-- Both extractors answer alike on a field that shares no bit with the one inserted, be the field legal or not (R119). -/
theorem exec_get_insertField_other {word width lsb f w2 l2 : Nat} (s : State) (hf : f < 2 ^ width)
    (apart : l2 + w2 ≤ lsb ∨ lsb + width ≤ l2) :
    exec (.getu (insertField word width lsb f) w2 l2) s = exec (.getu word w2 l2) s ∧
      exec (.gets (insertField word width lsb f) w2 l2) s = exec (.gets word w2 l2) s := by
  have same := getUnsigned_insertField_other (word := word) hf apart
  rw [exec_getu, exec_getu, exec_gets, exec_gets, same, getSigned_congr same]
  exact ⟨rfl, rfl⟩

/-! ### The obligations -/

/-- Settles O24: the check decides between the fault and the field, which has the bits of `getUnsigned_testBit`. -/
theorem getUnsignedExtractsTheField : Obligations.GetUnsignedExtractsTheField := by
  intro word width lsb s running
  refine ⟨rfl, fun _ legal => ⟨_, exec_getu_ok running legal, rfl, getUnsigned_lt word width lsb,
    getUnsigned_testBit word width lsb⟩, fun illegal => runF_of_check_error running (requireField_error illegal)⟩

/-- Settles O25: the field is a word of `width` bits, and the result its value; on the wires it is sign-extended. -/
theorem getSignedExtendsTheField : Obligations.GetSignedExtendsTheField := by
  intro word width lsb s running
  refine ⟨rfl, fun _ legal => ⟨_, exec_gets_ok running legal, fun zero => if_pos zero, fun pos => ?_⟩,
    fun illegal => runF_of_check_error running (requireField_error illegal)⟩
  obtain ⟨lower, upper⟩ := getSigned_range word lsb pos
  refine ⟨lower, upper, ?_, fun i hi => asU64_getSigned_getLsbD pos hi⟩
  rw [getSigned_eq word lsb pos, getUnsigned_eq]

/-- Settles O26: `insertField` puts the value's bits in place, and the two checks come in the order of R117. -/
theorem setUnsignedInsertsTheField : Obligations.SetUnsignedInsertsTheField := by
  intro word width lsb value s running
  refine ⟨rfl, fun _ legal fits => ?_, fun illegal => runF_of_check_error running (requireField_error illegal),
    fun _ legal large => exec_setu_overflow running legal large⟩
  exact ⟨_, exec_setu_ok running legal fits, insertField_lt fits legal, insertField_testBit word width lsb value fits⟩

/-- Settles O27: `insertField` puts the low bits of the value in place, and the two checks come in the order of R117. -/
theorem setSignedInsertsTheField : Obligations.SetSignedInsertsTheField := by
  intro word width lsb value s running
  refine ⟨rfl, fun pos _ legal lower upper => ?_,
    fun illegal => runF_of_check_error running (requireField_error illegal),
    fun _ legal outside => exec_sets_overflow running legal outside⟩
  have fits := emod_toNat_lt value width
  exact ⟨_, exec_sets_ok running legal pos lower upper, insertField_lt fits legal,
    insertField_testBit word width lsb _ fits⟩

/-- Settles O28: extraction inverts `insertField` on its own field and ignores it on every other. -/
theorem insertThenExtract : Obligations.InsertThenExtract := by
  refine ⟨fun word width lsb value s running legal fits => ?_,
    fun word width lsb value s running pos legal lower upper => ?_⟩
  · refine ⟨_, exec_setu_ok running legal fits, ?_, fun w2 l2 => exec_get_insertField_other s fits⟩
    rw [exec_getu_ok running legal, getUnsigned_insertField fits]
  · refine ⟨_, exec_sets_ok running legal pos lower upper, ?_,
      fun w2 l2 => exec_get_insertField_other s (emod_toNat_lt value width)⟩
    rw [exec_gets_ok running legal, getSigned_insertField pos lower upper]

/-- Settles O29: these values lie on the two sides of the bounds of R115 and R116. -/
theorem firstOverflowingValues : Obligations.FirstOverflowingValues := by
  refine ⟨fun word width lsb s running _ legal => ?_, fun word width lsb s running pos _ legal => ?_⟩
  · exact ⟨exec_setu_overflow running legal le_rfl,
      _, exec_setu_ok running legal (Nat.sub_lt (Nat.two_pow_pos width) one_pos)⟩
  · have bound : (0 : Int) < 2 ^ (width - 1) := by positivity
    exact ⟨exec_sets_overflow running legal (by omega), exec_sets_overflow running legal (by omega),
      ⟨_, exec_sets_ok running legal pos (by omega) le_rfl⟩, _, exec_sets_ok running legal pos le_rfl (by omega)⟩

/-- Settles O22: the answer is the test of R111 on a value that is never negative. -/
theorem fitsUnsignedTest : Obligations.FitsUnsignedTest := by
  intro v width s running
  refine ⟨rfl, fun legal => ⟨_, exec_fitsu_ok running legal, (fitsUnsigned_iff v width).trans ?_⟩,
    fun wide => runF_of_check_error running (requireWidth_error wide)⟩
  rw [and_iff_right (Int.natCast_nonneg v)]
  exact_mod_cast Iff.rfl

/-- Settles O23: the answer is the test of R112. -/
theorem fitsSignedTest : Obligations.FitsSignedTest := fun v width _ running =>
  ⟨rfl, fun legal => ⟨_, exec_fitss_ok running legal, fitsSigned_iff v width⟩,
    fun wide => runF_of_check_error running (requireWidth_error wide)⟩

end Sys2Proof.Machine
end

section
/-! PROOFS. 41_quantizer.md: what rounding does at a tie, what each command of the quantizer answers on one record, and how the
array commands carry that to every place of their buffer. -/

namespace Sys2Proof.Machine

open Sys2Proof.Safety

/-! ### Rounding (00_scope.md R11, 41_quantizer.md R144) -/

theorem abs_rnd_sub_le (x : ℚ) : |(rnd x : ℚ) - x| ≤ 1 / 2 := by
  obtain ⟨lower, upper⟩ := rnd_spec x
  exact abs_sub_le_iff.mpr ⟨by linarith, by linarith⟩

/-- On either side of zero the floor's strict bound leaves only the tie that lies farther out. -/
theorem abs_le_abs_rnd_of_tie {x : ℚ} (tie : |(rnd x : ℚ) - x| = 1 / 2) : |x| ≤ |(rnd x : ℚ)| := by
  have side := eq_or_eq_neg_of_abs_eq tie
  rcases le_or_gt 0 x with nonneg | neg
  · obtain ⟨-, strict, -⟩ := rnd_pos nonneg
    have up : (rnd x : ℚ) - x = 1 / 2 := side.resolve_right fun down => by linarith
    exact abs_le_abs_of_nonneg nonneg (by linarith)
  · obtain ⟨-, strict, -⟩ := rnd_neg neg
    have down : (rnd x : ℚ) - x = -(1 / 2) := side.resolve_left fun up => by linarith
    exact abs_le_abs_of_nonpos neg.le (by linarith)

/-! ### One record (41_quantizer.md R140, R141) -/

/-- R140 with the constants of 00_scope.md R7 written out. -/
theorem quantForward_eq (ch : Chroma) (x : BlkRec) : quantForward ch x =
    { qa := rnd (63 * x.a), qb := rnd (100 * clamp x.b (-3 / 10) (3 / 10)),
      qc := rnd (100 * clamp x.c (-3 / 10) (3 / 10)), qd := rnd (100 * clamp x.d (-3 / 10) (3 / 10)),
      ipb := ((ch.indexOf x.avgpb).val : Int), ipr := ((ch.indexOf x.avgpr).val : Int) } := by
  simp only [quantForward, diffCode_eq, Config.aScale]

/-- R141 with the constants of R7 written out. -/
theorem quantInverseValue_eq (ch : Chroma) (x : QRec) : quantInverseValue ch x =
    { a := x.qa / 63, b := clamp (x.qb / 100) (-3 / 10) (3 / 10), c := clamp (x.qc / 100) (-3 / 10) (3 / 10),
      d := clamp (x.qd / 100) (-3 / 10) (3 / 10), avgpb := ch.valueOf (Fin.ofNat 16 x.ipb.toNat),
      avgpr := ch.valueOf (Fin.ofNat 16 x.ipr.toNat) } := by
  simp only [quantInverseValue, diffValue_eq, Config.aScale, chromaValue]

theorem quantInverse_ok {ch : Chroma} {x : QRec} (hpb : isIndex x.ipb) (hpr : isIndex x.ipr) :
    quantInverse ch x = .ok (quantInverseValue ch x) := if_pos ⟨hpb, hpr⟩

/-- R150 for the code of `a`. -/
theorem quantForward_qa_fits_iff (ch : Chroma) (x : BlkRec) :
    (0 ≤ (quantForward ch x).qa ∧ (quantForward ch x).qa ≤ 63) ↔ (-1 / 126 < x.a ∧ x.a < 127 / 126) := by
  rw [quantForward_eq, rnd_range_iff]
  refine and_congr ⟨fun h => ?_, fun h => ?_⟩ ⟨fun h => ?_, fun h => ?_⟩ <;> linarith

/-- R150 for a chroma index. -/
theorem chromaIndex_range (i : Fin 16) : 0 ≤ (i.val : Int) ∧ (i.val : Int) ≤ 15 := by omega

theorem quantForward_quantInverseValue_qa (ch : Chroma) (x : QRec) :
    (quantForward ch (quantInverseValue ch x)).qa = x.qa := by
  rw [quantForward_eq, quantInverseValue_eq]
  show rnd (63 * ((x.qa : ℚ) / 63)) = x.qa
  rw [mul_div_cancel₀ (x.qa : ℚ) (by norm_num), rnd_int]

section
variable {s : State} (running : Running s)
include running

theorem exec_qfwd (x : BlkRec) :
    exec (.qfwd x) s = .next (s.complete (.qblk (quantForward Config.chroma x))) := runF_ok running _

theorem exec_qinv_ok {x : QRec} (hpb : isIndex x.ipb) (hpr : isIndex x.ipr) :
    exec (.qinv x) s = .next (s.complete (.blk (quantInverseValue Config.chroma x))) := by
  show runF ((quantInverse Config.chroma x).map .blk) s = _
  rw [quantInverse_ok hpb hpr, map_ok, runF_ok running]

theorem exec_qinv_error {x : QRec} (bad : x.ipb < 0 ∨ 15 < x.ipb ∨ x.ipr < 0 ∨ 15 < x.ipr) :
    exec (.qinv x) s = .next (s.takeFault .precond) := by
  show runF ((quantInverse Config.chroma x).map .blk) s = _
  rw [quantInverse_error bad, map_error, runF_error running]

end

/-! ### The whole array (41_quantizer.md R142, R143) -/

/-- The checks on an input array fail when the buffer is `EMPTY` or a dimension is zero (10_state.md R31). -/
theorem inputArr_error_of_empty_or_zero {α : Type} {buf : Option (Arr α)}
    (h : buf = none ∨ ∃ A, buf = some A ∧ (A.w = 0 ∨ A.h = 0)) : inputArr buf = .error .precond := by
  obtain rfl | ⟨A, rfl, zero⟩ := h
  · rfl
  · exact if_neg (by omega)

/-- Where the element computation has one cause only, an element that fails fails the traversal with it. -/
theorem mapE_error_of_mem {α β : Type} {f : α → Except Cause β} {A : Arr α} {x : α} {c : Cause}
    (cause : ∀ y d, f y = .error d → d = c) (hx : x ∈ A.elems) (fails : f x = .error c) : A.mapE f = .error c := by
  cases e : A.mapE f with
  | error d =>
    obtain ⟨y, -, hy⟩ := mapE_error e
    rw [cause y d hy]
  | ok B =>
    obtain ⟨-, -, each⟩ := mapE_ok.mp e
    obtain ⟨i, hi, rfl⟩ := List.getElem_of_mem hx
    cases fails.symm.trans (each.get hi (each.length_eq ▸ hi))

/-- R143: an index out of range is found, unless the checks on the buffer have failed before with the same cause. -/
theorem quantizeInverse_error_of_mem {ch : Chroma} {m : Memory} {Q : Arr QRec} {x : QRec} (hQ : m.qblk = some Q)
    (hx : x ∈ Q.elems) (bad : x.ipb < 0 ∨ 15 < x.ipb ∨ x.ipr < 0 ∨ 15 < x.ipr) :
    quantizeInverse ch m = .error .precond := by
  refine bind_error.mpr ?_
  cases checks : inputArr m.qblk with
  | error c => exact .inl (by rw [inputArr_error checks])
  | ok A =>
    obtain ⟨hA, -⟩ := inputArr_ok.mp checks
    cases hQ.symm.trans hA
    exact .inr ⟨Q, rfl, bind_error.mpr (.inl
      (mapE_error_of_mem (fun _ _ => quantInverse_cause) hx (quantInverse_error bad)))⟩

/-! ### The obligations -/

/-- Settles O30: the bound and the tie rule are those of the floor that `rnd` takes on each side of zero. -/
theorem roundingIsNearestTiesAwayFromZero : Obligations.RoundingIsNearestTiesAwayFromZero :=
  ⟨fun x => ⟨abs_rnd_sub_le x, abs_le_abs_rnd_of_tie⟩, fun _ _ _ => clamp_eq, by decide +kernel⟩

/-- Settles O32: a clamped and scaled difference rounds into its range, and an index is one of sixteen. -/
theorem quantizedCodesAreInRange : Obligations.QuantizedCodesAreInRange := fun x _ running =>
  ⟨_, exec_qfwd running x, diffCode_range x.b, diffCode_range x.c, diffCode_range x.d, chromaIndex_range _,
    chromaIndex_range _, quantForward_qa_fits_iff Config.chroma x⟩

/-- Settles O34: the stage maps `quantForward` over the array, which is what QFWD answers at each place. -/
theorem quantizeTheBlockArray : Obligations.QuantizeTheBlockArray := by
  refine ⟨rfl, fun s B running hB sized hw hh => ?_, fun s running h => ?_⟩
  · refine ⟨B.map (quantForward Config.chroma), ?_, map_sized sized, rfl, rfl, fun col row hc hr => ?_⟩
    · exact runS_ok running (quantizeForward_ok.mpr ⟨B, hB, ⟨hw, hh⟩, rfl⟩)
    · rw [map_get sized hc hr, exec_qfwd running]
  · exact runS_error running (bind_error.mpr (.inl (inputArr_error_of_empty_or_zero h)))

/-- Settles O35: with every index in range the traversal is a map of `quantInverseValue`, which is what QINV answers at each
place; every check that can fail has the one cause. -/
theorem dequantizeTheBlockArray : Obligations.DequantizeTheBlockArray := by
  refine ⟨rfl, fun s Q running hQ sized hw hh indices => ?_, fun s Q x running hQ hx bad => ?_, fun s running h => ?_⟩
  · have traversal : Q.mapE (quantInverse Config.chroma) = .ok (Q.map (quantInverseValue Config.chroma)) := by
      refine mapE_of_forall fun x hx => ?_
      obtain ⟨hpb, hpr⟩ := indices x hx
      exact quantInverse_ok hpb hpr
    refine ⟨Q.map (quantInverseValue Config.chroma), ?_, map_sized sized, rfl, rfl, fun col row hc hr => ?_⟩
    · exact runS_ok running (quantizeInverse_ok.mpr ⟨Q, hQ, ⟨hw, hh⟩, _, traversal, rfl⟩)
    · obtain ⟨hpb, hpr⟩ := indices _ (get_mem sized hc hr)
      rw [map_get sized hc hr, exec_qinv_ok running hpb hpr]
  · exact runS_error running (quantizeInverse_error_of_mem hQ hx bad)
  · exact runS_error running (bind_error.mpr (.inl (inputArr_error_of_empty_or_zero h)))

/-- Settles O36: scaling undoes division and an integer rounds to itself; within ±30 no clamp moves a difference code. -/
theorem requantizingRestoresTheCodes : Obligations.RequantizingRestoresTheCodes := fun x _ running hpb hpr hb hc hd =>
  ⟨_, _, exec_qinv_ok running hpb hpr, exec_qfwd running _, quantForward_quantInverseValue_qa Config.chroma x,
    diffCode_diffValue hb, diffCode_diffValue hc, diffCode_diffValue hd⟩

/-- Settles O31: QFWD always completes, with the record of `quantForward_eq`. -/
theorem quantizeOneRecord : Obligations.QuantizeOneRecord := fun x _ running =>
  ⟨rfl, quantForward_eq Config.chroma x ▸ exec_qfwd running x⟩

/-- Settles O33: the index check decides between the record of `quantInverseValue_eq` and the fault. -/
theorem dequantizeOneRecord : Obligations.DequantizeOneRecord := fun x _ running =>
  ⟨rfl, fun pb0 pb15 pr0 pr15 => ⟨_, Fin.ofNat 16 x.ipb.toNat, Fin.ofNat 16 x.ipr.toNat,
    exec_qinv_ok running ⟨pb0, pb15⟩ ⟨pr0, pr15⟩, fin_ofNat_val pb0 pb15, fin_ofNat_val pr0 pr15,
    quantInverseValue_eq Config.chroma x⟩, exec_qinv_error running⟩

end Sys2Proof.Machine
end

section
/-! PROOFS. 42_color.md: the colour transform on one pixel, forward and inverse, and how the array commands carry it to every
place of their buffer. -/

namespace Sys2Proof.Machine

open Sys2Proof.Safety

/-! ### One pixel, forward (42_color.md R160, R165, R166) -/

/-- The requirement of CFWD on a pixel and its denominator (R166). -/
abbrev LegalPixel (denom : Byte) (x : Rgb) : Prop :=
  1 ≤ denom.toNat ∧ x.r.toNat ≤ denom.toNat ∧ x.g.toNat ≤ denom.toNat ∧ x.b.toNat ≤ denom.toNat

/-- What CFWD gives for a legal pixel: the formulas of R160 on the channels divided by the denominator. -/
def forwardRgb (denom : Byte) (x : Rgb) : CvPixel :=
  colorForwardQ ((x.r.toNat : ℚ) / denom.toNat) ((x.g.toNat : ℚ) / denom.toNat) ((x.b.toNat : ℚ) / denom.toNat)

theorem colorForward_ok {denom : Byte} {x : Rgb} (legal : LegalPixel denom x) :
    colorForward x.r x.g x.b denom = .ok (forwardRgb denom x) := by
  unfold colorForward
  rw [require_true legal]
  rfl

/-- R160 with the source's decimals. -/
theorem colorForwardQ_eq (R G B : ℚ) : colorForwardQ R G B =
    { y := 0.299 * R + 0.587 * G + 0.114 * B, pb := -0.168736 * R - 0.331264 * G + 0.5 * B,
      pr := 0.5 * R - 0.418688 * G - 0.081312 * B } := by
  norm_num [colorForwardQ]

theorem channel_div_denom_range {c denom : Nat} (h : c ≤ denom) : 0 ≤ (c : ℚ) / denom ∧ (c : ℚ) / denom ≤ 1 :=
  ⟨by positivity, div_le_one_of_le₀ (by exact_mod_cast h) (by positivity)⟩

/-- R165: each output is largest and smallest at channels that are 0 or 1. -/
theorem colorForwardQ_range {R G B : ℚ} (hR : 0 ≤ R ∧ R ≤ 1) (hG : 0 ≤ G ∧ G ≤ 1) (hB : 0 ≤ B ∧ B ≤ 1) :
    (0 ≤ (colorForwardQ R G B).y ∧ (colorForwardQ R G B).y ≤ 1) ∧
    (-1 / 2 ≤ (colorForwardQ R G B).pb ∧ (colorForwardQ R G B).pb ≤ 1 / 2) ∧
    (-1 / 2 ≤ (colorForwardQ R G B).pr ∧ (colorForwardQ R G B).pr ≤ 1 / 2) := by
  obtain ⟨r0, r1⟩ := hR
  obtain ⟨g0, g1⟩ := hG
  obtain ⟨b0, b1⟩ := hB
  refine ⟨⟨?_, ?_⟩, ⟨?_, ?_⟩, ?_, ?_⟩ <;> dsimp only [colorForwardQ] <;> linarith

/-- R165: the coefficients of `y` sum to 1, those of `pb` and of `pr` to 0. -/
theorem colorForwardQ_grey (R : ℚ) : colorForwardQ R R R = { y := R, pb := 0, pr := 0 } := by
  rw [colorForwardQ, CvPixel.mk.injEq]
  refine ⟨?_, ?_, ?_⟩ <;> ring

section
variable {s : State} (running : Running s)
include running

theorem exec_cfwd_ok {denom : Byte} {x : Rgb} (legal : LegalPixel denom x) :
    exec (.cfwd x.r x.g x.b denom) s = .next (s.complete (.cv (forwardRgb denom x))) := by
  show runF ((colorForward x.r x.g x.b denom).map .cv) s = _
  rw [colorForward_ok legal, map_ok, runF_ok running]

theorem exec_cfwd_error {denom : Byte} {x : Rgb} (illegal : ¬ LegalPixel denom x) :
    exec (.cfwd x.r x.g x.b denom) s = .next (s.takeFault .precond) := by
  show runF ((colorForward x.r x.g x.b denom).map .cv) s = _
  rw [colorForward_error illegal, map_error, runF_error running]

/-- CFWD completes on legal pixels only, and with one result. -/
theorem legalPixel_of_exec_cfwd {denom : Byte} {x : Rgb} {p : CvPixel}
    (completed : exec (.cfwd x.r x.g x.b denom) s = .next (s.complete (.cv p))) :
    LegalPixel denom x ∧ p = forwardRgb denom x := by
  by_cases legal : LegalPixel denom x
  · have same := Host.Outcome.next.inj (completed.symm.trans (exec_cfwd_ok running legal))
    exact ⟨legal, Result.cv.inj (Reply.result.inj (congrArg State.reply same))⟩
  · have same := Host.Outcome.next.inj (completed.symm.trans (exec_cfwd_error running legal))
    cases congrArg State.reply same

/-! ### One pixel, inverse (R161) -/

theorem exec_cinv (p : CvPixel) : exec (.cinv p) s = .next (s.complete (.rgb (colorInverse p))) := runF_ok running _

end

/-- R161 with the source's decimals. -/
theorem colorInverse_eq (p : CvPixel) : colorInverse p =
    { r := channelOut (p.y + 1.402 * p.pr), g := channelOut (p.y - 0.344136 * p.pb - 0.714136 * p.pr),
      b := channelOut (p.y + 1.772 * p.pb) } := by
  norm_num [colorInverse]

/-! ### The whole pixel map, forward (R162) -/

/-- The requirement of SCFWD on its map (R162). -/
def ForwardReady (P : PixelMap) : Prop :=
  (1 ≤ P.px.w ∧ 1 ≤ P.px.h) ∧ 1 ≤ P.denom.toNat ∧ ∀ x ∈ P.px.elems, LegalPixel P.denom x

theorem colorForwardStage_of_ready {m : Memory} {P : PixelMap} (hP : m.pix = some P) (ready : ForwardReady P) :
    colorForwardStage m = .ok { m with cv := some (P.px.map (forwardRgb P.denom)), pix := none } := by
  obtain ⟨dims, denom, legal⟩ := ready
  exact colorForwardStage_ok.mpr ⟨P, hP, dims, denom, _, mapE_of_forall fun x hx => colorForward_ok (legal x hx), rfl⟩

/-- A map the stage accepts meets the requirement: an illegal pixel would have failed the traversal. -/
theorem ready_of_colorForwardStage {m m' : Memory} (h : colorForwardStage m = .ok m') :
    ∃ P, m.pix = some P ∧ ForwardReady P := by
  obtain ⟨P, hP, dims, denom, V, traversal, -⟩ := colorForwardStage_ok.mp h
  refine ⟨P, hP, dims, denom, fun x hx => by_contra fun illegal => ?_⟩
  have failed := mapE_error_of_mem (fun _ _ => colorForward_cause) hx (colorForward_error illegal)
  cases failed.symm.trans traversal

/-- Every check of the stage has the one cause (R162). -/
theorem colorForwardStage_cause {m : Memory} {c : Cause} (h : colorForwardStage m = .error c) : c = .precond := by
  obtain checks | ⟨P, -, h⟩ := bind_error.mp h
  · exact inputPix_error checks
  obtain denom | ⟨_, -, h⟩ := bind_error.mp h
  · exact (require_error.mp denom).2
  obtain traversal | ⟨V, -, h⟩ := bind_error.mp h
  · obtain ⟨x, -, hx⟩ := mapE_error traversal
    exact colorForward_cause hx
  · cases h

theorem colorForwardStage_error {m : Memory} (h : ∀ P, m.pix = some P → ¬ ForwardReady P) :
    colorForwardStage m = .error .precond := by
  cases e : colorForwardStage m with
  | error c => rw [colorForwardStage_cause e]
  | ok m' =>
    obtain ⟨P, hP, ready⟩ := ready_of_colorForwardStage e
    exact absurd ready (h P hP)

/-! ### The obligations -/

/-- Settles O40: on a map that is ready the traversal is a map of `forwardRgb`, which is what CFWD answers at each place; any
other input fails a check. -/
theorem colorForwardThePixelMap : Obligations.ColorForwardThePixelMap := by
  refine ⟨rfl, fun s P running hP sized hw hh denom fits => ?_, fun s P running hP _ bad => ?_, fun s running empty => ?_⟩
  · have legal : ∀ x ∈ P.px.elems, LegalPixel P.denom x := fun x hx => ⟨denom, fits x hx⟩
    refine ⟨P.px.map (forwardRgb P.denom), ?_, map_sized sized, rfl, rfl, fun col row hc hr => ?_⟩
    · exact runS_ok running (colorForwardStage_of_ready hP ⟨⟨hw, hh⟩, denom, legal⟩)
    · rw [map_get sized hc hr, exec_cfwd_ok running (legal _ (get_mem sized hc hr))]
  · refine runS_error running (colorForwardStage_error fun P' hP' ready => ?_)
    cases hP.symm.trans hP'
    obtain ⟨⟨hw, hh⟩, denom, legal⟩ := ready
    obtain zero | zero | zero | ⟨x, hx, above⟩ := bad
    · omega
    · omega
    · omega
    · obtain ⟨-, hr, hg, hb⟩ := legal x hx
      omega
  · exact runS_error running (colorForwardStage_error fun P hP => by cases empty.symm.trans hP)

/-- Settles O41: the stage maps `colorInverse` over the array, which is what CINV answers at each place. -/
theorem colorInverseTheArray : Obligations.ColorInverseTheArray := by
  refine ⟨rfl, fun s V running hV sized hw hh => ?_, fun s running h => ?_⟩
  · refine ⟨{ denom := Config.outDenom, px := V.map colorInverse }, ?_, map_sized sized, rfl, rfl, rfl,
      fun col row hc hr => ?_⟩
    · exact runS_ok running (colorInverseStage_ok.mpr ⟨V, hV, ⟨hw, hh⟩, rfl⟩)
    · rw [map_get sized hc hr, exec_cinv running]
  · exact runS_error running (bind_error.mpr (.inl (inputArr_error_of_empty_or_zero h)))

/-- Settles O38: the channels of a legal pixel divided by the denominator lie in `[0,1]`, where R160's formulas have these
ranges. -/
theorem colorForwardRanges : Obligations.ColorForwardRanges := by
  intro r g b denom s p running completed
  obtain ⟨⟨-, hr, hg, hb⟩, rfl⟩ := legalPixel_of_exec_cfwd (x := ⟨r, g, b⟩) running completed
  obtain ⟨y, pb, pr⟩ := colorForwardQ_range (channel_div_denom_range hr) (channel_div_denom_range hg)
    (channel_div_denom_range hb)
  refine ⟨y, pb, pr, ?_⟩
  rintro rfl rfl
  exact colorForwardQ_grey _

/-- Settles O39: CINV always completes, with the channels of `colorInverse_eq`, each as `channelOut_eq` says. -/
theorem colorInverseOnePixel : Obligations.ColorInverseOnePixel := by
  intro p s running
  refine ⟨rfl, _, colorInverse_eq p ▸ exec_cinv running p, ?_, ?_, ?_⟩
  · exact channelOut_eq _
  · exact channelOut_eq _
  · exact channelOut_eq _

/-- Settles O37: the check of R166 decides between the pixel of `colorForwardQ_eq` and the fault. -/
theorem colorForwardOnePixel : Obligations.ColorForwardOnePixel := by
  refine fun r g b denom s running => ⟨rfl, fun pos hr hg hb R G B eR eG eB => ?_, fun bad => ?_⟩
  · subst eR eG eB
    rw [← colorForwardQ_eq]
    exact exec_cfwd_ok (x := ⟨r, g, b⟩) running ⟨pos, hr, hg, hb⟩
  · refine exec_cfwd_error (x := ⟨r, g, b⟩) running ?_
    rintro ⟨pos, hr, hg, hb⟩
    dsimp only at hr hg hb
    omega

end Sys2Proof.Machine
end

section
/-! PROOFS. 43_block.md: the block transform on one quad and its inverse, and how the array commands carry them to every quad of
their buffer. -/

namespace Sys2Proof.Machine

open Sys2Proof.Safety

/-! ### One quad (43_block.md R180 to R182) -/

section
variable (p1 p2 p3 p4 : CvPixel)

@[simp] theorem blockInverse1_blockForward_y : (blockInverse1 (blockForward p1 p2 p3 p4)).y = p1.y := by
  dsimp only [blockInverse1, blockForward]
  ring

@[simp] theorem blockInverse2_blockForward_y : (blockInverse2 (blockForward p1 p2 p3 p4)).y = p2.y := by
  dsimp only [blockInverse2, blockForward]
  ring

@[simp] theorem blockInverse3_blockForward_y : (blockInverse3 (blockForward p1 p2 p3 p4)).y = p3.y := by
  dsimp only [blockInverse3, blockForward]
  ring

@[simp] theorem blockInverse4_blockForward_y : (blockInverse4 (blockForward p1 p2 p3 p4)).y = p4.y := by
  dsimp only [blockInverse4, blockForward]
  ring

end

/-- The chroma comes back too: all four pixels carry the mean, which is their own mean. -/
theorem blockForward_blockInverse (x : BlkRec) :
    blockForward (blockInverse1 x) (blockInverse2 x) (blockInverse3 x) (blockInverse4 x) = x := by
  obtain ⟨a, b, c, d, avgpb, avgpr⟩ := x
  simp only [blockForward, blockInverse1, blockInverse2, blockInverse3, blockInverse4, BlkRec.mk.injEq]
  refine ⟨?_, ?_, ?_, ?_, ?_, ?_⟩ <;> ring

/-! ### The pixel SBINV writes at each corner of a quad (R185, R187) -/

section
variable (B : Arr BlkRec) (i j : Nat)

theorem quadInverse_topLeft : quadInverse B (2 * i) (2 * j) = blockInverse1 (B.get i j) := by
  simp [quadInverse]

theorem quadInverse_topRight : quadInverse B (2 * i + 1) (2 * j) = blockInverse2 (B.get i j) := by
  simp [quadInverse, Nat.mul_add_div]

theorem quadInverse_bottomLeft : quadInverse B (2 * i) (2 * j + 1) = blockInverse3 (B.get i j) := by
  simp [quadInverse, Nat.mul_add_div]

theorem quadInverse_bottomRight : quadInverse B (2 * i + 1) (2 * j + 1) = blockInverse4 (B.get i j) := by
  simp [quadInverse, Nat.mul_add_div]

end

/-- R182 at a place: its parities say which corner of its quad it is. -/
theorem quadInverse_y_of_quadForward {V : Arr CvPixel} {B : Arr BlkRec} {col row : Nat}
    (h : B.get (col / 2) (row / 2) = quadForward V (col / 2) (row / 2)) :
    (quadInverse B col row).y = (V.get col row).y := by
  obtain ⟨i, hc⟩ := col.even_or_odd'
  obtain ⟨j, hr⟩ := row.even_or_odd'
  rw [show col / 2 = i by omega, show row / 2 = j by omega, quadForward] at h
  obtain rfl | rfl := hr <;> obtain rfl | rfl := hc
  · rw [quadInverse_topLeft, h, blockInverse1_blockForward_y]
  · rw [quadInverse_topRight, h, blockInverse2_blockForward_y]
  · rw [quadInverse_bottomLeft, h, blockInverse3_blockForward_y]
  · rw [quadInverse_bottomRight, h, blockInverse4_blockForward_y]

/-! ### The whole array (R184 to R186) -/

/-- The array SBFWD writes to `BLK` (R184). -/
def blocksOf (V : Arr CvPixel) : Arr BlkRec := Arr.tabulate (V.w / 2) (V.h / 2) (quadForward V)

/-- The array SBINV writes to `CV` (R185). -/
def pixelsOf (B : Arr BlkRec) : Arr CvPixel := Arr.tabulate (2 * B.w) (2 * B.h) (quadInverse B)

@[simp] theorem blocksOf_w (V : Arr CvPixel) : (blocksOf V).w = V.w / 2 := rfl

@[simp] theorem blocksOf_h (V : Arr CvPixel) : (blocksOf V).h = V.h / 2 := rfl

@[simp] theorem pixelsOf_w (B : Arr BlkRec) : (pixelsOf B).w = 2 * B.w := rfl

@[simp] theorem pixelsOf_h (B : Arr BlkRec) : (pixelsOf B).h = 2 * B.h := rfl

theorem blocksOf_sized (V : Arr CvPixel) : (blocksOf V).Sized := tabulate_sized _ _ _

theorem pixelsOf_sized (B : Arr BlkRec) : (pixelsOf B).Sized := tabulate_sized _ _ _

theorem blocksOf_get {V : Arr CvPixel} {i j : Nat} (hi : i < V.w / 2) (hj : j < V.h / 2) :
    (blocksOf V).get i j = quadForward V i j := tabulate_get _ hi hj

theorem pixelsOf_get {B : Arr BlkRec} {col row : Nat} (hc : col < 2 * B.w) (hr : row < 2 * B.h) :
    (pixelsOf B).get col row = quadInverse B col row := tabulate_get _ hc hr

/-- Every check of the stage has the one cause (R184, R186). -/
theorem blockForwardStage_cause {m : Memory} {c : Cause} (h : blockForwardStage m = .error c) : c = .precond := by
  obtain checks | ⟨V, -, h⟩ := bind_error.mp h
  · exact inputArr_error checks
  obtain odd | ⟨_, -, h⟩ := bind_error.mp h
  · exact (require_error.mp odd).2
  · cases h

theorem blockForwardStage_error {m : Memory}
    (h : m.cv = none ∨ ∃ V, m.cv = some V ∧ (V.w = 0 ∨ V.h = 0 ∨ V.w % 2 = 1 ∨ V.h % 2 = 1)) :
    blockForwardStage m = .error .precond := by
  cases e : blockForwardStage m with
  | error c => rw [blockForwardStage_cause e]
  | ok m' =>
    obtain ⟨V, hV, dims, even, -⟩ := blockForwardStage_ok.mp e
    obtain empty | ⟨V', hV', bad⟩ := h
    · cases empty.symm.trans hV
    · cases hV.symm.trans hV'
      omega

section
variable {s : State} (running : Running s)
include running

theorem exec_bfwd (p1 p2 p3 p4 : CvPixel) :
    exec (.bfwd p1 p2 p3 p4) s = .next (s.complete (.blk (blockForward p1 p2 p3 p4))) := runF_ok running _

theorem exec_binv (x : BlkRec) : exec (.binv x) s =
    .next (s.complete (.quad (blockInverse1 x) (blockInverse2 x) (blockInverse3 x) (blockInverse4 x))) :=
  runF_ok running _

theorem exec_sbfwd_ok {V : Arr CvPixel} (hV : s.mem.cv = some V) (dims : 1 ≤ V.w ∧ 1 ≤ V.h)
    (even : V.w % 2 = 0 ∧ V.h % 2 = 0) :
    exec .sbfwd s = .next (s.finish { s.mem with blk := some (blocksOf V), cv := none }) :=
  runS_ok running (blockForwardStage_ok.mpr ⟨V, hV, dims, even, rfl⟩)

theorem exec_sbinv_ok {B : Arr BlkRec} (hB : s.mem.blk = some B) (dims : 1 ≤ B.w ∧ 1 ≤ B.h) :
    exec .sbinv s = .next (s.finish { s.mem with cv := some (pixelsOf B), blk := none }) :=
  runS_ok running (blockInverseStage_ok.mpr ⟨B, hB, dims, rfl⟩)

end

/-! ### The obligations -/

/-- Settles O43: on luma the two matrices are inverse; the chroma BINV hands out is BFWD's mean. -/
theorem blockTransformIsExactOnLuma : Obligations.BlockTransformIsExactOnLuma := by
  refine ⟨fun p1 p2 p3 p4 s running => ?_, fun x s running => ?_⟩
  · refine ⟨_, _, _, _, _, exec_bfwd running p1 p2 p3 p4, exec_binv running _, blockInverse1_blockForward_y ..,
      blockInverse2_blockForward_y .., blockInverse3_blockForward_y .., blockInverse4_blockForward_y .., ?_⟩
    simp only [List.forall_mem_cons]
    exact ⟨⟨rfl, rfl⟩, ⟨rfl, rfl⟩, ⟨rfl, rfl⟩, ⟨rfl, rfl⟩, by simp⟩
  · refine ⟨_, _, _, _, exec_binv running x, ?_⟩
    rw [exec_bfwd running, blockForward_blockInverse]

/-- Settles O44: block `(i,j)` of the array written is `quadForward`, which is what BFWD answers for its quad. -/
theorem blockForwardTheArray : Obligations.BlockForwardTheArray := by
  refine ⟨rfl, fun s V running hV _ hw hh evenW evenH => ?_, fun s running bad => ?_⟩
  · refine ⟨blocksOf V, exec_sbfwd_ok running hV ⟨hw, hh⟩ ⟨evenW, evenH⟩, blocksOf_sized V,
      Nat.mul_div_cancel' (Nat.dvd_of_mod_eq_zero evenW), Nat.mul_div_cancel' (Nat.dvd_of_mod_eq_zero evenH),
      fun i j hi hj => ?_⟩
    rw [blocksOf_get hi hj, exec_bfwd running, quadForward]
  · exact runS_error running (blockForwardStage_error bad)

/-- Settles O45: the corners of quad `(2i,2j)` of the array written are the four pixels BINV answers for block `(i,j)`. -/
theorem blockInverseTheArray : Obligations.BlockInverseTheArray := by
  refine ⟨rfl, fun s B running hB _ hw hh => ?_, fun s running bad => ?_⟩
  · refine ⟨pixelsOf B, exec_sbinv_ok running hB ⟨hw, hh⟩, pixelsOf_sized B, rfl, rfl, fun i j hi hj => ?_⟩
    have left : 2 * i < 2 * B.w := by omega
    have right : 2 * i + 1 < 2 * B.w := by omega
    have top : 2 * j < 2 * B.h := by omega
    have bottom : 2 * j + 1 < 2 * B.h := by omega
    rw [pixelsOf_get left top, pixelsOf_get right top, pixelsOf_get left bottom, pixelsOf_get right bottom,
      quadInverse_topLeft, quadInverse_topRight, quadInverse_bottomLeft, quadInverse_bottomRight, exec_binv running]
  · exact runS_error running (bind_error.mpr (.inl (inputArr_error_of_empty_or_zero bad)))

/-- Settles O46: every place of an array of even dimensions lies in a quad, where R182 gives its luma back. -/
theorem blockArrayRoundTripKeepsLuma : Obligations.BlockArrayRoundTripKeepsLuma := by
  intro s V running hV _ hw hh evenW evenH
  have dims : 1 ≤ (blocksOf V).w ∧ 1 ≤ (blocksOf V).h := by rw [blocksOf_w, blocksOf_h]; omega
  refine ⟨_, pixelsOf (blocksOf V), exec_sbfwd_ok running hV ⟨hw, hh⟩ ⟨evenW, evenH⟩,
    exec_sbinv_ok (s := s.finish _) running rfl dims, Nat.mul_div_cancel' (Nat.dvd_of_mod_eq_zero evenW),
    Nat.mul_div_cancel' (Nat.dvd_of_mod_eq_zero evenH), fun col row hc hr => ?_⟩
  rw [pixelsOf_get (by rw [blocksOf_w]; omega) (by rw [blocksOf_h]; omega)]
  exact quadInverse_y_of_quadForward (blocksOf_get (by omega) (by omega))

/-- Settles O42: neither command can fail, and the model's two functions are the formulas of R180 and R181. -/
theorem blockTransformOneQuad : Obligations.BlockTransformOneQuad :=
  ⟨fun p1 p2 p3 p4 _ running => ⟨rfl, exec_bfwd running p1 p2 p3 p4⟩, fun x _ running => ⟨rfl, exec_binv running x⟩⟩

end Sys2Proof.Machine
end

section
/-! PROOFS. 44_codeword.md: what CWASM and CWDIS answer on one record and one word, how the two invert each other, and how the
array commands carry them to every place of their buffer. -/

namespace Sys2Proof.Machine

open Sys2Proof.Safety

/-! ### One record, one word (44_codeword.md R200 to R203) -/

theorem inRange_disassemble (word : Nat) : InRange (disassemble word) := (disassemble_parts word).1

section
variable {s : State} (running : Running s)
include running

theorem exec_cwasm_ok {x : QRec} {w : Nat} (h : assemble x = .ok w) :
    exec (.cwasm x) s = .next (s.complete (.u64 w)) := by
  show runF ((assemble x).map .u64) s = _
  rw [h, map_ok, runF_ok running]

theorem exec_cwasm_overflow {x : QRec} (h : ¬ InRange x) :
    exec (.cwasm x) s = .next (s.takeFault .overflow) := by
  show runF ((assemble x).map .u64) s = _
  rw [assemble_error h, map_error, runF_error running]

theorem exec_cwdis (word : Nat) :
    exec (.cwdis word) s = .next (s.complete (.qblk (disassemble word))) := runF_ok running _

end

/-! ### One element of SCWASM (R204, 10_state.md R29) -/

theorem assembleWord_error {x : QRec} (h : ¬ InRange x) : assembleWord x = .error .overflow := by
  rw [assembleWord, assemble_error h, map_error]

/-- CWASM's word has no bit above bit 31, so the codeword that SCWASM stores is the whole of it. -/
theorem assembleWord_of_inRange {x : QRec} (h : InRange x) :
    ∃ c : Codeword, assembleWord x = .ok c ∧ assemble x = .ok c.toNat := by
  obtain ⟨w, assembled, below, -⟩ := assemble_ok h
  refine ⟨BitVec.ofNat 32 w, by rw [assembleWord, assembled, map_ok], ?_⟩
  rw [assembled, BitVec.toNat_ofNat, Nat.mod_eq_of_lt below]

theorem assemble_of_assembleWord {x : QRec} {c : Codeword} (h : InRange x) (hc : assembleWord x = .ok c) :
    assemble x = .ok c.toNat := by
  obtain ⟨c', hc', assembled⟩ := assembleWord_of_inRange h
  cases hc.symm.trans hc'
  exact assembled

/-- OverflowError is the one cause an element can have. -/
theorem assembleWord_cause {x : QRec} {c : Cause} (h : assembleWord x = .error c) : c = .overflow := by
  by_cases inRange : InRange x
  · obtain ⟨w, assembled, -⟩ := assembleWord_of_inRange inRange
    cases assembled.symm.trans h
  · cases (assembleWord_error inRange).symm.trans h
    rfl

/-! ### The whole array (R204, R205) -/

theorem exists_mapE_ok {α β : Type} {f : α → Except Cause β} {A : Arr α} (h : ∀ x ∈ A.elems, ∃ y, f x = .ok y) :
    ∃ B, A.mapE f = .ok B := by
  cases e : A.mapE f with
  | ok B => exact ⟨B, rfl⟩
  | error c =>
    obtain ⟨x, hx, fails⟩ := mapE_error e
    obtain ⟨y, hy⟩ := h x hx
    cases hy.symm.trans fails

/-- The array SCWDIS writes to `QBLK` (R205). -/
def recordsOf (C : Arr Codeword) : Arr QRec := C.map fun c => disassemble c.toNat

theorem recordsOf_inRange (C : Arr Codeword) : ∀ x ∈ (recordsOf C).elems, InRange x :=
  List.forall_mem_map.mpr fun c _ => inRange_disassemble c.toNat

section
variable {s : State} (running : Running s)
include running

theorem exec_scwasm_ok {Q : Arr QRec} {C : Arr Codeword} (hQ : s.mem.qblk = some Q) (dims : 1 ≤ Q.w ∧ 1 ≤ Q.h)
    (traversal : Q.mapE assembleWord = .ok C) :
    exec .scwasm s = .next (s.finish { s.mem with cwa := some C, qblk := none }) :=
  runS_ok running (assembleStage_ok.mpr ⟨Q, hQ, dims, C, traversal, rfl⟩)

/-- The checks of the buffer pass, and the traversal meets the record that does not fit. -/
theorem exec_scwasm_overflow {Q : Arr QRec} {x : QRec} (hQ : s.mem.qblk = some Q) (dims : 1 ≤ Q.w ∧ 1 ≤ Q.h)
    (hx : x ∈ Q.elems) (outside : ¬ InRange x) : exec .scwasm s = .next (s.takeFault .overflow) := by
  have traversal : Q.mapE assembleWord = .error .overflow :=
    mapE_error_of_mem (fun _ _ => assembleWord_cause) hx (assembleWord_error outside)
  exact runS_error running
    (bind_error.mpr (.inr ⟨Q, inputArr_ok.mpr ⟨hQ, dims⟩, bind_error.mpr (.inl traversal)⟩))

theorem exec_scwdis_ok {C : Arr Codeword} (hC : s.mem.cwa = some C) (dims : 1 ≤ C.w ∧ 1 ≤ C.h) :
    exec .scwdis s = .next (s.finish { s.mem with qblk := some (recordsOf C), cwa := none }) :=
  runS_ok running (disassembleStage_ok.mpr ⟨C, hC, dims, rfl⟩)

end

/-! ### The obligations -/

/-- Settles O47: the six insertions give the word of `assemble_ok`, or the first field that does not fit overflows. -/
theorem assembleOneCodeword : Obligations.AssembleOneCodeword := by
  intro x s running
  refine ⟨rfl, fun inRange => ?_, exec_cwasm_overflow running⟩
  obtain ⟨w, assembled, below, value⟩ := assemble_ok inRange
  exact ⟨w, exec_cwasm_ok running assembled, below, value⟩

/-- Settles O48: CWDIS always completes, with the fields of `disassemble_parts`; it reads the word modulo `2^32` only. -/
theorem disassembleOneCodeword : Obligations.DisassembleOneCodeword := by
  intro word s running
  obtain ⟨inRange, qa, ipb, ipr, qb, qc, qd⟩ := disassemble_parts word
  refine ⟨rfl, disassemble word, exec_cwdis running word, inRange, qa, ipb, ipr, qb, qc, qd, ?_⟩
  rw [exec_cwdis running, exec_cwdis running, disassemble_mod]

/-- Settles O49: a record is determined by its ranges and residues, and a word below `2^32` by its fields. -/
theorem codewordRoundTrip : Obligations.CodewordRoundTrip := by
  refine ⟨fun x s running inRange => ?_, fun word s running below => ?_⟩
  · obtain ⟨w, assembled, -⟩ := assemble_ok inRange
    refine ⟨w, exec_cwasm_ok running assembled, ?_⟩
    rw [exec_cwdis running, disassemble_of_assemble inRange assembled]
  · exact ⟨_, exec_cwdis running word, exec_cwasm_ok running (assemble_disassemble below)⟩

/-- Settles O50: with every record in range the traversal succeeds, and the codeword at each place is the word CWASM
answers; a record out of range, behind the checks of the buffer, has the cause OverflowError. -/
theorem assembleTheArray : Obligations.AssembleTheArray := by
  refine ⟨rfl, fun s Q running hQ sized hw hh inRange => ?_,
    fun s Q x running hQ hw hh => exec_scwasm_overflow running hQ ⟨hw, hh⟩, fun s running bad => ?_⟩
  · have each : ∀ x ∈ Q.elems, ∃ c, assembleWord x = .ok c := fun x hx =>
      (assembleWord_of_inRange (inRange x hx)).imp fun _ => And.left
    obtain ⟨C, traversal⟩ := exists_mapE_ok each
    obtain ⟨sameW, sameH, -⟩ := mapE_ok.mp traversal
    refine ⟨C, exec_scwasm_ok running hQ ⟨hw, hh⟩ traversal, mapE_sized sized traversal, sameW, sameH,
      fun col row hc hr => exec_cwasm_ok running ?_⟩
    exact assemble_of_assembleWord (inRange _ (get_mem sized hc hr)) (mapE_get sized traversal hc hr)
  · exact runS_error running (bind_error.mpr (.inl (inputArr_error_of_empty_or_zero bad)))

/-- Settles O51: the stage maps `disassemble` over the array, which is what CWDIS answers at each place. -/
theorem disassembleTheArray : Obligations.DisassembleTheArray := by
  refine ⟨rfl, fun s C running hC sized hw hh => ?_, fun s running bad => ?_⟩
  · refine ⟨recordsOf C, exec_scwdis_ok running hC ⟨hw, hh⟩, map_sized sized, rfl, rfl, recordsOf_inRange C,
      fun col row hc hr => ?_⟩
    rw [exec_cwdis running, recordsOf, map_get sized hc hr]
  · exact runS_error running (bind_error.mpr (.inl (inputArr_error_of_empty_or_zero bad)))

end Sys2Proof.Machine
end

section
/-! PROOFS. 45_wire.md: the stream WWRITE writes, how WREAD's header scan ends on a beginning of a header and on a wrong byte, and
how a codeword array and its stream determine each other. -/

namespace Sys2Proof.Machine

open Sys2Proof.Safety

/-! ### The stream written (45_wire.md R220 to R222) -/

/-- R7, 30_encoding.md R90: the magic is the ASCII of the spec's line. -/
theorem magic_ascii :
    "COMP40 Compressed image format 2".toList.map (fun c => BitVec.ofNat 8 c.toNat) = Config.magic := by decide

theorem header_prefix_streamOf (C : Arr Codeword) : header (2 * C.w) (2 * C.h) <+: streamOf C := List.prefix_append _ _

/-- R220: the stream's length, by 30_encoding.md R96 and the body's. -/
theorem streamOf_length {C : Arr Codeword} (sized : C.Sized) :
    (streamOf C).length = headerLength (2 * C.w) (2 * C.h) + 4 * C.w * C.h := by
  rw [streamOf, List.length_append, header_length, body_length sized]

/-- A read behind a header is a read of what follows it. -/
theorem memRead_behind_header (pw ph : Nat) (rest : List Byte) (p n : Nat) :
    memRead (header pw ph ++ rest) (headerLength pw ph + p) n = memRead rest p n := by
  rw [← header_length, memRead_append]

/-- R222: where each codeword stands. -/
theorem memRead_streamOf {C : Arr Codeword} {col row : Nat} (sized : C.Sized) (hc : col < C.w) (hr : row < C.h) :
    memRead (streamOf C) (headerLength (2 * C.w) (2 * C.h) + 4 * (row * C.w + col)) 4 = (C.get col row).toNat := by
  rw [streamOf, memRead_behind_header, body_get sized hc hr]

/-! ### The body read (R223, R226) -/

/-- R226: the body of an even header has as many bytes as the header declares pixels. -/
theorem four_mul_halves {pw ph : Nat} (hw : pw % 2 = 0) (hh : ph % 2 = 0) : 4 * (pw / 2) * (ph / 2) = pw * ph := by
  obtain ⟨w, rfl⟩ := Nat.dvd_of_mod_eq_zero hw
  obtain ⟨h, rfl⟩ := Nat.dvd_of_mod_eq_zero hh
  rw [Nat.mul_div_cancel_left w two_pos, Nat.mul_div_cancel_left h two_pos]
  ring

/-- Sized arrays of the same dimensions with the same element at every place are the same (10_state.md R24). -/
theorem eq_of_forall_get {α : Type} [Inhabited α] {A B : Arr α} (hA : A.Sized) (hB : B.Sized) (sameW : A.w = B.w)
    (sameH : A.h = B.h) (same : ∀ col row, col < A.w → row < A.h → A.get col row = B.get col row) : A = B := by
  obtain ⟨w, h, xs⟩ := A
  obtain ⟨w', h', ys⟩ := B
  obtain rfl : w = w' := sameW
  obtain rfl : h = h' := sameH
  rw [Arr.mk.injEq]
  refine ⟨rfl, rfl, List.ext_getElem (hA.trans hB.symm) fun k hx hy => ?_⟩
  have index : k < h * w := by rw [Nat.mul_comm, ← hA]; exact hx
  have hw : 0 < w := Nat.pos_of_ne_zero (by rintro rfl; omega)
  have place := same (k % w) (k / w) (Nat.mod_lt k hw) (Nat.div_lt_of_lt_mul (by rwa [Nat.mul_comm]))
  have row_major : k / w * w + k % w = k := by rw [Nat.mul_comm, Nat.div_add_mod]
  simpa [Arr.get, row_major, List.getD_eq_getElem?_getD, hx, hy] using place

/-- The codeword array that WREAD reads from a body (R223). -/
def codewordsOf (w h : Nat) (bs : List Byte) : Arr Codeword := Arr.tabulate w h (codewordAt bs w)

theorem codewordsOf_sized (w h : Nat) (bs : List Byte) : (codewordsOf w h bs).Sized := tabulate_sized _ _ _

theorem codewordsOf_get_toNat {w h col row : Nat} (bs : List Byte) (hc : col < w) (hr : row < h) :
    ((codewordsOf w h bs).get col row).toNat = memRead bs (4 * (row * w + col)) 4 := by
  rw [codewordsOf, tabulate_get _ hc hr, codewordAt_toNat]

/-- Reading the body written gives the array back. -/
theorem codewordsOf_body {C : Arr Codeword} (sized : C.Sized) : codewordsOf C.w C.h (body C) = C := by
  refine eq_of_forall_get (codewordsOf_sized _ _ _) sized rfl rfl fun col row hc hr => BitVec.eq_of_toNat_eq ?_
  exact (codewordsOf_get_toNat _ hc hr).trans (body_get sized hc hr)

/-- The bytes of a four-byte read are the bytes read (20_memory.md R53). -/
theorem beBytes_memRead {bs : List Byte} {p : Nat} (h : p + 4 ≤ bs.length) :
    beBytes Config.cwBytes (memRead bs p 4) = (bs.drop p).take 4 := by
  have four : ((bs.drop p).take 4).length = Config.cwBytes := List.length_take_of_le (by rw [List.length_drop]; omega)
  rw [memRead, ← four, beBytes_beNat]

/-- The four-byte pieces of a list, in order, are its beginning. -/
theorem flatMap_pieces (bs : List Byte) (n : Nat) :
    ((List.range n).flatMap fun k => (bs.drop (4 * k)).take 4) = bs.take (4 * n) := by
  induction n with
  | zero => rfl
  | succ n ih => rw [List.range_succ, List.flatMap_append, ih, List.flatMap_singleton, Nat.mul_succ, List.take_add]

/-- Writing the codewords read gives back the bytes they were read from. -/
theorem body_codewordsOf {w h : Nat} {bs : List Byte} (enough : 4 * w * h ≤ bs.length) :
    body (codewordsOf w h bs) = bs.take (4 * w * h) := by
  rw [body, codewordsOf, Arr.tabulate, List.flatMap_map, Nat.mul_assoc, ← flatMap_pieces]
  refine List.flatMap_congr fun k hk => ?_
  have index : k < w * h := List.mem_range.mp hk
  rw [codewordAt_toNat, Nat.mul_comm (k / w), Nat.div_add_mod, beBytes_memRead]
  rw [Nat.mul_assoc] at enough
  omega

/-! ### The whole parse, on a stream written and on any stream (R228) -/

/-- R223 on an even header in range with a body long enough. -/
theorem parseStream_ok {d pw ph : Nat} {rest : List Byte} (hw : 1 ≤ pw ∧ pw ≤ d) (hh : 1 ≤ ph ∧ ph ≤ d)
    (even : pw % 2 = 0 ∧ ph % 2 = 0) (enough : pw * ph ≤ rest.length) :
    parseStream d (header pw ph ++ rest) = .ok (codewordsOf (pw / 2) (ph / 2) rest) := by
  rw [parseStream_full hw.1 hw.2 hh.1 hh.2, if_pos even, four_mul_halves even.1 even.2, if_neg (by omega), codewordsOf]

/-- WREAD accepts what WWRITE writes. -/
theorem parseStream_streamOf {d : Nat} {C : Arr Codeword} (type : blockSized d C) (hw : 1 ≤ C.w) (hh : 1 ≤ C.h) :
    parseStream d (streamOf C) = .ok C := by
  obtain ⟨sized, boundW, boundH⟩ := type
  have enough : 2 * C.w * (2 * C.h) ≤ (body C).length := by rw [body_length sized]; exact le_of_eq (by ring)
  rw [streamOf, parseStream_ok (by omega) (by omega) (by omega) enough, Nat.mul_div_cancel_left _ two_pos,
    Nat.mul_div_cancel_left _ two_pos, codewordsOf_body sized]

/-- WREAD accepts nothing but what WWRITE writes, with any bytes after it. -/
theorem parseStream_inv {d : Nat} {s : List Byte} {C : Arr Codeword} (h : parseStream d s = .ok C) :
    1 ≤ C.w ∧ 1 ≤ C.h ∧ ∃ trailing, s = streamOf C ++ trailing := by
  simp only [parseStream, bind_ok] at h
  obtain ⟨⟨cw, ch, rest⟩, scanned, e⟩ := h
  obtain ⟨hw, -, hh, -, rfl⟩ := readHeader_inv scanned
  dsimp only at e
  split at e
  case isTrue short => cases e
  case isFalse enough =>
    cases e
    refine ⟨hw, hh, rest.drop (4 * cw * ch), ?_⟩
    show _ = header (2 * cw) (2 * ch) ++ body (codewordsOf cw ch rest) ++ _
    rw [body_codewordsOf (not_lt.mp enough), List.append_assoc, List.take_append_drop]

/-! ### Beginnings of a header (R224) -/

/-- A stream that ends inside a header in range, by the part it ends in: the magic line, the width, the height. -/
inductive CutHeader (d : Nat) : List Byte → Prop where
  | magic {l m : List Byte} (hm : m ≠ []) (e : l ++ m = Config.magic ++ [lf]) : CutHeader d l
  | width {pw : Nat} {l m : List Byte} (hw : 1 ≤ pw ∧ pw ≤ d) (hm : m ≠ []) (e : l ++ m = dec pw ++ [sp]) :
      CutHeader d ((Config.magic ++ [lf]) ++ l)
  | height {pw ph : Nat} {l m : List Byte} (hw : 1 ≤ pw ∧ pw ≤ d) (hh : 1 ≤ ph ∧ ph ≤ d) (hm : m ≠ [])
      (e : l ++ m = dec ph ++ [lf]) : CutHeader d ((Config.magic ++ [lf]) ++ ((dec pw ++ [sp]) ++ l))

/-- A cut of two runs lies inside the first or behind it. -/
theorem cut_append {α : Type} {l m a b : List α} (h : l ++ m = a ++ b) :
    (∃ m', m' ≠ [] ∧ l ++ m' = a) ∨ ∃ l', l = a ++ l' ∧ l' ++ m = b := by
  obtain ⟨m', ha, hm⟩ | ⟨l', hl, hb⟩ := List.append_eq_append_iff.mp h
  · by_cases empty : m' = []
    · exact .inr ⟨[], by simp [ha, empty], by simp [hm, empty]⟩
    · exact .inl ⟨m', empty, ha.symm⟩
  · exact .inr ⟨l', hl, hb.symm⟩

/-- Every proper beginning of an accepted header ends in one of its three parts. -/
theorem cutHeader_of_accepted {l m : List Byte} (hm : m ≠ []) (h : AcceptedHeader (l ++ m)) :
    CutHeader Config.dimMax l := by
  obtain ⟨pw, ph, w1, w2, h1, h2, e⟩ := h
  obtain ⟨m', hm', inMagic⟩ | ⟨l, rfl, behind⟩ := cut_append (e.trans (header_eq pw ph))
  · exact .magic hm' inMagic
  obtain ⟨m', hm', inWidth⟩ | ⟨l, rfl, inHeight⟩ := cut_append behind
  · exact .width ⟨w1, w2⟩ hm' inWidth
  · exact .height ⟨w1, w2⟩ ⟨h1, h2⟩ hm inHeight

section
variable {d : Nat} {c : Cause}

/-- A fault in the magic line ends the parse. -/
theorem parseStream_error_of_magic {s : List Byte} (h : expect (Config.magic ++ [lf]) s = .error c) :
    parseStream d s = .error c := by
  rw [parseStream, readHeader, h, bind_of_error, bind_of_error]

/-- A fault in the width ends the parse. -/
theorem parseStream_error_of_width {s : List Byte} (h : number d sp s = .error c) :
    parseStream d ((Config.magic ++ [lf]) ++ s) = .error c := by
  rw [parseStream, readHeader, expect_full, bind_of_ok, h, bind_of_error, bind_of_error]

/-- A fault in the height ends the parse. -/
theorem parseStream_error_of_height {pw : Nat} {s : List Byte} (hw : 1 ≤ pw ∧ pw ≤ d) (h : number d lf s = .error c) :
    parseStream d ((Config.magic ++ [lf]) ++ ((dec pw ++ [sp]) ++ s)) = .error c := by
  have width : number d sp ((dec pw ++ [sp]) ++ s) = .ok (pw, s) := by
    rw [List.append_assoc]; exact number_full sp_lt hw.1 hw.2 s
  rw [parseStream, readHeader, expect_full, bind_of_ok, width, bind_of_ok]
  dsimp only
  rw [h, bind_of_error, bind_of_error]

end

/-- R224: the stream has ended where something is missing. -/
theorem parseStream_trunc {d : Nat} {s : List Byte} (h : CutHeader d s) : parseStream d s = .error .trunc := by
  cases h with
  | magic hm e => exact parseStream_error_of_magic (expect_trunc hm e)
  | width hw hm e => exact parseStream_error_of_width (number_trunc sp_lt hw.1 hw.2 hm e)
  | height hw hh hm e => exact parseStream_error_of_height hw (number_trunc lf_lt hh.1 hh.2 hm e)

/-- R224: a byte is present that no header in range has there. Were it one that the part's own scan allows, the part and the
parts after it would complete a header. -/
theorem parseStream_precond {good : List Byte} {wrong : Byte} (cut : CutHeader Config.dimMax good)
    (bad : ¬ ∃ more, AcceptedHeader (good ++ wrong :: more)) (rest : List Byte) :
    parseStream Config.dimMax (good ++ wrong :: rest) = .error .precond := by
  have two : 2 ≤ Config.dimMax := by rw [Config.dimMax]; omega
  cases cut with
  | magic hm e =>
    refine parseStream_error_of_magic (expect_precond hm e fun m completes => bad ?_)
    refine ⟨m ++ (dec 2 ++ [sp] ++ (dec 2 ++ [lf])), 2, 2, by decide, two, by decide, two, ?_⟩
    rw [header_eq, ← completes]
    simp only [List.append_assoc, List.cons_append]
  | width hw hm e =>
    rw [List.append_assoc]
    refine parseStream_error_of_width (number_precond sp_lt hw.1 hw.2 hm e fun n m n1 n2 completes => bad ?_)
    refine ⟨m ++ (dec 2 ++ [lf]), n, 2, n1, n2, by decide, two, ?_⟩
    rw [header_eq, ← completes]
    simp only [List.append_assoc, List.cons_append]
  | @height pw _ l _ hw hh hm e =>
    rw [List.append_assoc, List.append_assoc (dec pw ++ [sp]) l]
    refine parseStream_error_of_height hw (number_precond lf_lt hh.1 hh.2 hm e fun n m n1 n2 completes => bad ?_)
    refine ⟨m, pw, n, hw.1, hw.2, n1, n2, ?_⟩
    rw [header_eq, ← completes]
    simp only [List.append_assoc]

/-! ### The two commands -/

section
variable {s : State} (running : Running s)
include running

theorem exec_wwrite_ok {C : Arr Codeword} (hC : s.mem.cwa = some C) (dims : 1 ≤ C.w ∧ 1 ≤ C.h) :
    exec .wwrite s = .next (s.finish { s.mem with strm := some (streamOf C), cwa := none }) :=
  runS_ok running (wireWrite_ok.mpr ⟨C, hC, dims, rfl⟩)

theorem exec_wread_ok {bs : List Byte} {C : Arr Codeword} (hbs : s.mem.strm = some bs)
    (parsed : parseStream Config.dimMax bs = .ok C) :
    exec .wread s = .next (s.finish { s.mem with cwa := some C, strm := none }) :=
  runS_ok running (wireRead_ok.mpr ⟨bs, hbs, C, parsed, rfl⟩)

theorem exec_wread_error {bs : List Byte} {c : Cause} (hbs : s.mem.strm = some bs)
    (failed : parseStream Config.dimMax bs = .error c) : exec .wread s = .next (s.takeFault c) :=
  runS_error running (by rw [wireRead_some hbs, failed, map_error])

theorem exec_wread_empty (h : s.mem.strm = none) : exec .wread s = .next (s.takeFault .precond) :=
  runS_error running (by rw [wireRead, h])

/-- When WREAD leaves the core running, it has parsed the stream. -/
theorem exec_wread_inv {t : State} {bs : List Byte} (hbs : s.mem.strm = some bs) (h : exec .wread s = .next t)
    (completed : Running t) : ∃ C, parseStream Config.dimMax bs = .ok C ∧
      t = s.finish { s.mem with cwa := some C, strm := none } := by
  cases parsed : parseStream Config.dimMax bs with
  | ok C =>
    cases (exec_wread_ok running hbs parsed).symm.trans h
    exact ⟨C, rfl, rfl⟩
  | error c =>
    cases (exec_wread_error running hbs parsed).symm.trans h
    exact absurd (takeFault_faulted c s) (ne_true_of_eq_false completed)

end

/-! ### The obligations -/

/-- Settles O53: the stream is the header and the body; `header_length`, `body_length` and `body_get` place each codeword. -/
theorem writeTheStream : Obligations.WriteTheStream := by
  refine ⟨rfl, rfl, fun n => ⟨dec_digits n, dec_head n, dec_value n⟩, fun s C running hC sized hw hh => ?_,
    fun s running bad => runS_error running (bind_error.mpr (.inl (inputArr_error_of_empty_or_zero bad)))⟩
  refine ⟨streamOf C, exec_wwrite_ok running hC ⟨hw, hh⟩, ?_, streamOf_length sized, fun _ _ => memRead_streamOf sized⟩
  rw [magic_ascii]
  exact header_prefix_streamOf C

/-- Settles O54: behind a header in range the parse is `parseStream_full`: evenness, the body's length, the codewords. -/
theorem readTheStreamAfterAHeader : Obligations.ReadTheStreamAfterAHeader := by
  refine ⟨rfl, fun s pw ph rest running w1 w2 h1 h2 hs => ⟨fun odd => ?_, fun evenW evenH short => ?_,
    fun evenW evenH enough => ?_⟩, fun s running => exec_wread_empty running⟩
  · apply exec_wread_error running hs
    rw [parseStream_full w1 w2 h1 h2, if_neg (by omega)]
  · apply exec_wread_error running hs
    rw [parseStream_full w1 w2 h1 h2, if_pos ⟨evenW, evenH⟩, four_mul_halves evenW evenH, if_pos short]
  · refine ⟨codewordsOf (pw / 2) (ph / 2) rest,
      exec_wread_ok running hs (parseStream_ok ⟨w1, w2⟩ ⟨h1, h2⟩ ⟨evenW, evenH⟩ enough), codewordsOf_sized _ _ _,
      Nat.mul_div_cancel' (Nat.dvd_of_mod_eq_zero evenW), Nat.mul_div_cancel' (Nat.dvd_of_mod_eq_zero evenH),
      fun col row hc hr => ?_⟩
    rw [memRead_behind_header]
    exact codewordsOf_get_toNat rest hc hr

/-- Settles O55: a proper beginning of a header ends in its magic line, its width or its height, and the scan of that part
faults there. -/
theorem headerFaultsAtTheFirstWrongOffset : Obligations.HeaderFaultsAtTheFirstWrongOffset := by
  refine ⟨fun s bs more running hs hm accepted => ?_, fun s good wrong rest running hs begins bad => ?_⟩
  · exact exec_wread_error running hs (parseStream_trunc (cutHeader_of_accepted hm accepted))
  · obtain ⟨more, hm, accepted⟩ := begins
    exact exec_wread_error running hs (parseStream_precond (cutHeader_of_accepted hm accepted) bad rest)

/-- Settles O56: the parse of a stream written is the array written, and a stream parsed is the one written from its array,
with its trailing bytes after it. -/
theorem wireRoundTrip : Obligations.WireRoundTrip := by
  refine ⟨fun s C running hC type hw hh => ?_, fun s t bs C running hs read hC completed => ?_⟩
  · refine ⟨_, exec_wwrite_ok running hC ⟨hw, hh⟩, ?_⟩
    rw [exec_wread_ok (s := s.finish _) running rfl (parseStream_streamOf type hw hh), finish_mem, ← hC]
    rfl
  · obtain ⟨C', parsed, rfl⟩ := exec_wread_inv running hs read completed
    obtain rfl : C' = C := Option.some.inj hC
    obtain ⟨hw, hh, trailing, rfl⟩ := parseStream_inv parsed
    rw [exec_wwrite_ok completed hC ⟨hw, hh⟩, List.length_append, streamOf_length (parseStream_blockSized parsed).1]
    constructor
    · intro h
      have reproduced : streamOf C' = streamOf C' ++ trailing :=
        Option.some.inj (congrArg (·.mem.strm) (Host.Outcome.next.inj h))
      rw [List.self_eq_append_right.mp reproduced]
      rfl
    · intro h
      obtain rfl : trailing = [] := List.eq_nil_of_length_eq_zero (by omega)
      rw [List.append_nil]
      rfl

end Sys2Proof.Machine
end

section
/-! PROOFS. 46_pipeline.md: each sequence of the sequencer as the composition of its five stages, what COMPRESS makes of a map
that is ready and what DECOMPRESS makes of a stream that parses. -/

namespace Sys2Proof.Machine

open Sys2Proof.Safety

/-! ### No map overflows a codeword field (42_color.md R165, 41_quantizer.md R150, 44_codeword.md R200) -/

/-- The luma of a pixel lies where R165 puts it. -/
abbrev UnitLuma (p : CvPixel) : Prop := 0 ≤ p.y ∧ p.y ≤ 1

theorem unitLuma_forwardRgb {denom : Byte} {x : Rgb} (legal : LegalPixel denom x) : UnitLuma (forwardRgb denom x) := by
  obtain ⟨-, hr, hg, hb⟩ := legal
  exact (colorForwardQ_range (channel_div_denom_range hr) (channel_div_denom_range hg) (channel_div_denom_range hb)).1

/-- Outside the array's elements the default pixel is read, whose luma is zero. -/
theorem unitLuma_get {V : Arr CvPixel} (h : ∀ p ∈ V.elems, UnitLuma p) (col row : Nat) : UnitLuma (V.get col row) := by
  unfold Arr.get
  by_cases inside : row * V.w + col < V.elems.length
  · rw [List.getD_eq_getElem _ _ inside]
    exact h _ (List.getElem_mem inside)
  · rw [List.getD_eq_default _ _ (not_lt.mp inside)]
    exact ⟨le_refl 0, zero_le_one⟩

/-- The mean of four lumas lies where they lie. -/
theorem blockForward_a_range {p1 p2 p3 p4 : CvPixel} (h1 : UnitLuma p1) (h2 : UnitLuma p2) (h3 : UnitLuma p3)
    (h4 : UnitLuma p4) : 0 ≤ (blockForward p1 p2 p3 p4).a ∧ (blockForward p1 p2 p3 p4).a ≤ 1 := by
  obtain ⟨lower1, upper1⟩ := h1
  obtain ⟨lower2, upper2⟩ := h2
  obtain ⟨lower3, upper3⟩ := h3
  obtain ⟨lower4, upper4⟩ := h4
  constructor <;> dsimp only [blockForward] <;> linarith

theorem inRange_quantForward (ch : Chroma) {x : BlkRec} (h : 0 ≤ x.a ∧ x.a ≤ 1) : InRange (quantForward ch x) := by
  have diff : ∀ v, -32 ≤ diffCode v ∧ diffCode v ≤ 31 := fun v => by
    have := diffCode_range v
    omega
  exact ⟨(quantForward_qa_fits_iff ch x).mpr ⟨by linarith, by linarith⟩, diff _, diff _, diff _, chromaIndex_range _,
    chromaIndex_range _⟩

/-- The array SCFWD writes to `CV` for a map it accepts (42_color.md R162). -/
def colorsOf (P : PixelMap) : Arr CvPixel := P.px.map (forwardRgb P.denom)

/-- The array the first three stages of COMPRESS leave in `QBLK` (46_pipeline.md R250). -/
def codesOf (ch : Chroma) (P : PixelMap) : Arr QRec := (blocksOf (colorsOf P)).map (quantForward ch)

@[simp] theorem codesOf_w (ch : Chroma) (P : PixelMap) : (codesOf ch P).w = P.px.w / 2 := rfl

@[simp] theorem codesOf_h (ch : Chroma) (P : PixelMap) : (codesOf ch P).h = P.px.h / 2 := rfl

theorem codesOf_sized (ch : Chroma) (P : PixelMap) : (codesOf ch P).Sized := map_sized (blocksOf_sized _)

theorem codesOf_inRange (ch : Chroma) {P : PixelMap} (ready : ForwardReady P) : ∀ x ∈ (codesOf ch P).elems, InRange x := by
  obtain ⟨-, -, legal⟩ := ready
  have luma : ∀ p ∈ (colorsOf P).elems, UnitLuma p :=
    List.forall_mem_map.mpr fun x hx => unitLuma_forwardRgb (legal x hx)
  have pixel := unitLuma_get luma
  refine List.forall_mem_map.mpr (List.forall_mem_map.mpr fun k _ => inRange_quantForward ch ?_)
  exact blockForward_a_range (pixel _ _) (pixel _ _) (pixel _ _) (pixel _ _)

/-- The record of block `(i,j)` comes from the four pixels of the map at the quad `(2i,2j)`. -/
theorem codesOf_get (ch : Chroma) {P : PixelMap} (sized : P.px.Sized) {i j : Nat} (hi : i < P.px.w / 2)
    (hj : j < P.px.h / 2) : (codesOf ch P).get i j = quantForward ch (blockForward (forwardPixel P (2 * i) (2 * j))
      (forwardPixel P (2 * i + 1) (2 * j)) (forwardPixel P (2 * i) (2 * j + 1))
      (forwardPixel P (2 * i + 1) (2 * j + 1))) := by
  have pixel : ∀ {col row}, col < P.px.w → row < P.px.h → (colorsOf P).get col row = forwardPixel P col row :=
    fun hc hr => map_get sized hc hr
  rw [codesOf, map_get (blocksOf_sized _) hi hj, blocksOf_get hi hj, quadForward]
  rw [pixel (by omega) (by omega), pixel (by omega) (by omega), pixel (by omega) (by omega), pixel (by omega) (by omega)]

/-! ### Stages in sequence -/

theorem kleisli_ok {f g : Memory → Except Cause Memory} {m m1 m2 : Memory} (hf : f m = .ok m1) (hg : g m1 = .ok m2) :
    (f >=> g) m = .ok m2 := bind_ok.mpr ⟨m1, hf, hg⟩

theorem kleisli_error {f g : Memory → Except Cause Memory} {m : Memory} {c : Cause} (hf : f m = .error c) :
    (f >=> g) m = .error c := bind_error.mpr (.inl hf)

/-! ### COMPRESS over the buffers (46_pipeline.md R250) -/

/-- COMPRESS asks of its map what SCFWD asks, and evenness. -/
theorem compressReady_iff (P : PixelMap) :
    CompressReady P ↔ ForwardReady P ∧ P.px.w % 2 = 0 ∧ P.px.h % 2 = 0 := by
  constructor
  · rintro ⟨hw, hh, evenW, evenH, denom, fits⟩
    exact ⟨⟨⟨hw, hh⟩, denom, fun x hx => ⟨denom, fits x hx⟩⟩, evenW, evenH⟩
  · rintro ⟨⟨⟨hw, hh⟩, denom, legal⟩, evenW, evenH⟩
    exact ⟨hw, hh, evenW, evenH, denom, fun x hx => (legal x hx).2⟩

/-- The first two stages find out by themselves that a map is not ready. -/
theorem colorThenBlock_error {m : Memory} (h : ∀ P, m.pix = some P → ¬ CompressReady P) :
    (colorForwardStage >=> blockForwardStage) m = .error .precond := by
  refine bind_error.mpr ?_
  cases color : colorForwardStage m with
  | error c => exact .inl (by rw [colorForwardStage_cause color])
  | ok m1 =>
    obtain ⟨P, hP, ready⟩ := ready_of_colorForwardStage color
    have odd : ¬ (P.px.w % 2 = 0 ∧ P.px.h % 2 = 0) := fun even => h P hP ((compressReady_iff P).mpr ⟨ready, even⟩)
    cases (colorForwardStage_of_ready hP ready).symm.trans color
    refine .inr ⟨_, rfl, blockForwardStage_error (.inr ⟨colorsOf P, rfl, ?_⟩)⟩
    show P.px.w = 0 ∨ P.px.h = 0 ∨ P.px.w % 2 = 1 ∨ P.px.h % 2 = 1
    omega

theorem compress_error {ch : Chroma} {m : Memory} (h : ∀ P, m.pix = some P → ¬ CompressReady P) :
    compress ch m = .error .precond := by
  unfold compress
  cases input : inputPix m.pix with
  | error c => rw [inputPix_error input, bind_of_error]
  | ok P =>
    rw [bind_of_ok]
    by_cases even : P.px.w % 2 = 0 ∧ P.px.h % 2 = 0
    · obtain ⟨hP, -⟩ := inputPix_ok.mp input
      have color : colorForwardStage m = .error .precond := colorForwardStage_error fun P' hP' ready => by
        cases hP.symm.trans hP'
        exact h P hP ((compressReady_iff P).mpr ⟨ready, even⟩)
      rw [require_true even, bind_of_ok, color, bind_of_error]
    · rw [require_false even, bind_of_error]

/-- R252 over the buffers: the entry checks of COMPRESS change nothing that its stages do not decide. -/
theorem compress_eq_stages (ch : Chroma) : compress ch =
    (((colorForwardStage >=> blockForwardStage) >=> quantizeForward ch) >=> assembleStage) >=> wireWrite := by
  funext m
  by_cases ready : ∃ P, m.pix = some P ∧ CompressReady P
  · obtain ⟨P, hP, hw, hh, evenW, evenH, -⟩ := ready
    rw [compress, inputPix_ok.mpr ⟨hP, hw, hh⟩, bind_of_ok, require_true ⟨evenW, evenH⟩, bind_of_ok]
    simp only [Bind.kleisliRight, bind_assoc]
  · push Not at ready
    rw [compress_error ready]
    exact (kleisli_error (kleisli_error (kleisli_error (colorThenBlock_error ready)))).symm

/-- On a ready map every stage succeeds; the codewords are those of `codesOf`, half as wide and high as the map. -/
theorem compress_ok (ch : Chroma) {m : Memory} {P : PixelMap} (hP : m.pix = some P) (ready : CompressReady P) :
    ∃ C, (codesOf ch P).mapE assembleWord = .ok C ∧ 2 * C.w = P.px.w ∧ 2 * C.h = P.px.h ∧
      compress ch m = .ok ⟨none, none, none, none, none, some (streamOf C)⟩ := by
  obtain ⟨forward, even⟩ := (compressReady_iff P).mp ready
  have ⟨⟨hw, hh⟩, _⟩ := forward
  have dims : 1 ≤ P.px.w / 2 ∧ 1 ≤ P.px.h / 2 := by omega
  have each : ∀ x ∈ (codesOf ch P).elems, ∃ c, assembleWord x = .ok c := fun x hx =>
    (assembleWord_of_inRange (codesOf_inRange ch forward x hx)).imp fun _ => And.left
  obtain ⟨C, assembled⟩ := exists_mapE_ok each
  obtain ⟨sameW, sameH, -⟩ := mapE_ok.mp assembled
  rw [codesOf_w] at sameW
  rw [codesOf_h] at sameH
  refine ⟨C, assembled, by omega, by omega, ?_⟩
  rw [compress_eq_stages]
  exact kleisli_ok (kleisli_ok (kleisli_ok (kleisli_ok
    (colorForwardStage_of_ready hP forward)
    (blockForwardStage_ok.mpr ⟨colorsOf P, rfl, ⟨hw, hh⟩, even, rfl⟩))
    (quantizeForward_ok.mpr ⟨blocksOf (colorsOf P), rfl, dims, rfl⟩))
    (assembleStage_ok.mpr ⟨codesOf ch P, rfl, dims, C, assembled, rfl⟩))
    (wireWrite_ok.mpr ⟨C, rfl, by omega, rfl⟩)

/-! ### DECOMPRESS over the buffers (46_pipeline.md R251) -/

theorem decompress_eq_stages (ch : Chroma) (d : Nat) : decompress ch d =
    (((wireRead d >=> disassembleStage) >=> quantizeInverse ch) >=> blockInverseStage) >=> colorInverseStage := by
  funext m
  simp only [decompress, Bind.kleisliRight, bind_assoc]

/-- The map DECOMPRESS leaves in `PIX` for a codeword array (R251). -/
def decodedMap (ch : Chroma) (C : Arr Codeword) : PixelMap :=
  { denom := Config.outDenom, px := (pixelsOf ((recordsOf C).map (quantInverseValue ch))).map colorInverse }

theorem decodedMap_sized (ch : Chroma) (C : Arr Codeword) : (decodedMap ch C).px.Sized := map_sized (pixelsOf_sized _)

/-- A pixel comes from the codeword of the quad it lies in. -/
theorem decodedMap_get (ch : Chroma) {C : Arr Codeword} (sized : C.Sized) {col row : Nat} (hc : col < 2 * C.w)
    (hr : row < 2 * C.h) (b : BlkRec)
    (hb : b = quantInverseValue ch (disassemble (C.get (col / 2) (row / 2)).toNat)) :
    (decodedMap ch C).px.get col row = colorInverse
      (if row % 2 = 0 then (if col % 2 = 0 then blockInverse1 b else blockInverse2 b)
        else (if col % 2 = 0 then blockInverse3 b else blockInverse4 b)) := by
  have block : ((recordsOf C).map (quantInverseValue ch)).get (col / 2) (row / 2) = b := by
    have hi : col / 2 < C.w := by omega
    have hj : row / 2 < C.h := by omega
    have record : (recordsOf C).get (col / 2) (row / 2) = disassemble (C.get (col / 2) (row / 2)).toNat :=
      map_get sized hi hj
    rw [map_get (A := recordsOf C) (map_sized sized) hi hj, record, hb]
  rw [decodedMap, map_get (pixelsOf_sized _) hc hr, pixelsOf_get hc hr, quadInverse, block]

/-- Behind WREAD no stage can fail: a field of four bits is a chroma index, and no dimension is zero. -/
theorem decompress_ok (ch : Chroma) {d : Nat} {m : Memory} {bs : List Byte} {C : Arr Codeword} (hbs : m.strm = some bs)
    (parsed : parseStream d bs = .ok C) :
    decompress ch d m = .ok ⟨some (decodedMap ch C), none, none, none, none, none⟩ := by
  obtain ⟨hw, hh, -⟩ := parseStream_inv parsed
  have dequantized : (recordsOf C).mapE (quantInverse ch) = .ok ((recordsOf C).map (quantInverseValue ch)) := by
    refine mapE_of_forall fun x hx => ?_
    obtain ⟨-, -, -, -, hpb, hpr⟩ := recordsOf_inRange C x hx
    exact quantInverse_ok hpb hpr
  have dims : 1 ≤ 2 * C.w ∧ 1 ≤ 2 * C.h := by omega
  rw [decompress_eq_stages]
  exact kleisli_ok (kleisli_ok (kleisli_ok (kleisli_ok
    (wireRead_ok.mpr ⟨bs, hbs, C, parsed, rfl⟩)
    (disassembleStage_ok.mpr ⟨C, rfl, ⟨hw, hh⟩, rfl⟩))
    (quantizeInverse_ok.mpr ⟨recordsOf C, rfl, ⟨hw, hh⟩, _, dequantized, rfl⟩))
    (blockInverseStage_ok.mpr ⟨(recordsOf C).map (quantInverseValue ch), rfl, ⟨hw, hh⟩, rfl⟩))
    (colorInverseStage_ok.mpr ⟨pixelsOf ((recordsOf C).map (quantInverseValue ch)), rfl, dims, rfl⟩)

theorem decompress_error_iff {ch : Chroma} {d : Nat} {m : Memory} {c : Cause} :
    decompress ch d m = .error c ↔ wireRead d m = .error c := by
  cases wire : wireRead d m with
  | error e => rw [decompress, wire, bind_of_error]
  | ok m1 =>
    obtain ⟨bs, hbs, C, parsed, -⟩ := wireRead_ok.mp wire
    rw [decompress_ok ch hbs parsed]
    exact iff_of_false nofun nofun

/-! ### Stages issued one after another (10_state.md R23, 46_pipeline.md R252) -/

/-- An S-form command takes the fault of its stage. -/
theorem runS_takeFault_iff {s : State} (running : Running s) {f : Memory → Except Cause Memory} {c : Cause} :
    runS f s = .next (s.takeFault c) ↔ f s.mem = .error c := by
  refine ⟨fun h => ?_, runS_error running⟩
  cases e : f s.mem with
  | ok m =>
    have same := Host.Outcome.next.inj ((runS_ok running e).symm.trans h)
    cases congrArg State.reply same
  | error d =>
    have same := Host.Outcome.next.inj ((runS_error running e).symm.trans h)
    rw [faultStatus_injective (congrArg State.status same)]

/-- What an S-form command does to `STATUS` and the buffers depends on nothing else of the state. -/
theorem coreOf_runS_congr {s t : State} (status : s.status = t.status) (mem : s.mem = t.mem)
    (f : Memory → Except Cause Memory) : coreOf (runS f s) = coreOf (runS f t) := by
  have fault := faulted_congr status
  unfold runS
  rw [fault, mem]
  split
  · exact congrArg some (Prod.ext status mem)
  · split
    · exact congrArg (fun v => some (v, _)) status
    · rfl

/-- Two S-form commands in sequence are one whose stage is both: a fault of the first makes the second refuse. -/
theorem coreOf_runS_runS (f g : Memory → Except Cause Memory) {s t : State} (first : runS f s = .next t) :
    coreOf (runS g t) = coreOf (runS (f >=> g) s) := by
  rcases runS_cases f s with ⟨refused, e⟩ | ⟨running, m, hm, e⟩ | ⟨running, c, hc, e⟩ <;> cases e.symm.trans first
  · rw [runS_refused (s := s.refuse) refused, runS_refused refused]
    rfl
  · have both : (f >=> g) s.mem = g m := by rw [Bind.kleisliRight, hm, bind_of_ok]
    cases hg : g m with
    | ok m' => rw [runS_ok (s := s.finish m) running hg, runS_ok running (both.trans hg)]; rfl
    | error c => rw [runS_error (s := s.finish m) running hg, runS_error running (both.trans hg)]; rfl
  · rw [runS_refused (takeFault_faulted c s), runS_error running (kleisli_error hc)]
    rfl

/-- Issuing an S-form command after an outcome adds its stage to what the outcome did. -/
theorem coreOf_andThen {o : Host.Outcome State Fault Refusal} {i : Instr} {f g : Memory → Except Cause Memory} {s : State}
    (before : coreOf o = coreOf (runS f s)) (stage : ∀ t, exec i t = runS g t) :
    coreOf (andThen o i) = coreOf (runS (f >=> g) s) := by
  obtain ⟨t, first⟩ : ∃ t, runS f s = .next t := by
    rcases runS_cases f s with ⟨-, e⟩ | ⟨-, m, -, e⟩ | ⟨-, c, -, e⟩ <;> exact ⟨_, e⟩
  rw [first] at before
  cases o with
  | next u =>
    obtain ⟨status, mem⟩ := Prod.mk.inj (Option.some.inj before)
    show coreOf (exec i u) = _
    rw [stage, coreOf_runS_congr status mem, coreOf_runS_runS f g first]
  | fault r => cases before
  | refused r => cases before

/-! ### The obligations -/

/-- Settles O57: on a ready map `compress_ok` names the codeword array, whose places are those of `codesOf`; on any other the
checks at entry or SCFWD's fail. -/
theorem compressThePixelMap : Obligations.CompressThePixelMap := by
  refine ⟨rfl, fun s P running hP sized ready => ?_, fun s running bad => ?_⟩
  · obtain ⟨forward, -⟩ := (compressReady_iff P).mp ready
    obtain ⟨C, assembled, width, height, compressed⟩ := compress_ok Config.chroma hP ready
    have sizedCodes := codesOf_sized Config.chroma P
    refine ⟨C, ?_, mapE_sized sizedCodes assembled, width, height, fun i j hi hj => ?_⟩
    · rw [← width, ← height]
      exact runS_ok running compressed
    · have inWidth : i < P.px.w / 2 := by omega
      have inHeight : j < P.px.h / 2 := by omega
      rw [← codesOf_get Config.chroma sized inWidth inHeight]
      exact assemble_of_assembleWord (codesOf_inRange _ forward _ (get_mem sizedCodes inWidth inHeight))
        (mapE_get sizedCodes assembled inWidth inHeight)
  · refine runS_error running (compress_error fun P hP => ?_)
    obtain empty | ⟨P', hP', -, unready⟩ := bad
    · cases empty.symm.trans hP
    · cases hP.symm.trans hP'
      exact unready

/-- Settles O58: an even header in range with its body parses, and then no stage fails; so a fault is WREAD's own. -/
theorem decompressTheStream : Obligations.DecompressTheStream := by
  refine ⟨rfl, fun s pw ph rest running w1 w2 h1 h2 evenW evenH hs enough => ?_, fun s c running => ?_⟩
  · have parsed := parseStream_ok ⟨w1, w2⟩ ⟨h1, h2⟩ ⟨evenW, evenH⟩ enough
    have width : 2 * (pw / 2) = pw := by omega
    have height : 2 * (ph / 2) = ph := by omega
    refine ⟨decodedMap Config.chroma (codewordsOf (pw / 2) (ph / 2) rest),
      runS_ok running (decompress_ok Config.chroma hs parsed), rfl, decodedMap_sized _ _, width, height,
      fun col row hc hr => ⟨_, rfl, ?_⟩⟩
    refine decodedMap_get Config.chroma (codewordsOf_sized _ _ _) (hc.trans_eq width.symm) (hr.trans_eq height.symm) _ ?_
    rw [codewordsOf_get_toNat rest (by omega) (by omega)]
  · exact (runS_takeFault_iff running).trans (decompress_error_iff.trans (runS_takeFault_iff running).symm)

/-- Settles O59: each sequence is the composition of its stages, and each command issued composes one more. -/
theorem sequencerEqualsStageCommands : Obligations.SequencerEqualsStageCommands := by
  refine ⟨fun s => ?_, fun s => ?_⟩
  · show coreOf (runS (compress Config.chroma) s) = _
    rw [compress_eq_stages]
    exact (coreOf_andThen (coreOf_andThen (coreOf_andThen (coreOf_andThen rfl fun _ => rfl) fun _ => rfl) fun _ => rfl)
      fun _ => rfl).symm
  · show coreOf (runS (decompress Config.chroma Config.dimMax) s) = _
    rw [decompress_eq_stages]
    exact (coreOf_andThen (coreOf_andThen (coreOf_andThen (coreOf_andThen rfl fun _ => rfl) fun _ => rfl) fun _ => rfl)
      fun _ => rfl).symm

/-- Settles O60: the stream COMPRESS writes parses to the codeword array it came from, half as wide and high as the map. -/
theorem compressThenDecompressKeepsDimensions : Obligations.CompressThenDecompressKeepsDimensions := by
  intro s P running hP type ready
  obtain ⟨-, boundW, boundH⟩ := type
  have ⟨hw, hh, _⟩ := ready
  obtain ⟨C, assembled, width, height, compressed⟩ := compress_ok Config.chroma hP ready
  have blocks : blockSized Config.dimMax C := ⟨mapE_sized (codesOf_sized _ P) assembled, by omega, by omega⟩
  have parsed := parseStream_streamOf blocks (by omega) (by omega)
  exact ⟨_, decodedMap Config.chroma C, runS_ok running compressed,
    runS_ok (s := s.finish _) running (decompress_ok Config.chroma rfl parsed), decodedMap_sized _ C, width, height, rfl⟩

end Sys2Proof.Machine
end

section
/-! PROOFS. 60_exceptions.md: which causes each command can raise, what fault entry and refusal leave, and the host's actions. -/

namespace Sys2Proof.Machine

open Sys2Proof.Safety

/-! ### Refusal, and entry of a fault (60_exceptions.md R287 to R289) -/

/-- While `FAULT = 1` an issued command is refused, be its code reserved or not. -/
theorem issue_refused {s : State} (h : s.faulted = true) (c : Command) : issue c s = .next s.refuse := by
  cases hd : decode c with
  | ok i => exact (issue_ok hd s).trans (exec_refused h i)
  | error e => rw [issue_reserved hd, if_pos h]

/-- In a running core a command that leaves a fault standing is one that took it. -/
theorem exec_eq_takeFault {i : Instr} {s t : State} (running : Running s) (h : exec i s = .next t)
    (faulted : t.faulted = true) : ∃ c, t = s.takeFault c := by
  rcases exec_cases i s with ⟨refused, -⟩ | ⟨-, -, v, e⟩ | ⟨-, -, m, e, -⟩ | ⟨-, c, e⟩
  · exact absurd refused (ne_true_of_eq_false running)
  · cases e.symm.trans h
    exact absurd faulted (ne_true_of_eq_false running)
  · cases e.symm.trans h
    exact absurd faulted (ne_true_of_eq_false running)
  · cases e.symm.trans h
    exact ⟨c, rfl⟩

/-- An F-form command takes the fault of its computation. -/
theorem runF_takeFault_iff {s : State} (running : Running s) {r : Except Cause Result} {c : Cause} :
    runF r s = .next (s.takeFault c) ↔ r = .error c := by
  refine ⟨fun h => ?_, fun h => h ▸ runF_error running c⟩
  cases r with
  | ok v =>
    have same := Host.Outcome.next.inj ((runF_ok running v).symm.trans h)
    cases congrArg State.reply same
  | error d =>
    have same := Host.Outcome.next.inj ((runF_error running d).symm.trans h)
    rw [faultStatus_injective (congrArg State.status same)]

/-! ### The host's actions (60_exceptions.md R292) -/

theorem hostLoad_of_faulted {s : State} (h : s.faulted = true) (v : BufVal) :
    hostLoad v s = .next { s with reply := .nothing } := if_pos h

section
variable {s : State} {v : BufVal} (running : Running s)
include running

theorem hostLoad_ok (type : v.ok Config.dimMax = true) :
    hostLoad v s = .next { s with mem := s.mem.load v, reply := .nothing } := by
  rw [hostLoad, if_neg (ne_true_of_eq_false running), if_pos type]

theorem hostLoad_outsideType (outside : v.ok Config.dimMax = false) : hostLoad v s = .fault .loadOutsideType := by
  rw [hostLoad, if_neg (ne_true_of_eq_false running), if_neg (ne_true_of_eq_false outside)]

end

/-- Bits 7:3 of a legal `STATUS` are zero (10_state.md R21), so the host reads it as it stands. -/
theorem readStatus_of_legal {s : State} (h : legalStatus s.status) : s.readStatus = s.status := by
  unfold State.readStatus
  obtain e | e | e | e := h <;> rw [e] <;> rfl

/-! ### Which causes a computation can raise -/

/-- Whatever fault the computation raises, its cause is one of `P`. -/
def Raises {α : Type} (P : Cause → Prop) (x : Except Cause α) : Prop := ∀ c, x = .error c → P c

section
variable {α β : Type} {P : Cause → Prop}

theorem raises_ok (a : α) : Raises P (.ok a : Except Cause α) := fun _ h => nomatch h

theorem raises_error {c : Cause} (h : P c) : Raises P (.error c : Except Cause α) := fun _ e => Except.error.inj e ▸ h

/-- A computation whose faults have one cause. -/
theorem raises_of_cause {x : Except Cause α} {d : Cause} (h : P d) (cause : ∀ c, x = .error c → c = d) : Raises P x :=
  fun c e => cause c e ▸ h

theorem Raises.bind {x : Except Cause α} {k : α → Except Cause β} (first : Raises P x) (rest : ∀ a, Raises P (k a)) :
    Raises P (x >>= k) := fun c e =>
  (bind_error.mp e).elim (first c) fun ⟨a, _, ha⟩ => rest a c ha

theorem Raises.map {x : Except Cause α} {f : α → β} (h : Raises P x) : Raises P (x.map f) := by
  cases x with
  | ok a => exact raises_ok (f a)
  | error c => exact raises_error (h c rfl)

theorem raises_mapE {f : α → Except Cause β} {A : Arr α} (h : ∀ x, Raises P (f x)) : Raises P (A.mapE f) := fun c e =>
  let ⟨x, _, hx⟩ := mapE_error e
  h x c hx

theorem raises_require (precond : P .precond) {p : Prop} [Decidable p] : Raises P (require p) :=
  raises_of_cause precond fun _ e => (require_error.mp e).2

theorem raises_inputArr (precond : P .precond) {buf : Option (Arr α)} : Raises P (inputArr buf) :=
  raises_of_cause precond fun _ => inputArr_error

/-! ### Bit fields, codewords, records (60_exceptions.md R281, R282) -/

theorem raises_setUnsigned (overflow : P .overflow) {word width lsb : Nat} {v : Int} :
    Raises P (setUnsigned word width lsb v) := by
  unfold setUnsigned
  split
  · exact raises_ok _
  · exact raises_error overflow

theorem raises_setSigned (overflow : P .overflow) {word width lsb : Nat} {v : Int} :
    Raises P (setSigned word width lsb v) := by
  unfold setSigned
  split
  · exact raises_ok _
  · exact raises_error overflow

theorem raises_assemble (overflow : P .overflow) {x : QRec} : Raises P (assemble x) :=
  raises_of_cause overflow fun _ e => assembleWord_cause (by rw [assembleWord, e, map_error])

/-! ### Streams (60_exceptions.md R283, 45_wire.md R223) -/

section
variable (precond : P .precond) (trunc : P .trunc)
include precond trunc

theorem raises_expect (es s : List Byte) : Raises P (expect es s) := by
  induction es generalizing s with
  | nil => exact raises_ok s
  | cons e es ih =>
    cases s with
    | nil => exact raises_error trunc
    | cons b s =>
      unfold expect
      split
      · exact ih s
      · exact raises_error precond

theorem raises_numberLoop (d : Nat) (term : Byte) (v : Nat) (s : List Byte) : Raises P (numberLoop d term v s) := by
  induction s generalizing v with
  | nil => exact raises_error trunc
  | cons b s ih =>
    unfold numberLoop
    split_ifs
    · exact raises_ok _
    · exact raises_error precond
    · exact raises_error precond
    · exact ih _

theorem raises_number (d : Nat) (term : Byte) (s : List Byte) : Raises P (number d term s) := by
  cases s with
  | nil => exact raises_error trunc
  | cons b s =>
    unfold number
    dsimp only
    split_ifs
    · exact raises_error precond
    · exact raises_error precond
    · exact raises_numberLoop precond trunc d term _ s

theorem raises_readHeader (d : Nat) (s : List Byte) : Raises P (readHeader d s) :=
  (raises_expect precond trunc _ s).bind fun _ => (raises_number precond trunc d sp _).bind fun _ =>
    (raises_number precond trunc d lf _).bind fun _ => (raises_require precond).bind fun _ => raises_ok _

theorem raises_parseStream (d : Nat) (s : List Byte) : Raises P (parseStream d s) := by
  refine (raises_readHeader precond trunc d s).bind fun (cw, ch, bs) => ?_
  dsimp only
  split
  · exact raises_error trunc
  · exact raises_ok _

theorem raises_wireRead (d : Nat) (m : Memory) : Raises P (wireRead d m) := by
  unfold wireRead
  split
  · exact raises_error precond
  · exact (raises_parseStream precond trunc d _).map

end

end

/-- COMPRESS faults on a map that is not ready and on no other, so no codeword field overflows (46_pipeline.md R253). -/
theorem compress_cause {ch : Chroma} {m : Memory} {c : Cause} (h : compress ch m = .error c) : c = .precond := by
  by_cases ready : ∃ P, m.pix = some P ∧ CompressReady P
  · obtain ⟨P, hP, ready⟩ := ready
    obtain ⟨C, -, -, -, compressed⟩ := compress_ok ch hP ready
    cases compressed.symm.trans h
  · push Not at ready
    cases (compress_error ready).symm.trans h
    rfl

/-! ### Which causes a command can raise (60_exceptions.md R281 to R283) -/

/-- The operations that R282 and R283 name for their causes. PreconditionViolation is not limited here. -/
abbrev CanRaise (op : Op) : Cause → Prop
  | .precond => True
  | .overflow => op = .setu ∨ op = .sets ∨ op = .cwasm ∨ op = .scwasm
  | .trunc => op = .wread ∨ op = .decompress

/-- A command takes a fault of no other cause than those the rules name for it. -/
theorem canRaise_of_exec {i : Instr} {s : State} {c : Cause} (running : Running s)
    (h : exec i s = .next (s.takeFault c)) : CanRaise i.opName c := by
  have precond : CanRaise i.opName .precond := trivial
  have fForm : ∀ {r}, exec i s = runF r s → Raises (CanRaise i.opName) r → CanRaise i.opName c := fun e hr =>
    hr c ((runF_takeFault_iff running).mp (e.symm.trans h))
  have sForm : ∀ {f}, exec i s = runS f s → Raises (CanRaise i.opName) (f s.mem) → CanRaise i.opName c := fun e hf =>
    hf c ((runS_takeFault_iff running).mp (e.symm.trans h))
  cases i with
  | fitsu | fitss | getu | gets => exact fForm rfl ((raises_require precond).bind fun _ => raises_ok _)
  | setu =>
    exact fForm rfl ((raises_require precond).bind fun _ => (raises_setUnsigned (.inl rfl)).bind fun _ => raises_ok _)
  | sets =>
    exact fForm rfl ((raises_require precond).bind fun _ =>
      (raises_setSigned (.inr (.inl rfl))).bind fun _ => raises_ok _)
  | qfwd | cinv | bfwd | binv | cwdis => exact fForm rfl (raises_ok _)
  | qinv => exact fForm rfl (raises_of_cause precond fun _ => quantInverse_cause).map
  | cfwd => exact fForm rfl (raises_of_cause precond fun _ => colorForward_cause).map
  | cwasm => exact fForm rfl (raises_assemble (.inr (.inr (.inl rfl)))).map
  | sqfwd | scinv | sbinv | scwdis | wwrite =>
    exact sForm rfl ((raises_inputArr precond).bind fun _ => raises_ok _)
  | sqinv =>
    exact sForm rfl ((raises_inputArr precond).bind fun _ =>
      (raises_mapE fun _ => raises_of_cause precond fun _ => quantInverse_cause).bind fun _ => raises_ok _)
  | scfwd => exact sForm rfl (raises_of_cause precond fun _ => colorForwardStage_cause)
  | sbfwd => exact sForm rfl (raises_of_cause precond fun _ => blockForwardStage_cause)
  | scwasm =>
    exact sForm rfl ((raises_inputArr precond).bind fun _ =>
      (raises_mapE fun _ => (raises_assemble (.inr (.inr (.inr rfl)))).map).bind fun _ => raises_ok _)
  | wread => exact sForm rfl (raises_wireRead precond (.inl rfl) _ _)
  | compress => exact sForm rfl (raises_of_cause precond fun _ => compress_cause)
  | decompress =>
    exact sForm rfl fun _ e => raises_wireRead precond (.inr rfl) _ _ _ (decompress_error_iff.mp e)

/-! ### When a command overflows (60_exceptions.md R282) -/

/-- Behind a check that raises PreconditionViolation an overflow shows only where the check passes. -/
theorem require_bind_overflow_iff {α : Type} {p : Prop} [Decidable p] {x : Except Cause α} :
    (require p >>= fun _ => x) = .error .overflow ↔ p ∧ x = .error .overflow := by
  by_cases h : p
  · rw [require_true h, bind_of_ok, and_iff_right h]
  · rw [require_false h, bind_of_error]
    exact iff_of_false nofun fun ⟨hp, _⟩ => h hp

theorem setUnsigned_overflow_iff {word width lsb value : Nat} :
    setUnsigned word width lsb value = .error .overflow ↔ 2 ^ width ≤ value := by
  refine ⟨fun h => not_lt.mp fun fits => ?_, setUnsigned_error⟩
  cases (setUnsigned_ok fits).symm.trans h

theorem setSigned_overflow_iff {word width lsb : Nat} {v : Int} : setSigned word width lsb v = .error .overflow ↔
    width = 0 ∨ v < -2 ^ (width - 1) ∨ 2 ^ (width - 1) - 1 < v := by
  refine ⟨fun h => by_contra fun fits => ?_, setSigned_error⟩
  push Not at fits
  obtain ⟨pos, lower, upper⟩ := fits
  cases (setSigned_ok (Nat.pos_of_ne_zero pos) lower upper).symm.trans h

theorem assemble_overflow_iff {x : QRec} : assemble x = .error .overflow ↔ ¬ InRange x := by
  refine ⟨fun h inRange => ?_, assemble_error⟩
  obtain ⟨w, assembled, -⟩ := assemble_ok inRange
  cases assembled.symm.trans h

/-- Handing over the result adds no fault. -/
theorem map_error_iff {α β : Type} {x : Except Cause α} {f : α → β} {c : Cause} :
    x.map f = .error c ↔ x = .error c := by
  cases x <;> simp

theorem bind_ok_error_iff {α β : Type} {x : Except Cause α} {f : α → β} {c : Cause} :
    (x >>= fun a => .ok (f a)) = .error c ↔ x = .error c := by
  cases x <;> simp

section
variable {s : State} (running : Running s)
include running

theorem exec_setu_overflow_iff {word width lsb value : Nat} :
    exec (.setu word width lsb value) s = .next (s.takeFault .overflow) ↔
      width ≤ 64 ∧ width + lsb ≤ 64 ∧ 2 ^ width ≤ value := by
  rw [exec_setu, runF_takeFault_iff running, requireField, require_bind_overflow_iff, bind_ok_error_iff,
    setUnsigned_overflow_iff, and_assoc, Config.word]

theorem exec_sets_overflow_iff {word width lsb : Nat} {v : Int} :
    exec (.sets word width lsb v) s = .next (s.takeFault .overflow) ↔
      width ≤ 64 ∧ width + lsb ≤ 64 ∧ (width = 0 ∨ v < -2 ^ (width - 1) ∨ 2 ^ (width - 1) - 1 < v) := by
  rw [exec_sets, runF_takeFault_iff running, requireField, require_bind_overflow_iff, bind_ok_error_iff,
    setSigned_overflow_iff, and_assoc, Config.word]

theorem exec_cwasm_overflow_iff {x : QRec} :
    exec (.cwasm x) s = .next (s.takeFault .overflow) ↔ ¬ InRange x :=
  (runF_takeFault_iff running).trans (map_error_iff.trans assemble_overflow_iff)

/-- The checks on `QBLK` have another cause, so an overflow is one record's. -/
theorem exec_scwasm_overflow_iff : exec .scwasm s = .next (s.takeFault .overflow) ↔
    ∃ Q, s.mem.qblk = some Q ∧ 1 ≤ Q.w ∧ 1 ≤ Q.h ∧ ∃ x ∈ Q.elems, ¬ InRange x := by
  constructor
  · intro h
    obtain checks | ⟨Q, checks, h⟩ := bind_error.mp ((runS_takeFault_iff running).mp h)
    · cases inputArr_error checks
    obtain ⟨hQ, hw, hh⟩ := inputArr_ok.mp checks
    obtain ⟨x, hx, fails⟩ := mapE_error (bind_ok_error_iff.mp h)
    exact ⟨Q, hQ, hw, hh, x, hx, assemble_overflow_iff.mp (map_error_iff.mp fails)⟩
  · rintro ⟨Q, hQ, hw, hh, x, hx, outside⟩
    exact exec_scwasm_overflow running hQ ⟨hw, hh⟩ hx outside

end

/-! ### An input buffer that cannot be used (60_exceptions.md R281 (f)) -/

/-- What the buffer holds is no input: it is `EMPTY`, or an array with a zero dimension. -/
def NoInput (content : Option BufVal) : Prop := content = none ∨ ∃ v, content = some v ∧ ZeroSized v

/-- The check on an input array fails, `val` being what makes the array a buffer's value. -/
theorem inputArr_of_noInput {α : Type} {buf : Option (Arr α)} {val : Arr α → BufVal} (h : NoInput (buf.map val))
    (zero : ∀ A, ZeroSized (val A) → A.w = 0 ∨ A.h = 0) : inputArr buf = .error .precond := by
  refine inputArr_error_of_empty_or_zero (h.imp Option.map_eq_none_iff.mp ?_)
  rintro ⟨v, hv, zeroSized⟩
  obtain ⟨A, hA, rfl⟩ := Option.map_eq_some_iff.mp hv
  exact ⟨A, hA, zero A zeroSized⟩

theorem inputPix_of_noInput {m : Memory} (h : NoInput (m.read .pix)) : inputPix m.pix = .error .precond := by
  cases e : inputPix m.pix with
  | error c => rw [inputPix_error e]
  | ok P =>
    obtain ⟨hP, hw, hh⟩ := inputPix_ok.mp e
    have read : m.read .pix = some (.pix P) := congrArg (Option.map BufVal.pix) hP
    rw [read] at h
    obtain empty | ⟨v, hv, zeroSized⟩ := h
    · cases empty
    · cases hv
      have zero : P.px.w = 0 ∨ P.px.h = 0 := zeroSized
      omega

/-- A stream has no dimension that could be zero. -/
theorem wireRead_of_noInput {d : Nat} {m : Memory} (h : NoInput (m.read .strm)) : wireRead d m = .error .precond := by
  have empty : m.strm = none := by
    obtain empty | ⟨v, hv, zeroSized⟩ := h
    · exact Option.map_eq_none_iff.mp empty
    · obtain ⟨bs, -, rfl⟩ := Option.map_eq_some_iff.mp hv
      exact zeroSized.elim
  rw [wireRead, empty]

/-! ### The obligations -/

/-- Settles O12: every command is refused, a reserved code too, and a load is ignored. -/
theorem faultedCoreRefusesEveryCommand : Obligations.FaultedCoreRefusesEveryCommand := by
  refine ⟨fun i s faulted => exec_refused faulted i, fun s c rest faulted next => ?_, fun s v rest faulted next => ?_⟩
  · exact (step_cons next).trans (issue_refused (s := { s with inbox := rest }) faulted c)
  · exact ⟨_, (step_cons next).trans (hostLoad_of_faulted (s := { s with inbox := rest }) faulted v), rfl, rfl⟩

/-- Settles O13: the state left is that of fault entry. -/
theorem faultEntryEmptiesEveryBuffer : Obligations.FaultEntryEmptiesEveryBuffer := by
  intro i s t running h faulted
  obtain ⟨c, rfl⟩ := exec_eq_takeFault running h faulted
  exact ⟨faultStatus_cases c, rfl, rfl, rfl, rfl, rfl, rfl, rfl, rfl⟩

/-- Settles O15: four commands overflow exactly where their own lemma says; no other can raise the cause at all. -/
theorem everyWayToOverflow : Obligations.EveryWayToOverflow := by
  intro i s running
  have named : exec i s = .next (s.takeFault .overflow) →
      i.opName = .setu ∨ i.opName = .sets ∨ i.opName = .cwasm ∨ i.opName = .scwasm := canRaise_of_exec running
  cases i with
  | setu => exact exec_setu_overflow_iff running
  | sets => exact exec_sets_overflow_iff running
  | cwasm => exact exec_cwasm_overflow_iff running
  | scwasm => exact exec_scwasm_overflow_iff running
  | _ => exact iff_of_false (fun h => by simpa [Instr.opName] using named h) not_false

/-- Settles O16: `STATUS = 0x07` records a truncation, which R283 gives to two operations; that DECOMPRESS takes it with
WREAD is O58's last clause. -/
theorem onlyStreamReadersTruncate : Obligations.OnlyStreamReadersTruncate := by
  obtain ⟨-, -, sameFault⟩ := decompressTheStream
  refine ⟨fun i s t running h status => ?_, fun s => sameFault s .trunc⟩
  have faulted : t.faulted = true := by rw [State.faulted, status]; decide
  obtain ⟨c, rfl⟩ := exec_eq_takeFault running h faulted
  obtain rfl : c = .trunc := faultStatus_injective status
  obtain op | op := canRaise_of_exec running h
  · cases i <;> cases op
    exact .inl rfl
  · cases i <;> cases op
    exact .inr rfl

/-- Settles O19: each of the stages begins with the check of its input buffer, and a fault of WREAD is one of DECOMPRESS. -/
theorem emptyOrZeroSizedInputFaults : Obligations.EmptyOrZeroSizedInputFaults := by
  intro i s b sForm running input noInput
  change NoInput (s.mem.read b) at noInput
  cases i with
  | scfwd | compress =>
    cases input
    exact runS_error running (bind_error.mpr (.inl (inputPix_of_noInput noInput)))
  | sqfwd | sqinv | scinv | sbfwd | sbinv | scwasm | scwdis | wwrite =>
    cases input
    exact runS_error running (bind_error.mpr (.inl (inputArr_of_noInput noInput fun _ => id)))
  | wread =>
    cases input
    exact runS_error running (wireRead_of_noInput noInput)
  | decompress =>
    cases input
    exact runS_error running (decompress_error_iff.mpr (wireRead_of_noInput noInput))
  | _ => cases sForm

/-- Settles O3: each action by its own lemma, a load by whether a fault stands and the value is of its buffer's type. -/
theorem hostLoadsReadsAndStatus : Obligations.HostLoadsReadsAndStatus := by
  refine ⟨fun s v rest next running type => ?_, fun s v rest next faulted => ?_, fun s v rest next running outside => ?_,
    fun s b rest => step_cons, fun s rest => step_cons, fun s => readStatus_of_legal⟩
  · exact ⟨_, (step_cons next).trans (hostLoad_ok (s := { s with inbox := rest }) running type), rfl, rfl,
      load_read s.mem v⟩
  · exact (step_cons next).trans (hostLoad_of_faulted (s := { s with inbox := rest }) faulted v)
  · exact (step_cons next).trans (hostLoad_outsideType (s := { s with inbox := rest }) running outside)

end Sys2Proof.Machine
end

section
/-! PROOFS. 70_reset_and_hazards.md: the one way out of a fault, the end of every command, and a buffer used after release. -/

namespace Sys2Proof.Machine

open Sys2Proof.Safety

/-- No effect of a step that is no reset clears `FAULT`: a change of `STATUS` takes a running core (10_state.md R21). -/
theorem CoreEffect.keeps_fault {s t : State} (h : CoreEffect s t) (faulted : s.faulted = true) : t.faulted = true := by
  cases h with
  | same hs hm => exact (faulted_congr hs).trans faulted
  | update hs hw running => exact (faulted_congr hs).trans faulted
  | fault c hs hm running => exact absurd faulted (ne_true_of_eq_false running)

/-- A command ends in a next state in each of the four ways it can end (70_reset_and_hazards.md R330). -/
theorem exists_exec_next (i : Instr) (s : State) : ∃ t, exec i s = .next t := by
  rcases exec_cases i s with ⟨-, e⟩ | ⟨-, -, v, e⟩ | ⟨-, -, m, e, -⟩ | ⟨-, c, e⟩
  all_goals exact ⟨_, e⟩

theorem exists_issue_next (c : Command) (s : State) : ∃ t, issue c s = .next t := by
  cases hd : decode c with
  | ok i => exact issue_ok hd s ▸ exists_exec_next i s
  | error e => exact ⟨_, issue_reserved hd s⟩

/-! ### The obligations -/

/-- Settles O2: a reset sets every field but the host's list, and no other effect of a step clears `FAULT`. -/
theorem resetIsTheOnlyWayOutOfAFault : Obligations.ResetIsTheOnlyWayOutOfAFault := by
  refine ⟨fun s rest => step_cons, fun s t faulted h cleared => ?_⟩
  rcases step_effect h with ⟨-, -, reset⟩ | ⟨effect, -⟩
  · exact reset
  · exact absurd (effect.keeps_fault faulted) (ne_true_of_eq_false cleared)

/-- Settles O11: an issued command is one that decodes or a reserved code, and either ends in a next state. -/
theorem everyCommandEnds : Obligations.EveryCommandEnds := by
  refine ⟨exists_exec_next, fun s c rest next => ?_⟩
  rw [step_cons next]
  exact exists_issue_next c { s with inbox := rest }

/-- Settles O21: the first command leaves the buffer `EMPTY` (O18), and an `EMPTY` input faults (O19). -/
theorem useAfterReleaseFaults : Obligations.UseAfterReleaseFaults := by
  intro i j s t sForm sForm' sameInput running h noFault
  obtain ⟨-, -, -, released, -⟩ := sFormCommandsReleaseInputAndFillOutput i s t sForm running h noFault
  obtain ⟨b, _, _, stage, -⟩ := exec_stage i sForm
  have empty : t.mem.read b = none := released b stage.input
  exact ⟨released, emptyOrZeroSizedInputFaults j t b sForm' noFault (sameInput.trans stage.input) (.inl empty)⟩

end Sys2Proof.Machine
end
